-- ==== Sys2Proof/Word.lean ====
section
/-! DEFINITION. The word types of the core: bytes, the 16-bit packed values of a stream, the 32-bit
indices and registers (10_state.md, 20_memory.md R61), and the names of the engines and buffers. -/

namespace Sys2Proof

/-- The unit of every buffer (R60). -/
abbrev Byte := BitVec 8

/-- A 16-bit value of a stream: a packed colour (R32) or a token (R40). -/
abbrev Half := BitVec 16

/-- A 32-bit register or buffer index, `IDXW` = 32 (R7, R22, R61). -/
abbrev Word := BitVec 32

/-- The two engines of the core (R20). -/
inductive Engine where
  | btd   -- BlockTextureDecoder
  | lzd   -- LZStreamDecompressor
  deriving DecidableEq, Repr

/-- The two buffers of an engine (R42, R60). -/
inductive Buffer where
  | src
  | dst
  deriving DecidableEq, Repr

end Sys2Proof
end

