-- ==== Sys2Proof/Config.lean ====
section
/-! DEFINITION. What the spec leaves open for the whole machine: the open parameters of 00_scope.md R7
and the free values that stand where the spec says "unspecified" or "any value". Every constant here is
opaque: nothing can evaluate it, so a claim about it holds for every value. -/

namespace Sys2Proof

/-- `REG_BASE_BTD` and `REG_BASE_LZD`: where a register block sits on the host bus (R7, R22, R28, U14).
No rule reads it. -/
opaque Config.regBase : Engine → Nat

/-- `SRC_BASE` and `DST_BASE`: the platform address of index 0 of a buffer (R7, R61, U14). No rule reads it. -/
opaque Config.bufferBase : Engine → Buffer → Nat

/-- A free value of `w` bits: the register numbered `slot` of engine `e`, unspecified at the engine's draw
number `draw` (R46; U10, U11). Log entries 4 and 5. -/
opaque Config.freeBits (e : Engine) (w draw slot : Nat) : BitVec w

/-- A free byte: index `a` of the destination buffer of engine `e`, unspecified at draw number `draw`
(R237, R47; U4, U12). Log entries 4 and 6. -/
opaque Config.freeByte (e : Engine) (draw a : Nat) : Byte

end Sys2Proof
end

