-- ==== Sys2Proof/Syntax.lean ====
section
/-! DEFINITION. The instructions of the core: one constructor for each row of spec/opcode_table.json
(30_encoding.md R90, R117), and the parse contexts that say which format the next bytes have (R90, R99). -/

namespace Sys2Proof

/-- The twelve rows of the opcode table. The operands of a host operation are the descriptor registers
(R91, R92), which are state (R12), so its constructor carries none. -/
inductive Instr where
  /-- Host operation of engine BTD, `OP` = 0 (R152). -/
  | decodeColorBlocks
  /-- Host operation of engine BTD, `OP` = 1 (R170). -/
  | decodeIntensity8
  /-- Host operation of engine BTD, `OP` = 2 (R173). -/
  | decodeIntensity4
  /-- Host operation of engine LZD (R190). -/
  | decompress
  /-- Control byte: eight flags, bit 7 first (R94, R192). -/
  | ctrl (flags : BitVec 8)
  /-- Literal byte (R95, R196). -/
  | lit (b : BitVec 8)
  /-- Short back-reference: length code `n` (not 0) and distance minus 1 `d` (R96, R198). -/
  | ref (n : BitVec 4) (d : BitVec 12)
  /-- Extended back-reference: distance minus 1 `d` and extra byte `e` (R97, R199). -/
  | refx (d : BitVec 12) (e : BitVec 8)
  /-- Colour block in gradient mode, `c1` > `c2` raw (R100, R153). -/
  | cblkG (c1 c2 : BitVec 16) (r0 r1 r2 r3 : BitVec 8)
  /-- Colour block in average mode, `c1` <= `c2` raw (R100, R154). -/
  | cblkA (c1 c2 : BitVec 16) (r0 r1 r2 r3 : BitVec 8)
  /-- One 8-bit intensity pixel (R104, R171). -/
  | i8px (v : BitVec 8)
  /-- Two 4-bit intensity pixels, `hi` the left one (R105, R174). -/
  | i4pp (hi lo : BitVec 4)
  deriving DecidableEq, Repr

/-- What decides, beside the bytes, which format comes next: a START of an engine, or the element due in
the running operation (R90, R99; the `prefix` column of the opcode table). -/
inductive Context where
  /-- A START of engine BTD: the byte read is the low byte of `BTD.OP` (format `CMD-BTD`, R91). -/
  | commandBtd
  /-- A START of engine LZD: no opcode field (format `CMD-LZD`, R92). -/
  | commandLzd
  /-- `decompress`, no flag left (format `LZ-C`, R94). -/
  | control
  /-- `decompress`, the next flag is 1 (format `LZ-L`, R95). -/
  | literal
  /-- `decompress`, the next flag is 0 (formats `LZ-R` and `LZ-X`, R96, R97). -/
  | reference
  /-- `decodeColorBlocks` (format `TX-CB`, R100). -/
  | colorBlock
  /-- `decodeIntensity8` (format `TX-I8`, R104). -/
  | intensity8
  /-- `decodeIntensity4` (format `TX-I4`, R105). -/
  | intensity4
  deriving DecidableEq, Repr

/-- The parse context in which the instruction stands. -/
def Instr.context : Instr → Context
  | .decodeColorBlocks => .commandBtd
  | .decodeIntensity8 => .commandBtd
  | .decodeIntensity4 => .commandBtd
  | .decompress => .commandLzd
  | .ctrl _ => .control
  | .lit _ => .literal
  | .ref _ _ => .reference
  | .refx _ _ => .reference
  | .cblkG _ _ _ _ _ _ => .colorBlock
  | .cblkA _ _ _ _ _ _ => .colorBlock
  | .i8px _ => .intensity8
  | .i4pp _ _ => .intensity4

/-- The length of a stream element in bytes (R30, R90). A host operation is a descriptor and takes no
stream byte: 0. -/
def Instr.lengthBytes : Instr → Nat
  | .decodeColorBlocks => 0
  | .decodeIntensity8 => 0
  | .decodeIntensity4 => 0
  | .decompress => 0
  | .ctrl _ => 1
  | .lit _ => 1
  | .ref _ _ => 2
  | .refx _ _ => 3
  | .cblkG _ _ _ _ _ _ => 8
  | .cblkA _ _ _ _ _ _ => 8
  | .i8px _ => 1
  | .i4pp _ _ => 1

end Sys2Proof
end

