-- ==== Sys2Proof/WellFormed.lean ====
section
/-! DEFINITION. The conditions on operand values that a format's mask and match cannot say: the
`constraint` column of the opcode table (30_encoding.md R96, R100, R113, R117). -/

namespace Sys2Proof

/-- Every check an instruction's operands must pass. -/
def Instr.wellFormed : Instr → Bool
  | .decodeColorBlocks => true
  | .decodeIntensity8 => true
  | .decodeIntensity4 => true
  | .decompress => true
  | .ctrl _ => true
  | .lit _ => true
  | .ref n _ => n != 0                      -- length code 0 selects `REFX` (R96, R113)
  | .refx _ _ => true
  | .cblkG c1 c2 _ _ _ _ => c2.ult c1       -- gradient mode: raw color1 > color2 (R100)
  | .cblkA c1 c2 _ _ _ _ => c1.ule c2       -- average mode: raw color1 <= color2 (R100)
  | .i8px _ => true
  | .i4pp _ _ => true

/-- A well-formed instruction. -/
abbrev Instr.WellFormed (i : Instr) : Prop := i.wellFormed = true

end Sys2Proof
end

