-- ==== Sys2Proof/Decode.lean ====
section
/-! DEFINITION. The decoder, total on any bytes and rejecting by name, and the encoder, both written from
the layouts of 30_encoding.md; and the reading of an opcode-table word (R117). -/

namespace Sys2Proof

/-- Why the bytes are no instruction in their context. Every stream byte value is legal (R110), so a stream
is rejected only where bytes are missing. -/
inductive Reject where
  /-- `BTD.OP` = 3 selects no operation (R112). -/
  | reservedOperation
  /-- No operation code given. -/
  | missingOpcode
  /-- No control byte left (R192). -/
  | missingControl
  /-- No literal byte left (R196). -/
  | missingLiteral
  /-- Fewer than two token bytes left (R197). -/
  | missingToken
  /-- No extra byte left after a token with length code 0 (R199). -/
  | missingExtra
  /-- Fewer than eight bytes left for a colour block (R100). -/
  | missingBlock
  /-- No intensity byte left (R104). -/
  | missingPixel
  /-- No pixel-pair byte left (R105). -/
  | missingPair
  deriving DecidableEq, Repr

/-- `be16`: the byte at the lower index is the more significant (R66). -/
def be16 (b0 b1 : Byte) : Half := b0 ++ b1

/-- The more significant byte of a 16-bit value. -/
def highByte (h : Half) : Byte := h.extractLsb' 8 8

/-- The less significant byte of a 16-bit value. -/
def lowByte (h : Half) : Byte := h.extractLsb' 0 8

/-- The high nibble of a byte. -/
def highNibble (b : Byte) : BitVec 4 := b.extractLsb' 4 4

/-- The low nibble of a byte. -/
def lowNibble (b : Byte) : BitVec 4 := b.extractLsb' 0 4

/-- The length code `n` = `T[15:12]` of a token (R96). -/
def lengthCode (t : Half) : BitVec 4 := t.extractLsb' 12 4

/-- The distance field `d` = `T[11:0]` of a token (R96, R97). -/
def distanceField (t : Half) : BitVec 12 := t.extractLsb' 0 12

/-- The token with length code `n` and distance field `d` (R96). -/
def tokenOf (n : BitVec 4) (d : BitVec 12) : Half := n ++ d

/-- Format `CMD-BTD`: the operation selected by `OP[1:0]` (R91, R23, R112). -/
def decodeOperation (op : Byte) : Except Reject Instr :=
  match op.extractLsb' 0 2 with
  | 0 => .ok .decodeColorBlocks
  | 1 => .ok .decodeIntensity8
  | 2 => .ok .decodeIntensity4
  | _ => .error .reservedOperation

/-- Formats `LZ-R` and `LZ-X`: the high nibble of the token tells them apart (R97, R99, R113). -/
def decodeReference : List Byte → Except Reject (Instr × List Byte)
  | b0 :: b1 :: rest =>
    let t := be16 b0 b1
    if lengthCode t = 0 then
      match rest with
      | e :: rest' => .ok (.refx (distanceField t) e, rest')
      | [] => .error .missingExtra
    else .ok (.ref (lengthCode t) (distanceField t), rest)
  | _ => .error .missingToken

/-- Format `TX-CB`: the raw unsigned comparison of the two colours tells the mnemonics apart (R100, R145, R268). -/
def decodeBlock : List Byte → Except Reject (Instr × List Byte)
  | a0 :: a1 :: b0 :: b1 :: r0 :: r1 :: r2 :: r3 :: rest =>
    let c1 := be16 a0 a1
    let c2 := be16 b0 b1
    if c2.ult c1 then .ok (.cblkG c1 c2 r0 r1 r2 r3, rest)
    else .ok (.cblkA c1 c2 r0 r1 r2 r3, rest)
  | _ => .error .missingBlock

/-- The instruction at the head of the bytes in a parse context, with the bytes after it (R90, R99). -/
def decode (c : Context) (bytes : List Byte) : Except Reject (Instr × List Byte) :=
  match c, bytes with
  | .commandBtd, op :: rest =>
    match decodeOperation op with
    | .ok i => .ok (i, rest)
    | .error r => .error r
  | .commandBtd, [] => .error .missingOpcode
  | .commandLzd, rest => .ok (.decompress, rest)
  | .control, f :: rest => .ok (.ctrl f, rest)
  | .control, [] => .error .missingControl
  | .literal, b :: rest => .ok (.lit b, rest)
  | .literal, [] => .error .missingLiteral
  | .reference, bs => decodeReference bs
  | .colorBlock, bs => decodeBlock bs
  | .intensity8, v :: rest => .ok (.i8px v, rest)
  | .intensity8, [] => .error .missingPixel
  | .intensity4, b :: rest => .ok (.i4pp (highNibble b) (lowNibble b), rest)
  | .intensity4, [] => .error .missingPair

/-- The bytes of a well-formed instruction: the low byte of `BTD.OP` for a BTD operation (R91), nothing for
`decompress` (R92), the listing bytes of R115 and R116 for a stream element. -/
def encode : Instr → List Byte
  | .decodeColorBlocks => [0x00#8]
  | .decodeIntensity8 => [0x01#8]
  | .decodeIntensity4 => [0x02#8]
  | .decompress => []
  | .ctrl f => [f]
  | .lit b => [b]
  | .ref n d => [highByte (tokenOf n d), lowByte (tokenOf n d)]
  | .refx d e => [highByte (tokenOf 0 d), lowByte (tokenOf 0 d), e]
  | .cblkG c1 c2 r0 r1 r2 r3 => [highByte c1, lowByte c1, highByte c2, lowByte c2, r0, r1, r2, r3]
  | .cblkA c1 c2 r0 r1 r2 r3 => [highByte c1, lowByte c1, highByte c2, lowByte c2, r0, r1, r2, r3]
  | .i8px v => [v]
  | .i4pp hi lo => [hi ++ lo]

/-- The low `n` bytes of `w`, most significant first: how R117 reads an `encoding` string as one number. -/
def bigEndianBytes : (n w : Nat) → List Byte
  | 0, _ => []
  | n + 1, w => BitVec.ofNat 8 (w >>> (8 * n)) :: bigEndianBytes n w

/-- The parse context an opcode-table word is read in. The table numbers a BTD operation by `OP[1:0]` alone,
one whole byte (or the whole 32-bit register); `decompress` has no bits; 16 and 24 bits are back-references,
64 bits a colour block. The one-byte stream rows have the same width as an operation code and no fixed bit:
their context is outside the word (R117 `prefix`), see log entry 15. -/
def tableContext : (nbits : Nat) → Option Context
  | 0 => some .commandLzd
  | 8 => some .commandBtd
  | 16 => some .reference
  | 24 => some .reference
  | 32 => some .commandBtd
  | 64 => some .colorBlock
  | _ => none

/-- The bytes of an opcode-table word as the stream holds them, with the bytes above `nbits` zero: a 16-bit
token is followed by a zero extra byte. For an operation code, the low byte of `BTD.OP`. -/
def tableBytes (nbits w : Nat) : List Byte :=
  match tableContext nbits with
  | some .commandBtd => bigEndianBytes 1 w
  | some .commandLzd => []
  | some .reference => if nbits = 16 then bigEndianBytes 2 w ++ [0] else bigEndianBytes 3 w
  | some .colorBlock => bigEndianBytes 8 w
  | _ => []

/-- The instruction the decoder reads from an opcode-table word (R117). -/
def decodeTableWord (nbits w : Nat) : Option Instr :=
  match tableContext nbits with
  | none => none
  | some c =>
    match decode c (tableBytes nbits w) with
    | .ok (i, _) => some i
    | .error _ => none

end Sys2Proof
end

