-- ==== Sys2Proof/Machine/State.lean ====
section
/-! DEFINITION. The state of the core, as plain data: both engines with every register of 10_state.md and
their buffers, the host's side of the interface, and the agents' order of moves; the reasons a step can stop;
and the state after reset (R46). -/

namespace Sys2Proof.Machine

/-- A buffer's contents: (index, byte) pairs, indices strictly rising (`Memory.wf`). An unlisted index has no
value: nothing has supplied that byte (log entry 8). -/
abbrev Memory := List Host.Cell

/-- `STATUS.STATE` (R27). -/
inductive RunState where
  | idle | busy | done | error
  deriving DecidableEq, Repr

/-- `STATUS.ERR` (R27, R230). -/
inductive ErrCode where
  | none | invalidBufferSize | truncatedSource | invalidBackReference
  deriving DecidableEq, Repr

/-- A `STATUS` register, by its two fields; bits [31:4] are wired to 0 (R27; log entry 20). -/
structure Status where
  state : RunState
  err   : ErrCode
  deriving DecidableEq, Repr

/-- The colour table `CT[0..15]` (R36). -/
abbrev ColorTable := Vector Byte 16

/-- Engine BTD: the descriptor and STATUS of R22, the stream cursor of R30, the working registers of R31 to
R36, the two buffers of R42 with the lengths the host gave them (R25; log entry 26), and the model's counter of
free-value draws (log entry 21). -/
structure Btd where
  op     : BitVec 2      -- `BTD.OP[1:0]`; [31:2] are wired to 0 (R23)
  width  : Word
  height : Word
  srcLen : Word
  dstLen : Word
  status : Status
  sp     : Word
  ty     : BitVec 29
  tx     : BitVec 29
  sb     : BitVec 2
  row    : BitVec 3
  col    : BitVec 3
  c1     : Half
  c2     : Half
  bits   : Byte
  nib    : Byte
  ct     : ColorTable
  src    : Memory
  dst    : Memory
  srcSize : Nat          -- how many bytes the host handed over as `SRC`
  dstSize : Nat          -- how many bytes the host handed over as `DST`
  draws  : Nat
  deriving DecidableEq, Repr

/-- Engine LZD: the descriptor and STATUS of R28, the stream cursor of R30, the working registers of R37 to
R40, the two buffers of R42 with the lengths the host gave them (R25; log entry 26), and the model's counter of
free-value draws (log entry 21). -/
structure Lzd where
  outSize : Word         -- signed (R29)
  srcLen  : Word
  dstLen  : Word
  status  : Status
  sp      : Word
  dp      : Word
  rem     : Word         -- signed (R38)
  ctl     : Byte
  bi      : BitVec 4
  t       : Half
  dist    : BitVec 13
  len     : BitVec 9
  cnt     : BitVec 9
  src     : Memory
  dst     : Memory
  srcSize : Nat          -- how many bytes the host handed over as `SRC`
  dstSize : Nat          -- how many bytes the host handed over as `DST`
  draws   : Nat
  deriving DecidableEq, Repr

/-- The host's moves (R120), and two that R120 does not list: the handing over of a filled and of an unfilled buffer
(DESIGN CHOICE, log entry 22). -/
inductive HostMove where
  /-- Write the register at an index of an engine's block; a START is one of these (R22, R26, R28). -/
  | writeReg (e : Engine) (index : Nat) (value : Word)
  /-- Read the register at an index of an engine's block. -/
  | readReg (e : Engine) (index : Nat)
  /-- Write one byte of a buffer. -/
  | writeByte (e : Engine) (b : Buffer) (a : Word) (v : Byte)
  /-- Read one byte of a buffer. -/
  | readByte (e : Engine) (b : Buffer) (a : Word)
  /-- Hand over a byte sequence as a buffer, index 0 first. DESIGN CHOICE (log entry 22): R45 gives the sequences as
  inputs of START. -/
  | bind (e : Engine) (b : Buffer) (bytes : List Byte)
  /-- Hand over a buffer of a given length that nothing has written yet (R129, R262 (1): `DST` allocated). DESIGN
  CHOICE (log entry 22), as `bind`. -/
  | allocate (e : Engine) (b : Buffer) (size : Nat)
  /-- Reset the core (R260). -/
  | reset
  deriving DecidableEq, Repr

/-- Whose move it is: a move of the host, or one stream element of an engine (log entry 1). -/
inductive Turn where
  | host (m : HostMove)
  | engine (e : Engine)
  deriving DecidableEq, Repr

/-- The whole machine. -/
structure State where
  btd    : Btd
  lzd    : Lzd
  agenda : List Turn     -- the moves to come, first one first (the model's own, log entry 1)
  bus    : Word          -- what the host's last read returned (the model's own, log entry 13)
  btdUnread : Bool       -- the host has started BTD and not yet read DONE or ERROR (R74, R264; log entry 25)
  lzdUnread : Bool       -- the same of LZD
  deriving DecidableEq, Repr

/-- Where a run stops with a fault. None of these is an error of the hardware (those are `ErrCode`); each says
that the machine left what the spec describes, so each is safe. -/
inductive Fault where
  /-- An engine would read `src[a]` with `a >= SRC_LEN`; raised by a BTD turn. R238 says it never happens. Safe. -/
  | srcOutOfBounds
  /-- An engine would write `dst[a]` with `a >= DST_LEN`; raised by the elements that write. R238 says it never
  happens. Safe. -/
  | dstOutOfBounds
  /-- An engine reads a source byte below SRC_LEN that nothing has supplied: the host broke R262 (2). Raised by an
  engine's turn. Safe. -/
  | srcByteUnwritten
  /-- A back-reference reads a destination byte that nothing has written; R41 says it never happens. Raised by
  `REF` and `REFX`. Safe. -/
  | dstByteUnwritten
  /-- The host reads a buffer byte that nothing has written. Raised by a host move. Safe. -/
  | hostReadUnwritten
  /-- The host reads or writes a byte beyond the end of the buffer it handed over (R42, R60). Raised by a host move.
  Safe. -/
  | hostOutOfBounds
  deriving DecidableEq, Repr

/-- Where the spec gives a situation no meaning. Each is safe: a claim says nothing of it. -/
inductive Refusal where
  /-- The instruction has no meaning in this model yet; raised by an arm of `exec`. Safe. -/
  | notModelled (mnemonic : String)
  /-- START with `BTD.OP` = 3 (R112, U8), or a turn of a BUSY engine BTD whose `OP` is 3, which no run reaches.
  Raised by a host move or a BTD turn. Safe. -/
  | reservedOperation
  /-- The host touches a buffer of a BUSY engine (R77, R120, U7). Raised by a host move. Safe. -/
  | bufferBusy
  /-- The host writes `SRC` or touches `DST` after the operation has ended and before it has read DONE or ERROR (R74,
  R264, `L-QUIET` of R133). Raised by a host move. Safe. -/
  | endUnread
  /-- The host writes START with `SRC_LEN` or `DST_LEN` other than the length of the buffer it handed over (`L-LEN` of
  R133). Raised by a host move. Safe. -/
  | lengthsUntrue
  /-- The host hands over a byte sequence that does not fit the 32-bit index space (R60). Raised by a host move.
  Safe. -/
  | bufferTooLong
  deriving DecidableEq, Repr

/-- `STATE` = IDLE, `ERR` = 0: the status after reset (R46). -/
def Status.afterReset : Status := ⟨.idle, .none⟩

/-- Engine BTD after reset: STATUS as R46 gives it; the registers R46 calls unspecified at the value log
entry 3 names (0, DESIGN CHOICE); nothing listed in the buffers. -/
def Btd.reset : Btd where
  op := 0
  width := 0
  height := 0
  srcLen := 0
  dstLen := 0
  status := .afterReset
  sp := 0
  ty := 0
  tx := 0
  sb := 0
  row := 0
  col := 0
  c1 := 0
  c2 := 0
  bits := 0
  nib := 0
  ct := #v[0, 0, 0, 0, 0, 0, 0, 0, 0, 0, 0, 0, 0, 0, 0, 0]
  src := []
  dst := []
  srcSize := 0
  dstSize := 0
  draws := 0

/-- Engine LZD after reset, as `Btd.reset`. -/
def Lzd.reset : Lzd where
  outSize := 0
  srcLen := 0
  dstLen := 0
  status := .afterReset
  sp := 0
  dp := 0
  rem := 0
  ctl := 0
  bi := 0
  t := 0
  dist := 0
  len := 0
  cnt := 0
  src := []
  dst := []
  srcSize := 0
  dstSize := 0
  draws := 0

/-- The machine right after reset (R46, R260, R261): both engines wait for START, nothing is scheduled, no buffer is
handed over, no operation is in flight. -/
def State.reset : State where
  btd := .reset
  lzd := .reset
  agenda := []
  bus := 0
  btdUnread := false
  lzdUnread := false

end Sys2Proof.Machine
end

