-- ==== Sys2Proof/Machine/Operands.lean ====
section
/-! DEFINITION. Operand forms: the distance and length of a back-reference (R98), the fields of a packed
colour (R101) and of an index row (R102), the widening helpers of R10 and R140, and the addresses of pixels
(R64) and of registers and buffer bytes on the platform (R22, R61). -/

namespace Sys2Proof.Machine

/-! ### Back-references (R98) -/

/-- `DIST = T[11:0] + 1`, 1..4096 (R98, R197). -/
def distanceOf (d : BitVec 12) : BitVec 13 := d.zeroExtend 13 + 1

/-- `LEN = T[15:12] + 2` of a `REF`, 3..17 (R98, R198). -/
def shortLength (n : BitVec 4) : BitVec 9 := n.zeroExtend 9 + 2

/-- `LEN = e + 18` of a `REFX`, 18..273 (R98, R199). -/
def extendedLength (e : Byte) : BitVec 9 := e.zeroExtend 9 + 18

/-- The distance and length a back-reference stands for (R98); none for any other instruction. -/
def backReferenceOperands : Instr → Option (Nat × Nat)
  | .ref n d => some ((distanceOf d).toNat, (shortLength n).toNat)
  | .refx d e => some ((distanceOf d).toNat, (extendedLength e).toNat)
  | .decodeColorBlocks => none
  | .decodeIntensity8 => none
  | .decodeIntensity4 => none
  | .decompress => none
  | .ctrl _ => none
  | .lit _ => none
  | .cblkG _ _ _ _ _ _ => none
  | .cblkA _ _ _ _ _ _ => none
  | .i8px _ => none
  | .i4pp _ _ => none

/-! ### Widening by bit replication (R140) -/

/-- `EXP3`, reached by no operation (R140, U16). -/
def exp3 (n : BitVec 3) : Byte := (n.zeroExtend 8 <<< 5) ||| (n.zeroExtend 8 <<< 2) ||| (n.zeroExtend 8 >>> 1)

/-- `EXP4` (R140). -/
def exp4 (n : BitVec 4) : Byte := (n.zeroExtend 8 <<< 4) ||| n.zeroExtend 8

/-- `EXP5` (R140). -/
def exp5 (n : BitVec 5) : Byte := (n.zeroExtend 8 <<< 3) ||| (n.zeroExtend 8 >>> 2)

/-- `EXP6` (R140). -/
def exp6 (n : BitVec 6) : Byte := (n.zeroExtend 8 <<< 2) ||| (n.zeroExtend 8 >>> 4)

/-! ### Packed colours and the colour table (R101, R142 to R147) -/

/-- The red field `c[15:11]` (R101). -/
def redField (c : Half) : BitVec 5 := c.extractLsb' 11 5

/-- The green field `c[10:5]` (R101). -/
def greenField (c : Half) : BitVec 6 := c.extractLsb' 5 6

/-- The blue field `c[4:0]` (R101). -/
def blueField (c : Half) : BitVec 5 := c.extractLsb' 0 5

/-- Three 8-bit channels. -/
structure Rgb where
  r : Byte
  g : Byte
  b : Byte
  deriving DecidableEq, Repr

/-- `UNPACK(c)` (R142). -/
def unpack (c : Half) : Rgb := ⟨exp5 (redField c), exp6 (greenField c), exp5 (blueField c)⟩

/-- `BLEND(a, b) = (3*a + 5*b) >> 3` on integers (R10, R146). -/
def blend (a b : Byte) : Byte := BitVec.ofNat 8 ((3 * a.toNat + 5 * b.toNat) >>> 3)

/-- `AVG(a, b) = (a + b) >> 1` on integers (R10, R147). -/
def average (a b : Byte) : Byte := BitVec.ofNat 8 ((a.toNat + b.toNat) >>> 1)

/-- A channel function applied to red, green and blue. -/
def Rgb.map2 (f : Byte → Byte → Byte) (p q : Rgb) : Rgb := ⟨f p.r q.r, f p.g q.g, f p.b q.b⟩

/-- The table of four RGBA entries; entries 0 to 2 are opaque in both modes (R36, R144, R146, R147). -/
def tableOf (e0 e1 e2 e3 : Rgb) (alpha3 : Byte) : ColorTable :=
  #v[e0.r, e0.g, e0.b, 0xFF#8, e1.r, e1.g, e1.b, 0xFF#8, e2.r, e2.g, e2.b, 0xFF#8, e3.r, e3.g, e3.b, alpha3]

/-- The table in gradient mode: entry 2 is blend(color2, color1), entry 3 blend(color1, color2) (R144, R146). -/
def gradientTable (c1 c2 : Half) : ColorTable :=
  tableOf (unpack c1) (unpack c2) (Rgb.map2 blend (unpack c2) (unpack c1)) (Rgb.map2 blend (unpack c1) (unpack c2)) 0xFF#8

/-- The table in average mode: entries 2 and 3 are the average, entry 3 transparent (R144, R147). -/
def averageTable (c1 c2 : Half) : ColorTable :=
  tableOf (unpack c1) (unpack c2) (Rgb.map2 average (unpack c1) (unpack c2)) (Rgb.map2 average (unpack c1) (unpack c2)) 0x00#8

/-- Byte `CT[4*idx + ch]` (R36, R148). -/
def tableByte (ct : ColorTable) (idx : BitVec 2) (ch : Fin 4) : Byte :=
  ct[4 * idx.toNat + ch.val]'(by have h := idx.isLt; have h' := ch.isLt; omega)

/-- The four bytes of a table entry: red, green, blue, alpha (R36, R65). -/
def tableEntry (ct : ColorTable) (idx : BitVec 2) : List Byte :=
  [tableByte ct idx 0, tableByte ct idx 1, tableByte ct idx 2, tableByte ct idx 3]

/-! ### Index rows (R33, R102, R148) -/

/-- The next index of the shift register: `BITS[7:6]` (R33, R148). -/
def nextIndex (bits : Byte) : BitVec 2 := bits.extractLsb' 6 2

/-- `BITS <- (BITS << 2)[7:0]` (R33, R148). -/
def shiftBits (bits : Byte) : Byte := bits <<< 2

/-- The index of pixel column `k` of a row byte: the one on top after `k` shifts (R102, R148). -/
def indexAt (row : Byte) : (k : Nat) → BitVec 2
  | 0 => nextIndex row
  | k + 1 => indexAt (shiftBits row) k

/-- The shift register once all four indices are used. -/
def drainedBits (row : Byte) : Byte := shiftBits (shiftBits (shiftBits (shiftBits row)))

/-! ### Addresses (R22, R28, R61, R64) -/

/-- `PIX(x, y) = 4 * (y * WIDTH + x)` (R64). -/
def pix (width x y : Nat) : Nat := 4 * (y * width + x)

/-- The bus address of a register: 4 times the index from `REG_BASE_*` (R22, R28). -/
def registerAddress (e : Engine) (index : Nat) : Nat := Config.regBase e + 4 * index

/-- The platform address of buffer byte `a`: `SRC_BASE + a` or `DST_BASE + a` (R61). -/
def bufferAddress (e : Engine) (b : Buffer) (a : Nat) : Nat := Config.bufferBase e b + a

end Sys2Proof.Machine
end

