-- ==== Sys2Proof/Machine/Flags.lean ====
section
/-! DEFINITION. The one-bit conditions that steer execution (R43), the words of the STATUS registers (R27)
and the entry checks of the four host operations (R123 to R126). -/

namespace Sys2Proof.Machine

/-! ### STATUS (R27) -/

/-- The code of `STATUS.STATE` (R27). -/
def RunState.code : RunState → BitVec 2
  | .idle => 0
  | .busy => 1
  | .done => 2
  | .error => 3

/-- The code of `STATUS.ERR` (R27, R230). -/
def ErrCode.code : ErrCode → BitVec 2
  | .none => 0
  | .invalidBufferSize => 1
  | .truncatedSource => 2
  | .invalidBackReference => 3

/-- STATUS as the host reads it: `STATE` in [1:0], `ERR` in [3:2], the rest 0 (R27). -/
def Status.word (st : Status) : Word := (0#28 ++ st.err.code) ++ st.state.code

/-- `STATE` = BUSY. -/
def Status.busy (st : Status) : Bool := st.state = .busy

/-- `STATE` = DONE or ERROR: the end of a run (R131), the point R74 and R264 have the host read. -/
def Status.ended (st : Status) : Bool := st.state = .done || st.state = .error

/-! ### Conditions inside the operations (R43) -/

/-- The next control flag, `CTL[BI-1]`: 1 = literal, 0 = back-reference (R39, R193, R269). -/
def Lzd.flag (l : Lzd) : Bool := l.ctl.getLsbD (l.bi.toNat - 1)

/-- The element due in a running `decompress` (R99, R190, R194). -/
def Lzd.due (l : Lzd) : Context :=
  if l.bi = 0 then .control else if l.flag then .literal else .reference

/-- `T[15:12] = 0`: the token is the first two bytes of a `REFX` (R99, R199). -/
def extendedForm (t : Half) : Bool := lengthCode t = 0

/-- `REM <= 0`, signed: the early exit (R38, R205). -/
def Lzd.exhausted (l : Lzd) : Bool := l.rem.toInt ≤ 0

/-- `GRAD = C1 > C2`, raw and unsigned (R35, R145, R268). -/
def grad (c1 c2 : Half) : Bool := c2.ult c1

/-! ### The operation engine BTD runs (R23, R90) -/

/-- The format the running BTD operation parses; none for the reserved code (R23, R90, R112). -/
def Btd.format (b : Btd) : Option Context :=
  match b.op with
  | 0 => some .colorBlock
  | 1 => some .intensity8
  | 2 => some .intensity4
  | _ => none

/-- Tiles in a row of tiles, `W/8` for all three operations (R103). -/
def Btd.tilesPerRow (b : Btd) : Nat := b.width.toNat / 8

/-- The height of a tile in pixels: 4 for `decodeIntensity8`, else 8 (R103). -/
def tileHeight : Context → Nat
  | .intensity8 => 4
  | _ => 8

/-! ### The launch premise `L-LEN` (R133) -/

/-- `SRC_LEN` and `DST_LEN` of engine BTD are the lengths of the buffers handed over (R25, R133; log entry 26). -/
def Btd.lengthsTrue (b : Btd) : Bool := b.srcLen.toNat = b.srcSize && b.dstLen.toNat = b.dstSize

/-- `SRC_LEN` and `DST_LEN` of engine LZD are the lengths of the buffers handed over (R29, R133; log entry 26). -/
def Lzd.lengthsTrue (l : Lzd) : Bool := l.srcLen.toNat = l.srcSize && l.dstLen.toNat = l.dstSize

/-! ### Entry checks (R123 to R126), on integers: no product wraps (R7) -/

/-- The entry check of `decodeColorBlocks` passes (R123). -/
def colorBlocksSizesOk (w h srcLen dstLen : Nat) : Bool :=
  w % 8 = 0 && h % 8 = 0 && srcLen = (w / 8) * (h / 8) * 32 && dstLen = w * h * 4

/-- The entry check of `decodeIntensity8` passes (R124). -/
def intensity8SizesOk (w h srcLen dstLen : Nat) : Bool :=
  w % 8 = 0 && h % 4 = 0 && srcLen = w * h && dstLen = w * h * 4

/-- The entry check of `decodeIntensity4` passes (R125). -/
def intensity4SizesOk (w h srcLen dstLen : Nat) : Bool :=
  w % 8 = 0 && h % 8 = 0 && srcLen = w * h / 2 && dstLen = w * h * 4

/-- The entry check of `decompress` passes (R126); `SRC_LEN` is not checked. -/
def decompressSizesOk (outSize : Int) (dstLen : Nat) : Bool :=
  0 ≤ outSize && (dstLen : Int) = outSize

end Sys2Proof.Machine
end

