-- ==== Sys2Proof/Machine/Ops.lean ====
section
/-! DEFINITION. The named operations over memory and registers: reading and writing a buffer (20_memory.md),
the START values of the working registers (R46), completion (R128), raising an error (R236, R237), the free
values of unspecified state, and the host's register accesses (R22, R28, R48). -/

namespace Sys2Proof.Machine

/-- One outcome after another: a fault or a refusal ends the sequence. -/
def andThen {σ τ : Type} (o : Host.Outcome σ Fault Refusal) (f : σ → Host.Outcome τ Fault Refusal) :
    Host.Outcome τ Fault Refusal :=
  match o with
  | .next s => f s
  | .fault r => .fault r
  | .refused r => .refused r

/-- An outcome of engine BTD as an outcome of the machine: nothing else changes (R20). -/
def onBtd (s : State) (o : Host.Outcome Btd Fault Refusal) : Host.Outcome State Fault Refusal :=
  andThen o fun b => .next { s with btd := b }

/-- An outcome of engine LZD as an outcome of the machine: nothing else changes (R20). -/
def onLzd (s : State) (o : Host.Outcome Lzd Fault Refusal) : Host.Outcome State Fault Refusal :=
  andThen o fun l => .next { s with lzd := l }

/-! ### Buffers (R60, R61, R69) -/

/-- The byte at index `a`; none if nothing has supplied it (log entry 8). -/
def Memory.read : Memory → (a : Nat) → Option Byte
  | [], _ => none
  | (a', b) :: m, a => if a = a' then some b else Memory.read m a

/-- Write the byte at index `a`, keeping the indices strictly rising. -/
def Memory.write : Memory → (a : Nat) → Byte → Memory
  | [], a, b => [(a, b)]
  | (a', b') :: m, a, b =>
    if a < a' then (a, b) :: (a', b') :: m
    else if a = a' then (a, b) :: m
    else (a', b') :: Memory.write m a b

/-- Write cells in order, one byte at a time (R69). -/
def Memory.writeAll (m : Memory) (cells : List Host.Cell) : Memory :=
  cells.foldl (fun m c => m.write c.1 c.2) m

/-- A byte sequence as cells from index `a` on. -/
def cellsFrom : (a : Nat) → List Byte → List Host.Cell
  | _, [] => []
  | a, b :: bs => (a, b) :: cellsFrom (a + 1) bs

/-- The canonical form: indices strictly rising from `lo` on, and inside the 32-bit index space (R61). -/
def Memory.wfFrom : (lo : Nat) → Memory → Bool
  | _, [] => true
  | lo, (a, _) :: m => lo ≤ a && a < 2 ^ 32 && Memory.wfFrom (a + 1) m

/-- The canonical form of a buffer's contents. -/
def Memory.wf (m : Memory) : Bool := m.wfFrom 0

/-- The free bytes at indices `a` to `a + n - 1`. -/
def freeCells (e : Engine) (draw : Nat) : (a n : Nat) → List Host.Cell
  | _, 0 => []
  | a, n + 1 => (a, Config.freeByte e draw a) :: freeCells e draw (a + 1) n

/-- A destination whose bytes below `len` are unspecified (R237, R47; log entries 4 and 6). -/
def Memory.forget (m : Memory) (e : Engine) (draw len : Nat) : Memory :=
  freeCells e draw 0 len ++ m.filter fun c => len ≤ c.1

/-- Source bytes `src[a]`, `src[a+1]`, …, at most `n` of them and none at or beyond `len`: a read is checked
before it is made (R238). A byte that nothing has supplied is a fault (log entry 8). -/
def readSource (m : Memory) (len : Nat) : (n a : Nat) → Except Fault (List Byte)
  | 0, _ => .ok []
  | n + 1, a =>
    if len ≤ a then .ok []
    else
      match m.read a with
      | none => .error .srcByteUnwritten
      | some b =>
        match readSource m len n (a + 1) with
        | .ok bs => .ok (b :: bs)
        | .error f => .error f

/-! ### Completion and errors (R128, R236, R237) -/

/-- STATUS after `done` (R128). -/
def Status.completed : Status := ⟨.done, .none⟩

/-- STATUS after `raise E(code)` (R236). -/
def Status.raised (code : ErrCode) : Status := ⟨.error, code⟩

/-- STATUS at START (R46, R121, R122). -/
def Status.started : Status := ⟨.busy, .none⟩

/-- `done` on engine BTD (R128). -/
def Btd.complete (b : Btd) : Btd := { b with status := .completed }

/-- `done` on engine LZD (R128). -/
def Lzd.complete (l : Lzd) : Lzd := { l with status := .completed }

/-- TAKING AN ERROR on engine BTD: `raise E(code)` (R236). Its one error is raised at entry and leaves `DST`
unchanged (R231, R237). -/
def Btd.raise (code : ErrCode) (b : Btd) : Btd := { b with status := .raised code }

/-- The destination after an error of engine LZD: unchanged after an entry error, every byte below `DST_LEN`
unspecified after an error inside the stream (R237; log entry 6). -/
def Lzd.dstAfterError (code : ErrCode) (l : Lzd) : Memory :=
  match code with
  | .none => l.dst
  | .invalidBufferSize => l.dst
  | .truncatedSource => l.dst.forget .lzd l.draws l.dstLen.toNat
  | .invalidBackReference => l.dst.forget .lzd l.draws l.dstLen.toNat

/-- TAKING AN ERROR on engine LZD: `raise E(code)` (R236, R237). There is no handler and no return: the next
accepted START (`Lzd.start`) or a reset clears the error (R241). -/
def Lzd.raise (code : ErrCode) (l : Lzd) : Lzd :=
  { l with status := .raised code, dst := l.dstAfterError code, draws := l.draws + 1 }

/-! ### START values (R46) -/

/-- A colour table of free bytes. -/
def freeTable (draw : Nat) : ColorTable :=
  let f := Config.freeBits .btd 8 draw
  #v[f 4, f 5, f 6, f 7, f 8, f 9, f 10, f 11, f 12, f 13, f 14, f 15, f 16, f 17, f 18, f 19]

/-- Engine BTD at START: STATUS is BUSY without error, the position registers are 0, the registers R46 calls
unspecified are free values (log entry 5), the descriptor and the buffers are untouched. -/
def Btd.start (b : Btd) : Btd :=
  { b with
    status := .started
    sp := 0
    ty := 0
    tx := 0
    sb := 0
    row := 0
    col := 0
    c1 := Config.freeBits .btd 16 b.draws 0
    c2 := Config.freeBits .btd 16 b.draws 1
    bits := Config.freeBits .btd 8 b.draws 2
    nib := Config.freeBits .btd 8 b.draws 3
    ct := freeTable b.draws
    draws := b.draws + 1 }

/-- Engine LZD at START: STATUS is BUSY without error, `SP`, `DP`, `BI` are 0, `REM` is `OUTSIZE`, the
registers R46 calls unspecified are free values (log entry 5), the descriptor and the buffers are untouched. -/
def Lzd.start (l : Lzd) : Lzd :=
  { l with
    status := .started
    sp := 0
    dp := 0
    rem := l.outSize
    bi := 0
    ctl := Config.freeBits .lzd 8 l.draws 0
    t := Config.freeBits .lzd 16 l.draws 1
    dist := Config.freeBits .lzd 13 l.draws 2
    len := Config.freeBits .lzd 9 l.draws 3
    cnt := Config.freeBits .lzd 9 l.draws 4
    draws := l.draws + 1 }

/-! ### Engine BTD: storing pixels and moving on (R64, R65, R149 to R151, R172, R175) -/

/-- The cells of one pixel: four bytes in the order red, green, blue, alpha (R64, R65). -/
def pixelCells (width x y : Nat) (rgba : List Byte) : List Host.Cell := cellsFrom (pix width x y) rgba

/-- Write cells to `DST`, all of them below `DST_LEN` (R25, R238). That `DST_LEN` is the length of the `DST` handed over
is premise `L-LEN` of R133: DESIGN CHOICE (log entry 26), it is checked where START is written, not here. -/
def Btd.store (cells : List Host.Cell) (b : Btd) : Host.Outcome Btd Fault Refusal :=
  if cells.all (fun c => c.1 < b.dstLen.toNat) then .next { b with dst := b.dst.writeAll cells }
  else .fault .dstOutOfBounds

/-- `SP <- SP + n` (R153, R154, R171, R174). -/
def Btd.advance (n : Word) (b : Btd) : Btd := { b with sp := b.sp + n }

/-- To the next tile, row-major across the image (R150, R170, R175). -/
def Btd.nextTile (b : Btd) : Btd :=
  if b.tx.toNat + 1 < b.tilesPerRow then { b with tx := b.tx + 1 }
  else { b with tx := 0, ty := b.ty + 1 }

/-- `done` once every row of tiles is decoded (R152, R170, R173). -/
def Btd.finishTiles (tileH : Nat) (b : Btd) : Btd :=
  if b.height.toNat / tileH ≤ b.ty.toNat then b.complete else b

/-! ### Engine LZD: the moves of the small steps (R190, R196, R197, R200, R205) -/

/-- `SP <- SP + 1` (R192, R196). -/
def Lzd.readByte (l : Lzd) : Lzd := { l with sp := l.sp + 1 }

/-- `CTL <- v ; BI <- 8` (R192). -/
def Lzd.loadFlags (v : Byte) (l : Lzd) : Lzd := { l with ctl := v, bi := 8 }

/-- `BI <- BI - 1`: the next flag is used (R190). -/
def Lzd.takeFlag (l : Lzd) : Lzd := { l with bi := l.bi - 1 }

/-- `done` if `REM <= 0`, tested after each `LIT`, `REF` and `REFX` (R205). -/
def Lzd.exitEarly (l : Lzd) : Lzd := if l.exhausted then l.complete else l

/-- `dst[DP] <- v ; DP <- DP + 1 ; REM <- REM - 1` (R37, R38, R196, R200). `L-LEN` of R133 is checked where START is
written, as for `Btd.store` (log entry 26). -/
def Lzd.put (v : Byte) (l : Lzd) : Host.Outcome Lzd Fault Refusal :=
  if l.dp.toNat < l.dstLen.toNat then
    .next { l with dst := l.dst.write l.dp.toNat v, dp := l.dp + 1, rem := l.rem - 1 }
  else .fault .dstOutOfBounds

/-- `T <- be16(src, SP) ; SP <- SP + 2 ; DIST <- (T & 0x0FFF) + 1` (R197). -/
def Lzd.loadToken (t : Half) (l : Lzd) : Lzd :=
  { l with t := t, sp := l.sp + 2, dist := distanceOf (distanceField t) }

/-- `LEN <- v` (R198). -/
def Lzd.loadLength (v : BitVec 9) (l : Lzd) : Lzd := { l with len := v }

/-- `LEN <- src[SP] + 18 ; SP <- SP + 1`, the extra byte being `e` (R199). -/
def Lzd.loadExtra (e : Byte) (l : Lzd) : Lzd := { l with len := extendedLength e, sp := l.sp + 1 }

/-- `CNT <- CNT - 1` (R200). -/
def Lzd.countDown (l : Lzd) : Lzd := { l with cnt := l.cnt - 1 }

/-- The byte loop of a copy: each byte is read after the one before it was written (R73, R200, R263). -/
def Lzd.copyBytes : (n : Nat) → Lzd → Host.Outcome Lzd Fault Refusal
  | 0, l => .next l
  | n + 1, l =>
    match l.dst.read (l.dp.toNat - l.dist.toNat) with
    | none => .fault .dstByteUnwritten
    | some v => andThen (l.put v) fun l' => l'.countDown.copyBytes n

/-- `CNT <- v` (R200). -/
def Lzd.loadCount (v : Nat) (l : Lzd) : Lzd := { l with cnt := BitVec.ofNat 9 v }

/-- `min(LEN, REM)`, `REM` signed (R200, R204). -/
def Lzd.copyCount (l : Lzd) : Nat := (min (l.len.toNat : Int) l.rem.toInt).toNat

/-- The distance check and the copy, common to `REF` and `REFX`, and the early exit after them (R198 to R205). -/
def Lzd.backReference (l : Lzd) : Host.Outcome Lzd Fault Refusal :=
  if l.dp.toNat < l.dist.toNat then .next (l.raise .invalidBackReference)
  else
    andThen ((l.loadCount l.copyCount).copyBytes l.copyCount) fun l' =>
      .next l'.exitEarly

/-! ### The host's accesses (R22, R28, R48, R120) -/

/-- Write a descriptor register of engine BTD: dropped while BUSY; START, STATUS and the indices that are not
implemented hold nothing to write (R22, R23, R48). -/
def Btd.writeDescriptor (index : Nat) (v : Word) (b : Btd) : Btd :=
  if b.status.busy then b
  else
    match index with
    | 0 => { b with op := v.extractLsb' 0 2 }
    | 1 => { b with width := v }
    | 2 => { b with height := v }
    | 3 => { b with srcLen := v }
    | 4 => { b with dstLen := v }
    | _ => b

/-- Write a descriptor register of engine LZD, as `Btd.writeDescriptor` (R28, R48). -/
def Lzd.writeDescriptor (index : Nat) (v : Word) (l : Lzd) : Lzd :=
  if l.status.busy then l
  else
    match index with
    | 0 => { l with outSize := v }
    | 1 => { l with srcLen := v }
    | 2 => { l with dstLen := v }
    | _ => l

/-- Read a register of engine BTD: START and the indices that are not implemented read 0 (R22, R23, R27). -/
def Btd.readRegister (index : Nat) (b : Btd) : Word :=
  match index with
  | 0 => b.op.zeroExtend 32
  | 1 => b.width
  | 2 => b.height
  | 3 => b.srcLen
  | 4 => b.dstLen
  | 6 => b.status.word
  | _ => 0

/-- Read a register of engine LZD, as `Btd.readRegister` (R28, R27). -/
def Lzd.readRegister (index : Nat) (l : Lzd) : Word :=
  match index with
  | 0 => l.outSize
  | 1 => l.srcLen
  | 2 => l.dstLen
  | 4 => l.status.word
  | _ => 0

/-- The engine is BUSY. -/
def State.engineBusy (s : State) : Engine → Bool
  | .btd => s.btd.status.busy
  | .lzd => s.lzd.status.busy

/-- The STATUS of an engine. -/
def State.engineStatus (s : State) : Engine → Status
  | .btd => s.btd.status
  | .lzd => s.lzd.status

/-- The host has started an operation of the engine and not yet read its end (R74, R264; log entry 25). -/
def State.endUnread (s : State) : Engine → Bool
  | .btd => s.btdUnread
  | .lzd => s.lzdUnread

/-- Note that an operation of the engine is in flight for the host, or no longer is. -/
def State.setUnread (s : State) (unread : Bool) : Engine → State
  | .btd => { s with btdUnread := unread }
  | .lzd => { s with lzdUnread := unread }

/-- The register index of STATUS (R22, R28). -/
def statusIndex : Engine → Nat
  | .btd => 6
  | .lzd => 4

/-- What a register read tells the host: a STATUS read that shows DONE or ERROR gives the buffers back (R74, R264; log
entry 25). -/
def State.observe (e : Engine) (index : Nat) (s : State) : State :=
  if index = statusIndex e ∧ (s.engineStatus e).ended = true then s.setUnread false e else s

/-- Why the host may not make an access to a buffer: both buffers while BUSY (R77, R120; log entry 9), and, until the
host has read the end of the operation, a write of `SRC` and any access to `DST` (R74, R264; log entry 25). -/
def State.barred (s : State) (e : Engine) (b : Buffer) (writes : Bool) : Option Refusal :=
  if s.engineBusy e then some .bufferBusy
  else if s.endUnread e && (writes || b = .dst) then some .endUnread
  else none

/-- A buffer's contents. -/
def State.buffer (s : State) : Engine → Buffer → Memory
  | .btd, .src => s.btd.src
  | .btd, .dst => s.btd.dst
  | .lzd, .src => s.lzd.src
  | .lzd, .dst => s.lzd.dst

/-- Replace a buffer's contents. -/
def State.setBuffer (s : State) (m : Memory) : Engine → Buffer → State
  | .btd, .src => { s with btd := { s.btd with src := m } }
  | .btd, .dst => { s with btd := { s.btd with dst := m } }
  | .lzd, .src => { s with lzd := { s.lzd with src := m } }
  | .lzd, .dst => { s with lzd := { s.lzd with dst := m } }

/-- The length of a buffer as the host handed it over (R25, R42). -/
def State.bufferSize (s : State) : Engine → Buffer → Nat
  | .btd, .src => s.btd.srcSize
  | .btd, .dst => s.btd.dstSize
  | .lzd, .src => s.lzd.srcSize
  | .lzd, .dst => s.lzd.dstSize

/-- Replace a buffer, contents and length. -/
def State.handOver (s : State) (m : Memory) (size : Nat) : Engine → Buffer → State
  | .btd, .src => { s with btd := { s.btd with src := m, srcSize := size } }
  | .btd, .dst => { s with btd := { s.btd with dst := m, dstSize := size } }
  | .lzd, .src => { s with lzd := { s.lzd with src := m, srcSize := size } }
  | .lzd, .dst => { s with lzd := { s.lzd with dst := m, dstSize := size } }

/-! ### Reset (R46, R47, R260) -/

/-- Engine BTD after a reset: IDLE without error, every other register unspecified (free values, log entry 4),
`SRC` untouched, `DST` unspecified if an operation was running or its end was unread (R46, R47, R74). -/
def Btd.resetMove (unread : Bool) (b : Btd) : Btd :=
  let f := Config.freeBits .btd
  { op := f 2 b.draws 20
    width := f 32 b.draws 21
    height := f 32 b.draws 22
    srcLen := f 32 b.draws 23
    dstLen := f 32 b.draws 24
    status := .afterReset
    sp := f 32 b.draws 25
    ty := f 29 b.draws 26
    tx := f 29 b.draws 27
    sb := f 2 b.draws 28
    row := f 3 b.draws 29
    col := f 3 b.draws 30
    c1 := f 16 b.draws 0
    c2 := f 16 b.draws 1
    bits := f 8 b.draws 2
    nib := f 8 b.draws 3
    ct := freeTable b.draws
    src := b.src
    dst := if b.status.busy || unread then b.dst.forget .btd b.draws b.dstSize else b.dst
    srcSize := b.srcSize
    dstSize := b.dstSize
    draws := b.draws + 1 }

/-- Engine LZD after a reset, as `Btd.resetMove` (R46, R47, R74). -/
def Lzd.resetMove (unread : Bool) (l : Lzd) : Lzd :=
  let f := Config.freeBits .lzd
  { outSize := f 32 l.draws 20
    srcLen := f 32 l.draws 21
    dstLen := f 32 l.draws 22
    status := .afterReset
    sp := f 32 l.draws 23
    dp := f 32 l.draws 24
    rem := f 32 l.draws 25
    ctl := f 8 l.draws 0
    bi := f 4 l.draws 26
    t := f 16 l.draws 1
    dist := f 13 l.draws 2
    len := f 9 l.draws 3
    cnt := f 9 l.draws 4
    src := l.src
    dst := if l.status.busy || unread then l.dst.forget .lzd l.draws l.dstSize else l.dst
    srcSize := l.srcSize
    dstSize := l.dstSize
    draws := l.draws + 1 }

end Sys2Proof.Machine
end

