-- ==== Sys2Proof/Machine/ColorBlock.lean ====
section
/-! DEFINITION. The colour-block elements `CBLK.G` and `CBLK.A` (41_color_block.md R148 to R154). -/

namespace Sys2Proof.Machine

/-- The cells of one row of a block: the pixels at columns `x` to `x + 3` of image row `y` (R148, R149). -/
def rowCells (width x y : Nat) (ct : ColorTable) (row : Byte) : List Host.Cell :=
  pixelCells width x y (tableEntry ct (indexAt row 0)) ++
  pixelCells width (x + 1) y (tableEntry ct (indexAt row 1)) ++
  pixelCells width (x + 2) y (tableEntry ct (indexAt row 2)) ++
  pixelCells width (x + 3) y (tableEntry ct (indexAt row 3))

/-- The cells of a block whose top-left pixel is (`x`, `y`), row by row (R148, R149). -/
def blockCells (width x y : Nat) (ct : ColorTable) (r0 r1 r2 r3 : Byte) : List Host.Cell :=
  rowCells width x y ct r0 ++ rowCells width x (y + 1) ct r1 ++
  rowCells width x (y + 2) ct r2 ++ rowCells width x (y + 3) ct r3

/-- The left column of the current block: `8*TX + 4*SB[0]` (R106, R149). -/
def Btd.blockX (b : Btd) : Nat := 8 * b.tx.toNat + 4 * (b.sb.getLsbD 0).toNat

/-- The top row of the current block: `8*TY + 4*SB[1]` (R106, R149). -/
def Btd.blockY (b : Btd) : Nat := 8 * b.ty.toNat + 4 * (b.sb.getLsbD 1).toNat

/-- Back to sub-block 0 (R151). -/
def Btd.firstBlock (b : Btd) : Btd := { b with sb := 0 }

/-- To the next sub-block: top-left, top-right, bottom-left, bottom-right, then the next macro-tile (R150, R151). -/
def Btd.nextBlock (b : Btd) : Btd :=
  if b.sb = 3 then b.firstBlock.nextTile else { b with sb := b.sb + 1 }

/-- `C1`, `C2`, `CT` and `BITS` as the block leaves them (R32, R33, R36, R148). -/
def Btd.loadColors (ct : ColorTable) (c1 c2 : Half) (r3 : Byte) (b : Btd) : Btd :=
  { b with c1 := c1, c2 := c2, ct := ct, bits := drainedBits r3 }

/-- A colour block with its table: load the colours, build the table, write the sixteen pixels, move on (R153,
R154). -/
def Btd.block (ct : ColorTable) (c1 c2 : Half) (r0 r1 r2 r3 : Byte) (b : Btd) : Host.Outcome Btd Fault Refusal :=
  andThen (b.store (blockCells b.width.toNat b.blockX b.blockY ct r0 r1 r2 r3)) fun b' =>
    .next (((b'.loadColors ct c1 c2 r3).advance 8).nextBlock.finishTiles (tileHeight .colorBlock))

/-- `CBLK.G`: gradient mode (R153). -/
def execCblkG (c1 c2 : Half) (r0 r1 r2 r3 : Byte) (s : State) : Host.Outcome State Fault Refusal :=
  onBtd s (s.btd.block (gradientTable c1 c2) c1 c2 r0 r1 r2 r3)

/-- `CBLK.A`: average mode (R154). -/
def execCblkA (c1 c2 : Half) (r0 r1 r2 r3 : Byte) (s : State) : Host.Outcome State Fault Refusal :=
  onBtd s (s.btd.block (averageTable c1 c2) c1 c2 r0 r1 r2 r3)

end Sys2Proof.Machine
end

