-- ==== Sys2Proof/Machine/HostOperations.lean ====
section
/-! DEFINITION. The four host operations (40_host_operations.md R121 to R128): what an accepted START does
before the first stream element. The elements of the body follow as steps of their own (R130; log entry 2). -/

namespace Sys2Proof.Machine

/-- A START of engine BTD: ignored while BUSY; else STATUS and the working registers take their START values,
the entry check runs and raises, an image of no tile is done at once, and otherwise the body begins (R26, R121,
R127). -/
def Btd.operation (sizesOk : Nat → Nat → Nat → Nat → Bool) (tileH : Nat) (b : Btd) : Btd :=
  if b.status.busy then b
  else if !sizesOk b.width.toNat b.height.toNat b.srcLen.toNat b.dstLen.toNat then
    b.start.raise .invalidBufferSize
  else if b.width.toNat / 8 = 0 ∨ b.height.toNat / tileH = 0 then b.start.complete
  else b.start

/-- A START of engine LZD: ignored while BUSY; else STATUS and the working registers take their START values,
the entry check runs and raises, and an output size of 0 is done before any source byte is read (R26, R122,
R126, R190, R207). -/
def Lzd.operation (l : Lzd) : Lzd :=
  if l.status.busy then l
  else if !decompressSizesOk l.outSize.toInt l.dstLen.toNat then l.start.raise .invalidBufferSize
  else l.start.exitEarly

/-- `decodeColorBlocks` (R123, R152). -/
def execDecodeColorBlocks (s : State) : Host.Outcome State Fault Refusal :=
  onBtd s (.next (s.btd.operation colorBlocksSizesOk (tileHeight .colorBlock)))

/-- `decodeIntensity8` (R124, R170). -/
def execDecodeIntensity8 (s : State) : Host.Outcome State Fault Refusal :=
  onBtd s (.next (s.btd.operation intensity8SizesOk (tileHeight .intensity8)))

/-- `decodeIntensity4` (R125, R173). -/
def execDecodeIntensity4 (s : State) : Host.Outcome State Fault Refusal :=
  onBtd s (.next (s.btd.operation intensity4SizesOk (tileHeight .intensity4)))

/-- `decompress` (R126, R190). -/
def execDecompress (s : State) : Host.Outcome State Fault Refusal :=
  onLzd s (.next s.lzd.operation)

end Sys2Proof.Machine
end

