-- ==== Sys2Proof/Machine/Intensity.lean ====
section
/-! DEFINITION. The intensity elements `I8PX` and `I4PP` (42_intensity.md R170 to R176). -/

namespace Sys2Proof.Machine

/-- The cells of a pixel whose four channels are all `v` (R171, R174, R176). -/
def grayCells (width x y : Nat) (v : Byte) : List Host.Cell := pixelCells width x y [v, v, v, v]

/-- The column of the current pixel: `8*TX + COL` (R171, R174). -/
def Btd.pixelX (b : Btd) : Nat := 8 * b.tx.toNat + b.col.toNat

/-- The row of the current pixel, the tile being `tileH` tall: `4*TY + ROW` or `8*TY + ROW` (R171, R174). -/
def Btd.pixelY (tileH : Nat) (b : Btd) : Nat := tileH * b.ty.toNat + b.row.toNat

/-- Back to the first pixel of a tile (R172, R175). -/
def Btd.firstPixel (b : Btd) : Btd := { b with col := 0, row := 0 }

/-- To the next row of the tile, then to the next tile (R172, R175). -/
def Btd.nextRow (tileH : Nat) (b : Btd) : Btd :=
  if b.row.toNat + 1 < tileH then { b with col := 0, row := b.row + 1 }
  else b.firstPixel.nextTile

/-- `stride` columns to the right, then to the next row of the tile (R170, R173). -/
def Btd.nextPixel (stride tileH : Nat) (b : Btd) : Btd :=
  if b.col.toNat + stride < 8 then { b with col := b.col + BitVec.ofNat 3 stride } else b.nextRow tileH

/-- The cells `I8PX` writes (R171). -/
def Btd.i8Cells (v : Byte) (b : Btd) : List Host.Cell := grayCells b.width.toNat b.pixelX (b.pixelY 4) v

/-- The cells `I4PP` writes: the high nibble's pixel, then the low nibble's to its right (R174). -/
def Btd.i4Cells (hi lo : BitVec 4) (b : Btd) : List Host.Cell :=
  grayCells b.width.toNat b.pixelX (b.pixelY 8) (exp4 hi) ++
  grayCells b.width.toNat (b.pixelX + 1) (b.pixelY 8) (exp4 lo)

/-- `NIB <- v` (R34, R174). -/
def Btd.loadPair (v : Byte) (b : Btd) : Btd := { b with nib := v }

/-- `I8PX` (R171). -/
def execI8px (v : Byte) (s : State) : Host.Outcome State Fault Refusal :=
  onBtd s (andThen (s.btd.store (s.btd.i8Cells v)) fun b =>
    .next (((b.advance 1).nextPixel 1 (tileHeight .intensity8)).finishTiles (tileHeight .intensity8)))

/-- `I4PP`: the cursor moves once, after both nibbles (R174, R266). -/
def execI4pp (hi lo : BitVec 4) (s : State) : Host.Outcome State Fault Refusal :=
  onBtd s (andThen (s.btd.store (s.btd.i4Cells hi lo)) fun b =>
    .next ((((b.loadPair (hi ++ lo)).advance 1).nextPixel 2 (tileHeight .intensity4)).finishTiles
      (tileHeight .intensity4)))

end Sys2Proof.Machine
end

