-- ==== Sys2Proof/Machine/LzStream.lean ====
section
/-! DEFINITION. The LZ stream elements `CTRL`, `LIT`, `REF` and `REFX` (43_lz_stream.md R190 to R208). The
use of a flag and the early exit, which R190 puts around the element, are part of its meaning (log entry 18). -/

namespace Sys2Proof.Machine

/-- `CTRL` (R192). -/
def execCtrl (flags : Byte) (s : State) : Host.Outcome State Fault Refusal :=
  onLzd s (.next (
    if s.lzd.srcLen.toNat ≤ s.lzd.sp.toNat then s.lzd.raise .truncatedSource
    else s.lzd.readByte.loadFlags flags))

/-- `LIT` on engine LZD, the flag already used (R196, R205). -/
def Lzd.literal (b : Byte) (l : Lzd) : Host.Outcome Lzd Fault Refusal :=
  if l.srcLen.toNat ≤ l.sp.toNat then .next (l.raise .truncatedSource)
  else andThen (l.readByte.put b) fun l' => .next l'.exitEarly

/-- `LIT` (R196). -/
def execLit (b : Byte) (s : State) : Host.Outcome State Fault Refusal :=
  onLzd s (s.lzd.takeFlag.literal b)

/-- `REF` on engine LZD, the flag already used (R197, R198, R203). -/
def Lzd.shortReference (n : BitVec 4) (d : BitVec 12) (l : Lzd) : Host.Outcome Lzd Fault Refusal :=
  if l.srcLen.toNat ≤ l.sp.toNat + 1 then .next (l.raise .truncatedSource)
  else ((l.loadToken (tokenOf n d)).loadLength (shortLength n)).backReference

/-- `REF` (R198). -/
def execRef (n : BitVec 4) (d : BitVec 12) (s : State) : Host.Outcome State Fault Refusal :=
  onLzd s (s.lzd.takeFlag.shortReference n d)

/-- `REFX` on engine LZD, the flag already used: token bytes, extra byte, distance, copy, in that order (R197,
R199, R203). -/
def Lzd.extendedReference (d : BitVec 12) (e : Byte) (l : Lzd) : Host.Outcome Lzd Fault Refusal :=
  if l.srcLen.toNat ≤ l.sp.toNat + 1 then .next (l.raise .truncatedSource)
  else
    if l.srcLen.toNat ≤ (l.loadToken (tokenOf 0 d)).sp.toNat then
      .next ((l.loadToken (tokenOf 0 d)).raise .truncatedSource)
    else ((l.loadToken (tokenOf 0 d)).loadExtra e).backReference

/-- `REFX` (R199). -/
def execRefx (d : BitVec 12) (e : Byte) (s : State) : Host.Outcome State Fault Refusal :=
  onLzd s (s.lzd.takeFlag.extendedReference d e)

end Sys2Proof.Machine
end

