-- ==== Sys2Proof/Machine/Dispatch.lean ====
section
/-! DEFINITION. From an instruction to its meaning: one arm for each row of the opcode table. -/

namespace Sys2Proof.Machine

def exec (i : Instr) (s : State) : Host.Outcome State Fault Refusal :=
  match i with
  -- host operations (40_host_operations.md)
  | .decodeColorBlocks => Sys2Proof.Machine.execDecodeColorBlocks s
  | .decodeIntensity8 => Sys2Proof.Machine.execDecodeIntensity8 s
  | .decodeIntensity4 => Sys2Proof.Machine.execDecodeIntensity4 s
  | .decompress => Sys2Proof.Machine.execDecompress s
  -- LZ stream elements (43_lz_stream.md)
  | .ctrl flags => Sys2Proof.Machine.execCtrl flags s
  | .lit b => Sys2Proof.Machine.execLit b s
  | .ref n d => Sys2Proof.Machine.execRef n d s
  | .refx d e => Sys2Proof.Machine.execRefx d e s
  -- colour blocks (41_color_block.md)
  | .cblkG c1 c2 r0 r1 r2 r3 => Sys2Proof.Machine.execCblkG c1 c2 r0 r1 r2 r3 s
  | .cblkA c1 c2 r0 r1 r2 r3 => Sys2Proof.Machine.execCblkA c1 c2 r0 r1 r2 r3 s
  -- intensity pixels (42_intensity.md)
  | .i8px v => Sys2Proof.Machine.execI8px v s
  | .i4pp hi lo => Sys2Proof.Machine.execI4pp hi lo s

end Sys2Proof.Machine
end

