-- ==== Sys2Proof/Machine/Turns.lean ====
section
/-! DEFINITION. The moves of the three agents: fetching, decoding and running the element due on an engine
(R30, R99, R152, R170, R173, R190), and the host's moves (R120). -/

namespace Sys2Proof.Machine

/-! ### Engine BTD -/

/-- How many source bytes an element of a BTD operation takes (R30, R90). -/
def formatLength : Context → Nat
  | .colorBlock => 8
  | _ => 1

/-- One turn of engine BTD: nothing unless BUSY (R261); else the element at `SP` in the running operation's
format. The entry check makes a missing byte impossible (R231), so it is a fault. -/
def btdTurn (s : State) : Host.Outcome State Fault Refusal :=
  if !s.btd.status.busy then .next s
  else
    match s.btd.format with
    | none => .refused .reservedOperation
    | some c =>
      match readSource s.btd.src s.btd.srcLen.toNat (formatLength c) s.btd.sp.toNat with
      | .error f => .fault f
      | .ok bytes =>
        match decode c bytes with
        | .ok (i, _) => exec i s
        | .error _ => .fault .srcOutOfBounds

/-! ### Engine LZD -/

/-- The source bytes the element due may read, as many as `SRC_LEN` leaves: one for `CTRL` and `LIT`; for a
back-reference the two token bytes if both are there, and the extra byte if the length code is 0. No byte
beyond the element is touched and a lone token byte is not read (R99, R197, R206, R265). -/
def Lzd.fetch (l : Lzd) : Except Fault (List Byte) :=
  match l.due with
  | .reference =>
    if l.srcLen.toNat ≤ l.sp.toNat + 1 then .ok []
    else
      match readSource l.src l.srcLen.toNat 2 l.sp.toNat with
      | .error f => .error f
      | .ok [b0, b1] =>
        if extendedForm (be16 b0 b1) then readSource l.src l.srcLen.toNat 3 l.sp.toNat else .ok [b0, b1]
      | .ok bytes => .ok bytes
  | _ => readSource l.src l.srcLen.toNat 1 l.sp.toNat

/-- `TruncatedSource` before the element due is complete: what R190, R197 and R199 have done when the check
fails (R233; log entry 19). -/
def Lzd.starve (bytes : List Byte) (l : Lzd) : Lzd :=
  match l.due, bytes with
  | .control, _ => l.raise .truncatedSource
  | .reference, [b0, b1] => (l.takeFlag.loadToken (be16 b0 b1)).raise .truncatedSource
  | _, _ => l.takeFlag.raise .truncatedSource

/-- One turn of engine LZD: nothing unless BUSY (R261); else the element due at `SP`, or `TruncatedSource` if
its bytes are not all there. -/
def lzdTurn (s : State) : Host.Outcome State Fault Refusal :=
  if !s.lzd.status.busy then .next s
  else
    match s.lzd.fetch with
    | .error f => .fault f
    | .ok bytes =>
      match decode s.lzd.due bytes with
      | .ok (i, _) => exec i s
      | .error _ => .next { s with lzd := s.lzd.starve bytes }

/-- One turn of an engine. -/
def engineTurn (e : Engine) (s : State) : Host.Outcome State Fault Refusal :=
  match e with
  | .btd => btdTurn s
  | .lzd => lzdTurn s

/-! ### The host (R120) -/

/-- A write to `BTD.START`: bit 0 = 1 while not BUSY runs the operation `OP` selects and begins the time in which the
buffers are not the host's, anything else does nothing (R26, R121, R264); the reserved code is refused (R112; log
entry 10), and so are lengths that are not those of the buffers (`L-LEN` of R133; log entry 26). -/
def strobeBtd (v : Word) (s : State) : Host.Outcome State Fault Refusal :=
  if !v.getLsbD 0 then .next s
  else if s.btd.status.busy then .next s
  else
    match decode .commandBtd [s.btd.op.zeroExtend 8] with
    | .ok (i, _) => if s.btd.lengthsTrue then exec i (s.setUnread true .btd) else .refused .lengthsUntrue
    | .error _ => .refused .reservedOperation

/-- A write to `LZD.START`, as `strobeBtd` (R26, R122, R133, R264). -/
def strobeLzd (v : Word) (s : State) : Host.Outcome State Fault Refusal :=
  if !v.getLsbD 0 then .next s
  else if s.lzd.status.busy then .next s
  else
    match decode .commandLzd [] with
    | .ok (i, _) => if s.lzd.lengthsTrue then exec i (s.setUnread true .lzd) else .refused .lengthsUntrue
    | .error _ => .refused .reservedOperation

/-- Write a register: index 5 of BTD and index 3 of LZD are START (R22, R28). -/
def writeRegister (e : Engine) (index : Nat) (v : Word) (s : State) : Host.Outcome State Fault Refusal :=
  match e with
  | .btd => if index = 5 then strobeBtd v s else .next { s with btd := s.btd.writeDescriptor index v }
  | .lzd => if index = 3 then strobeLzd v s else .next { s with lzd := s.lzd.writeDescriptor index v }

/-- Read a register, at any time and with no side effect on the core (R48, R70, R120). -/
def readRegister (e : Engine) (index : Nat) (s : State) : Word :=
  match e with
  | .btd => s.btd.readRegister index
  | .lzd => s.lzd.readRegister index

/-- Write one byte of a buffer. -/
def hostWrite (e : Engine) (b : Buffer) (a : Word) (v : Byte) (s : State) : Host.Outcome State Fault Refusal :=
  match s.barred e b true with
  | some r => .refused r
  | none =>
    if a.toNat < s.bufferSize e b then .next (s.setBuffer ((s.buffer e b).write a.toNat v) e b)
    else .fault .hostOutOfBounds

/-- Read one byte of a buffer: of `SRC` whenever the engine is not BUSY, of `DST` only once the end of the operation is
read (R74, R120, R264). -/
def hostRead (e : Engine) (b : Buffer) (a : Word) (s : State) : Host.Outcome State Fault Refusal :=
  match s.barred e b false with
  | some r => .refused r
  | none =>
    if a.toNat < s.bufferSize e b then
      match (s.buffer e b).read a.toNat with
      | some v => .next { s with bus := v.zeroExtend 32 }
      | none => .fault .hostReadUnwritten
    else .fault .hostOutOfBounds

/-- Hand over a buffer with these contents and this length (log entry 22). -/
def hostBind (e : Engine) (b : Buffer) (m : Memory) (size : Nat) (s : State) : Host.Outcome State Fault Refusal :=
  match s.barred e b true with
  | some r => .refused r
  | none => if 2 ^ 32 ≤ size then .refused .bufferTooLong else .next (s.handOver m size e b)

/-- A reset: both engines are IDLE and no operation is in flight (R46, R47, R260). -/
def hostReset (s : State) : State :=
  { s with
    btd := s.btd.resetMove s.btdUnread, lzd := s.lzd.resetMove s.lzdUnread, btdUnread := false, lzdUnread := false }

/-- A move of the host (R120). From START until the host has read DONE or ERROR the buffers are not its own (R74, R77,
R264; log entries 9 and 25). The handing over of a buffer is the model's own move (log entry 22). -/
def hostTurn (m : HostMove) (s : State) : Host.Outcome State Fault Refusal :=
  match m with
  | .writeReg e index v => writeRegister e index v s
  | .readReg e index => .next ({ s with bus := readRegister e index s }.observe e index)
  | .writeByte e b a v => hostWrite e b a v s
  | .readByte e b a => hostRead e b a s
  | .bind e b bytes => hostBind e b (cellsFrom 0 bytes) bytes.length s
  | .allocate e b size => hostBind e b [] size s
  | .reset => .next (hostReset s)

/-! ### With an empty agenda -/

/-- Whose move an empty agenda leaves: a BUSY engine goes on, BTD first; with both engines at rest nothing moves
(R261; log entry 1). -/
def idleTurn (s : State) : Host.Outcome State Fault Refusal :=
  if s.btd.status.busy then btdTurn s else lzdTurn s

/-! ### Placing one instruction (for `State.withFetchWord`; log entry 16) -/

/-- Engine BTD waiting for START with the given byte written to `BTD.OP`, its lengths true. -/
def Btd.placeOperation (op : Byte) (b : Btd) : Btd :=
  { b with
    op := op.extractLsb' 0 2, status := if b.status.busy then .afterReset else b.status
    srcSize := b.srcLen.toNat, dstSize := b.dstLen.toNat }

/-- Engine BTD running `decodeColorBlocks` on an 8 x 8 image at its first block, with these source bytes. -/
def Btd.placeBlock (bytes : List Byte) (b : Btd) : Btd :=
  { b with
    op := 0, width := 8, height := 8, srcLen := 32, dstLen := 256, status := .started
    sp := 0, ty := 0, tx := 0, sb := 0, row := 0, col := 0, src := cellsFrom 0 bytes, srcSize := 32, dstSize := 256 }

/-- Engine LZD waiting for START, its lengths true. -/
def Lzd.placeOperation (l : Lzd) : Lzd :=
  { l with
    status := if l.status.busy then .afterReset else l.status
    srcSize := l.srcLen.toNat, dstSize := l.dstLen.toNat }

/-- Engine LZD running `decompress` with one byte owed, the flag of a back-reference next, and these source
bytes. -/
def Lzd.placeReference (bytes : List Byte) (l : Lzd) : Lzd :=
  { l with
    outSize := 1, srcLen := BitVec.ofNat 32 bytes.length, dstLen := 1, status := .started
    sp := 0, dp := 0, rem := 1, ctl := 0, bi := 8, src := cellsFrom 0 bytes, srcSize := bytes.length, dstSize := 1 }

/-- The machine with an opcode-table word placed where its next turn runs it, and that turn scheduled. -/
def placeWord (nbits w : Nat) (s : State) : State :=
  match tableContext nbits with
  | some .commandBtd =>
    { s with
      btd := s.btd.placeOperation (BitVec.ofNat 8 w)
      agenda := .host (.writeReg .btd 5 1) :: s.agenda }
  | some .commandLzd =>
    { s with
      lzd := s.lzd.placeOperation
      agenda := .host (.writeReg .lzd 3 1) :: s.agenda }
  | some .reference =>
    { s with
      lzd := s.lzd.placeReference (tableBytes nbits w)
      agenda := .engine .lzd :: s.agenda
      lzdUnread := true }
  | some .colorBlock =>
    { s with
      btd := s.btd.placeBlock (tableBytes nbits w)
      agenda := .engine .btd :: s.agenda
      btdUnread := true }
  | _ => s

end Sys2Proof.Machine
end

