-- ==== Sys2Proof/Machine/Step.lean ====
section
/-! DEFINITION. One step of the machine: the next move of the agenda, or, with an empty agenda, one turn of an
engine that is BUSY (log entry 1). -/

namespace Sys2Proof.Machine

/-- One step. -/
def step (s : State) : Host.Outcome State Fault Refusal :=
  match s.agenda with
  | [] => idleTurn s
  | .engine e :: rest => engineTurn e { s with agenda := rest }
  | .host m :: rest => hostTurn m { s with agenda := rest }

/-- `s` with an opcode-table word placed so that the next step runs it (log entry 16). -/
def State.withFetchWord (s : State) (nbits w : Nat) : State := placeWord nbits w s

end Sys2Proof.Machine
end

