-- ==== Sys2Proof/Safety.lean ====
section
/-! DEFINITION. What counts as a safe machine: the invariant that every step keeps (10_state.md R27, R30, R41;
30_encoding.md R103), the premise that the source bytes are there (R262), and a step that does not fault
(60_exceptions.md R238). -/

namespace Sys2Proof.Machine

/-- `ERR` is non-zero exactly when `STATE` = ERROR (R27). -/
abbrev Status.Legal (st : Status) : Prop := st.state = .error ↔ st.err ≠ .none

/-- Every byte of `SRC` below `SRC_LEN` has been supplied (R262 (2); premise `L-LEN` of R133). -/
abbrev SourceFilled (m : Memory) (len : Nat) : Prop := ∀ a, a < len → (m.read a).isSome

/-- A buffer of `size` bytes holds bytes at its own indices only (R42, R60). -/
abbrev Memory.Fits (m : Memory) (size : Nat) : Prop := size < 2 ^ 32 ∧ ∀ c ∈ m, c.1 < size

/-- The number of the current tile, row-major across the image (R103). -/
def Btd.tileIndex (b : Btd) : Nat := b.ty.toNat * b.tilesPerRow + b.tx.toNat

/-- The position registers name a tile of the image (R31, R150). -/
abbrev Btd.TileInside (tileH : Nat) (b : Btd) : Prop :=
  b.tx.toNat < b.tilesPerRow ∧ b.ty.toNat < b.height.toNat / tileH

/-- What holds of a running `decodeColorBlocks` between two elements: the sizes are those of the entry check
(R123), and `SP` is the place of the current block in the stream (R103). -/
abbrev Btd.RunsColorBlocks (b : Btd) : Prop :=
  colorBlocksSizesOk b.width.toNat b.height.toNat b.srcLen.toNat b.dstLen.toNat = true ∧
  b.TileInside 8 ∧ b.row = 0 ∧ b.col = 0 ∧ b.sp.toNat = 32 * b.tileIndex + 8 * b.sb.toNat

/-- What holds of a running `decodeIntensity8` between two elements (R103, R104, R124). -/
abbrev Btd.RunsIntensity8 (b : Btd) : Prop :=
  intensity8SizesOk b.width.toNat b.height.toNat b.srcLen.toNat b.dstLen.toNat = true ∧
  b.TileInside 4 ∧ b.sb = 0 ∧ b.row.toNat < 4 ∧ b.sp.toNat = 32 * b.tileIndex + 8 * b.row.toNat + b.col.toNat

/-- What holds of a running `decodeIntensity4` between two elements (R103, R105, R125). -/
abbrev Btd.RunsIntensity4 (b : Btd) : Prop :=
  intensity4SizesOk b.width.toNat b.height.toNat b.srcLen.toNat b.dstLen.toNat = true ∧
  b.TileInside 8 ∧ b.sb = 0 ∧ b.col.toNat % 2 = 0 ∧
  b.sp.toNat = 32 * b.tileIndex + 4 * b.row.toNat + b.col.toNat / 2

/-- What holds of a BUSY engine BTD. -/
abbrev Btd.Running (b : Btd) : Prop :=
  (b.op = 0 ∧ b.RunsColorBlocks) ∨ (b.op = 1 ∧ b.RunsIntensity8) ∨ (b.op = 2 ∧ b.RunsIntensity4)

/-- The invariant of engine BTD: canonical buffers inside their lengths, a legal STATUS that shows no error but 1 (R27,
R231), and, while BUSY, a running operation on buffers of the lengths declared (`L-LEN` of R133). -/
structure Btd.Inv (b : Btd) : Prop where
  srcWf   : b.src.wf = true
  dstWf   : b.dst.wf = true
  legal   : b.status.Legal
  srcFits : b.src.Fits b.srcSize
  dstFits : b.dst.Fits b.dstSize
  errors  : b.status.err = .none ∨ b.status.err = .invalidBufferSize
  lengths : b.status.state = .busy → b.lengthsTrue = true
  running : b.status.state = .busy → b.Running

/-- What holds of a BUSY engine LZD between two elements: the rows of R41, with `BI` in 0..8 (R39) and every byte
of the window supplied. -/
structure Lzd.Running (l : Lzd) : Prop where
  owed    : 0 < l.rem.toInt
  sum     : (l.dp.toNat : Int) + l.rem.toInt = l.outSize.toInt
  dstLen  : (l.dstLen.toNat : Int) = l.outSize.toInt
  cursor  : l.sp.toNat ≤ l.srcLen.toNat
  flags   : l.bi.toNat ≤ 8
  window  : ∀ a, a < l.dp.toNat → (l.dst.read a).isSome

/-- The invariant of engine LZD. -/
structure Lzd.Inv (l : Lzd) : Prop where
  srcWf   : l.src.wf = true
  dstWf   : l.dst.wf = true
  legal   : l.status.Legal
  srcFits : l.src.Fits l.srcSize
  dstFits : l.dst.Fits l.dstSize
  lengths : l.status.state = .busy → l.lengthsTrue = true
  running : l.status.state = .busy → l.Running

/-- The invariant of the machine: that of each engine, and the end of a running operation is unread (R74, R264). -/
structure State.Inv (s : State) : Prop where
  btd : s.btd.Inv
  lzd : s.lzd.Inv
  btdUnread : s.btd.status.state = .busy → s.btdUnread = true
  lzdUnread : s.lzd.status.state = .busy → s.lzdUnread = true

/-- The outcome is not a fault: no access of the run left the buffers (R238). -/
abbrev NoFault {σ : Type} (o : Host.Outcome σ Fault Refusal) : Prop := ∀ f, o ≠ .fault f

/-- `n` turns of one engine, stopping where a turn stops. -/
def turns (e : Engine) : (n : Nat) → State → Host.Outcome State Fault Refusal
  | 0, s => .next s
  | n + 1, s => andThen (engineTurn e s) (turns e n)

end Sys2Proof.Machine
end

