-- ==== Sys2Proof/Certificates/Slice0/Obligations.lean ====
section
/-! DEFINITION. The statements about the model, for the provers. Each cites the rules it formalises. In an
equation `t.btd = { s.btd with …, dst := t.btd.dst }` a field set to its own value in `t` is left open there and
pinned, where the rules pin it, by the clauses beside the equation; every field not named is unchanged. -/

open Sys2Proof Sys2Proof.Machine

/-! ### Encoding (30_encoding.md) -/

/-- Decoding an encoded well-formed instruction gives it back, with whatever bytes follow (R115, R116). -/
def Obligations.DecodeEncodeRoundTrip : Prop :=
  ∀ (i : Instr) (rest : List Byte), i.WellFormed → decode i.context (encode i ++ rest) = .ok (i, rest)

/-- Outside the operation code, whose bits above [1:0] are ignored (R23), what the decoder reads is well-formed,
stands in the context it was read in, and its encoding is exactly the bytes read: no bit is dropped (R113). -/
def Obligations.DecodingDropsNoByte : Prop :=
  ∀ (c : Context) (bytes rest : List Byte) (i : Instr), c ≠ .commandBtd → decode c bytes = .ok (i, rest) →
    i.WellFormed ∧ i.context = c ∧ encode i ++ rest = bytes

/-- R98: the biases of distance and length, their ranges, and that every distance 1..4096 with every length
3..273 has exactly one encoding. -/
def Obligations.EveryDistanceAndLengthHasOneEncoding : Prop :=
  (∀ d, (distanceOf d).toNat = d.toNat + 1) ∧
  (∀ n, (shortLength n).toNat = n.toNat + 2) ∧
  (∀ e, (extendedLength e).toNat = e.toNat + 18) ∧
  (∀ (i : Instr) (dist len : Nat), i.WellFormed → backReferenceOperands i = some (dist, len) →
    1 ≤ dist ∧ dist ≤ 4096 ∧ 3 ≤ len ∧ len ≤ 273) ∧
  (∀ dist len : Nat, 1 ≤ dist → dist ≤ 4096 → 3 ≤ len → len ≤ 273 →
    ∃ i : Instr, (i.WellFormed ∧ backReferenceOperands i = some (dist, len)) ∧
      ∀ j : Instr, j.WellFormed → backReferenceOperands j = some (dist, len) → j = i)

/-- R110: no stream encoding is illegal. With enough bytes, whatever their values, an element is decoded. -/
def Obligations.EveryStreamByteValueDecodes : Prop :=
  ∀ (c : Context) (bytes : List Byte), c ≠ .commandBtd → 8 ≤ bytes.length →
    ∃ i rest, decode c bytes = .ok (i, rest)

/-- R23, R91, R112: the operation code is bits [1:0] of the byte; 3 is rejected by name. -/
def Obligations.OperationCodesDecode : Prop :=
  ∀ (op : Byte) (rest : List Byte), decode .commandBtd (op :: rest) =
    if op.toNat % 4 = 0 then .ok (.decodeColorBlocks, rest)
    else if op.toNat % 4 = 1 then .ok (.decodeIntensity8, rest)
    else if op.toNat % 4 = 2 then .ok (.decodeIntensity4, rest)
    else .error .reservedOperation

/-- R100, R145, R268: the mode of a colour block is the raw unsigned comparison of its two big-endian colours. -/
def Obligations.BlockModeIsTheRawComparison : Prop :=
  ∀ (a0 a1 b0 b1 r0 r1 r2 r3 : Byte) (rest : List Byte),
    decode .colorBlock (a0 :: a1 :: b0 :: b1 :: r0 :: r1 :: r2 :: r3 :: rest) =
      if 256 * b0.toNat + b1.toNat < 256 * a0.toNat + a1.toNat
      then .ok (.cblkG (a0 ++ a1) (b0 ++ b1) r0 r1 r2 r3, rest)
      else .ok (.cblkA (a0 ++ a1) (b0 ++ b1) r0 r1 r2 r3, rest)

/-- R193: the flags of a control byte are used from bit 7 down to bit 0, 1 for a `LIT` and 0 for a back-reference;
with no flag left a `CTRL` is due (R99, R190). After `k` elements of a group the flag is bit `7 - k`; in any state it
is bit `BI - 1`. -/
def Obligations.ElementDueFollowsTheFlags : Prop :=
  (∀ (l : Lzd) (flags : Byte) (k : Nat), k ≤ 8 →
    (Nat.repeat Lzd.takeFlag k (l.loadFlags flags)).due =
      if k = 8 then .control
      else if flags.toNat / 2 ^ (7 - k) % 2 = 1 then .literal else .reference) ∧
  (∀ l : Lzd, l.bi.toNat ≤ 8 →
    l.due = if l.bi.toNat = 0 then .control
      else if l.ctl.toNat / 2 ^ (l.bi.toNat - 1) % 2 = 1 then .literal else .reference)

/-- Words written out from the layouts of R94 to R105 decode to the elements they stand for. -/
def Obligations.WrittenOutWordsDecode : Prop :=
  decode .control [0b10100000#8] = .ok (.ctrl 0xA0#8, []) ∧
  decode .literal [0b10101011#8] = .ok (.lit 0xAB#8, []) ∧
  decode .reference [0b00110000#8, 0b00000000#8] = .ok (.ref 3 0, []) ∧
  decode .reference [0b00011111#8, 0b11111111#8] = .ok (.ref 1 0xFFF#12, []) ∧
  decode .reference [0b00000001#8, 0b00000010#8, 0b00001100#8] = .ok (.refx 0x102#12 0x0C#8, []) ∧
  decode .colorBlock [0xF8#8, 0x00#8, 0x00#8, 0x1F#8, 0x1B#8, 0x1B#8, 0x1B#8, 0xE4#8] =
    .ok (.cblkG 0xF800#16 0x001F#16 0x1B#8 0x1B#8 0x1B#8 0xE4#8, []) ∧
  decode .colorBlock [0x12#8, 0x34#8, 0x12#8, 0x34#8, 0x00#8, 0x55#8, 0xAA#8, 0xFF#8] =
    .ok (.cblkA 0x1234#16 0x1234#16 0x00#8 0x55#8 0xAA#8 0xFF#8, []) ∧
  decode .intensity8 [0x7F#8] = .ok (.i8px 0x7F#8, []) ∧
  decode .intensity4 [0b10100011#8] = .ok (.i4pp 0xA#4 0x3#4, [])

/-! ### Operand helpers (41_color_block.md) -/

/-- R140: each expansion repeats the bits of its argument from bit 7 downward; the terms do not overlap, so they
add up. -/
def Obligations.ExpansionsReplicateBits : Prop :=
  (∀ n : BitVec 5, (exp5 n).toNat = 8 * n.toNat + n.toNat / 4) ∧
  (∀ n : BitVec 6, (exp6 n).toNat = 4 * n.toNat + n.toNat / 16) ∧
  (∀ n : BitVec 3, (exp3 n).toNat = 32 * n.toNat + 4 * n.toNat + n.toNat / 2) ∧
  (∀ n : BitVec 4, (exp4 n).toNat = 16 * n.toNat + n.toNat)

/-- R141: the expansion tables, and each expansion inverts truncation. -/
def Obligations.ExpansionsInvertTruncation : Prop :=
  ((List.range 8).map fun n => exp3 (BitVec.ofNat 3 n)) =
    [0x00#8, 0x24#8, 0x49#8, 0x6D#8, 0x92#8, 0xB6#8, 0xDB#8, 0xFF#8] ∧
  ((List.range 16).map fun n => exp4 (BitVec.ofNat 4 n)) =
    [0x00#8, 0x11#8, 0x22#8, 0x33#8, 0x44#8, 0x55#8, 0x66#8, 0x77#8,
     0x88#8, 0x99#8, 0xAA#8, 0xBB#8, 0xCC#8, 0xDD#8, 0xEE#8, 0xFF#8] ∧
  ((List.range 32).map fun n => exp5 (BitVec.ofNat 5 n)) =
    [0x00#8, 0x08#8, 0x10#8, 0x18#8, 0x21#8, 0x29#8, 0x31#8, 0x39#8,
     0x42#8, 0x4A#8, 0x52#8, 0x5A#8, 0x63#8, 0x6B#8, 0x73#8, 0x7B#8,
     0x84#8, 0x8C#8, 0x94#8, 0x9C#8, 0xA5#8, 0xAD#8, 0xB5#8, 0xBD#8,
     0xC6#8, 0xCE#8, 0xD6#8, 0xDE#8, 0xE7#8, 0xEF#8, 0xF7#8, 0xFF#8] ∧
  ((List.range 64).map fun n => exp6 (BitVec.ofNat 6 n)) =
    [0x00#8, 0x04#8, 0x08#8, 0x0C#8, 0x10#8, 0x14#8, 0x18#8, 0x1C#8,
     0x20#8, 0x24#8, 0x28#8, 0x2C#8, 0x30#8, 0x34#8, 0x38#8, 0x3C#8,
     0x41#8, 0x45#8, 0x49#8, 0x4D#8, 0x51#8, 0x55#8, 0x59#8, 0x5D#8,
     0x61#8, 0x65#8, 0x69#8, 0x6D#8, 0x71#8, 0x75#8, 0x79#8, 0x7D#8,
     0x82#8, 0x86#8, 0x8A#8, 0x8E#8, 0x92#8, 0x96#8, 0x9A#8, 0x9E#8,
     0xA2#8, 0xA6#8, 0xAA#8, 0xAE#8, 0xB2#8, 0xB6#8, 0xBA#8, 0xBE#8,
     0xC3#8, 0xC7#8, 0xCB#8, 0xCF#8, 0xD3#8, 0xD7#8, 0xDB#8, 0xDF#8,
     0xE3#8, 0xE7#8, 0xEB#8, 0xEF#8, 0xF3#8, 0xF7#8, 0xFB#8, 0xFF#8] ∧
  (∀ n : BitVec 3, (exp3 n).toNat / 2 ^ 5 = n.toNat) ∧
  (∀ n : BitVec 4, (exp4 n).toNat / 2 ^ 4 = n.toNat) ∧
  (∀ n : BitVec 5, (exp5 n).toNat / 2 ^ 3 = n.toNat) ∧
  (∀ n : BitVec 6, (exp6 n).toNat / 2 ^ 2 = n.toNat)

/-- R142, R144: in both modes entries 0 and 1 are the two unpacked colours with alpha `0xFF`, red and blue being
five bits and green six. -/
def Obligations.ColorsFillTheFirstTwoEntries : Prop :=
  ∀ c1 c2 : Half, ∀ ct : ColorTable, ct = gradientTable c1 c2 ∨ ct = averageTable c1 c2 →
    tableEntry ct 0 =
      [exp5 (c1.extractLsb' 11 5), exp6 (c1.extractLsb' 5 6), exp5 (c1.extractLsb' 0 5), 0xFF#8] ∧
    tableEntry ct 1 =
      [exp5 (c2.extractLsb' 11 5), exp6 (c2.extractLsb' 5 6), exp5 (c2.extractLsb' 0 5), 0xFF#8]

/-- R142, R144, R146: the table of gradient mode, entry by entry, the blends on integers. -/
def Obligations.GradientTableEntries : Prop :=
  ∀ c1 c2 : Half,
    tableEntry (gradientTable c1 c2) 0 =
      [exp5 (c1.extractLsb' 11 5), exp6 (c1.extractLsb' 5 6), exp5 (c1.extractLsb' 0 5), 0xFF#8] ∧
    tableEntry (gradientTable c1 c2) 1 =
      [exp5 (c2.extractLsb' 11 5), exp6 (c2.extractLsb' 5 6), exp5 (c2.extractLsb' 0 5), 0xFF#8] ∧
    (∀ ch : Fin 4, ch.val < 3 →
      (tableByte (gradientTable c1 c2) 2 ch).toNat =
        (3 * (tableByte (gradientTable c1 c2) 1 ch).toNat + 5 * (tableByte (gradientTable c1 c2) 0 ch).toNat) / 8 ∧
      (tableByte (gradientTable c1 c2) 3 ch).toNat =
        (3 * (tableByte (gradientTable c1 c2) 0 ch).toNat + 5 * (tableByte (gradientTable c1 c2) 1 ch).toNat) / 8) ∧
    tableByte (gradientTable c1 c2) 2 3 = 0xFF#8 ∧ tableByte (gradientTable c1 c2) 3 3 = 0xFF#8

/-- R142, R144, R147: the table of average mode, entry by entry; entry 3 is entry 2 with alpha 0. -/
def Obligations.AverageTableEntries : Prop :=
  ∀ c1 c2 : Half,
    tableEntry (averageTable c1 c2) 0 =
      [exp5 (c1.extractLsb' 11 5), exp6 (c1.extractLsb' 5 6), exp5 (c1.extractLsb' 0 5), 0xFF#8] ∧
    tableEntry (averageTable c1 c2) 1 =
      [exp5 (c2.extractLsb' 11 5), exp6 (c2.extractLsb' 5 6), exp5 (c2.extractLsb' 0 5), 0xFF#8] ∧
    (∀ ch : Fin 4, ch.val < 3 →
      (tableByte (averageTable c1 c2) 2 ch).toNat =
        ((tableByte (averageTable c1 c2) 0 ch).toNat + (tableByte (averageTable c1 c2) 1 ch).toNat) / 2 ∧
      tableByte (averageTable c1 c2) 3 ch = tableByte (averageTable c1 c2) 2 ch) ∧
    tableByte (averageTable c1 c2) 2 3 = 0xFF#8 ∧ tableByte (averageTable c1 c2) 3 3 = 0x00#8

/-- R153: `UNPACK` is injective, so different raw colours never have equal channels. -/
def Obligations.UnpackIsInjective : Prop :=
  ∀ c c' : Half, unpack c = unpack c' → c = c'

/-- R102, R148: the index the shift register gives for column `k` is bits [7-2k : 6-2k] of the row byte, and the
register is empty after the fourth. -/
def Obligations.IndexRowsAreReadFromTheTop : Prop :=
  ∀ row : Byte,
    (∀ k : Fin 4, indexAt row k.val = row.extractLsb' (6 - 2 * k.val) 2) ∧ drainedBits row = 0

/-! ### Host operations (40_host_operations.md) -/

/-- R121, R123, R127: an accepted START of `decodeColorBlocks` whose sizes are right is BUSY at the START values of
R46, or DONE at once for an image without pixels; nothing else changes but the registers R46 leaves open. -/
def Obligations.DecodeColorBlocksStarts : Prop :=
  ∀ s : State, s.btd.status.state ≠ .busy →
    s.btd.width.toNat % 8 = 0 → s.btd.height.toNat % 8 = 0 →
    s.btd.srcLen.toNat = (s.btd.width.toNat / 8) * (s.btd.height.toNat / 8) * 32 →
    s.btd.dstLen.toNat = s.btd.width.toNat * s.btd.height.toNat * 4 →
    ∃ t, exec .decodeColorBlocks s = .next t ∧
      t = { s with btd := { s.btd with
        status := if s.btd.width = 0 ∨ s.btd.height = 0 then ⟨.done, .none⟩ else ⟨.busy, .none⟩
        sp := 0, ty := 0, tx := 0, sb := 0, row := 0, col := 0
        c1 := t.btd.c1, c2 := t.btd.c2, bits := t.btd.bits, nib := t.btd.nib, ct := t.btd.ct
        draws := t.btd.draws } }

/-- R121, R124, R127: the same for `decodeIntensity8`, whose height need only be a multiple of 4. -/
def Obligations.DecodeIntensity8Starts : Prop :=
  ∀ s : State, s.btd.status.state ≠ .busy →
    s.btd.width.toNat % 8 = 0 → s.btd.height.toNat % 4 = 0 →
    s.btd.srcLen.toNat = s.btd.width.toNat * s.btd.height.toNat →
    s.btd.dstLen.toNat = s.btd.width.toNat * s.btd.height.toNat * 4 →
    ∃ t, exec .decodeIntensity8 s = .next t ∧
      t = { s with btd := { s.btd with
        status := if s.btd.width = 0 ∨ s.btd.height = 0 then ⟨.done, .none⟩ else ⟨.busy, .none⟩
        sp := 0, ty := 0, tx := 0, sb := 0, row := 0, col := 0
        c1 := t.btd.c1, c2 := t.btd.c2, bits := t.btd.bits, nib := t.btd.nib, ct := t.btd.ct
        draws := t.btd.draws } }

/-- R121, R125, R127: the same for `decodeIntensity4`. -/
def Obligations.DecodeIntensity4Starts : Prop :=
  ∀ s : State, s.btd.status.state ≠ .busy →
    s.btd.width.toNat % 8 = 0 → s.btd.height.toNat % 8 = 0 →
    s.btd.srcLen.toNat = s.btd.width.toNat * s.btd.height.toNat / 2 →
    s.btd.dstLen.toNat = s.btd.width.toNat * s.btd.height.toNat * 4 →
    ∃ t, exec .decodeIntensity4 s = .next t ∧
      t = { s with btd := { s.btd with
        status := if s.btd.width = 0 ∨ s.btd.height = 0 then ⟨.done, .none⟩ else ⟨.busy, .none⟩
        sp := 0, ty := 0, tx := 0, sb := 0, row := 0, col := 0
        c1 := t.btd.c1, c2 := t.btd.c2, bits := t.btd.bits, nib := t.btd.nib, ct := t.btd.ct
        draws := t.btd.draws } }

/-- R122, R126, R207: an accepted START of `decompress` whose sizes are right is BUSY with `REM` = `OUTSIZE` and
the cursors at 0, or DONE at once for an output size of 0. -/
def Obligations.DecompressStarts : Prop :=
  ∀ s : State, s.lzd.status.state ≠ .busy → 0 ≤ s.lzd.outSize.toInt →
    (s.lzd.dstLen.toNat : Int) = s.lzd.outSize.toInt →
    ∃ t, exec .decompress s = .next t ∧
      t = { s with lzd := { s.lzd with
        status := if s.lzd.outSize = 0 then ⟨.done, .none⟩ else ⟨.busy, .none⟩
        sp := 0, dp := 0, rem := s.lzd.outSize, bi := 0
        ctl := t.lzd.ctl, t := t.lzd.t, dist := t.lzd.dist, len := t.lzd.len, cnt := t.lzd.cnt
        draws := t.lzd.draws } }

/-- R232, R236, R237: each cause of `InvalidBufferSize` ends the operation at entry with code 1; both buffers, the
descriptor and the other engine are unchanged. -/
def Obligations.WrongSizesRaiseInvalidBufferSize : Prop :=
  (∀ (s : State) (i : Instr), s.btd.status.state ≠ .busy →
    (i = .decodeColorBlocks ∧ ¬(s.btd.width.toNat % 8 = 0 ∧ s.btd.height.toNat % 8 = 0 ∧
        s.btd.srcLen.toNat = (s.btd.width.toNat / 8) * (s.btd.height.toNat / 8) * 32 ∧
        s.btd.dstLen.toNat = s.btd.width.toNat * s.btd.height.toNat * 4) ∨
      i = .decodeIntensity8 ∧ ¬(s.btd.width.toNat % 8 = 0 ∧ s.btd.height.toNat % 4 = 0 ∧
        s.btd.srcLen.toNat = s.btd.width.toNat * s.btd.height.toNat ∧
        s.btd.dstLen.toNat = s.btd.width.toNat * s.btd.height.toNat * 4) ∨
      i = .decodeIntensity4 ∧ ¬(s.btd.width.toNat % 8 = 0 ∧ s.btd.height.toNat % 8 = 0 ∧
        s.btd.srcLen.toNat = s.btd.width.toNat * s.btd.height.toNat / 2 ∧
        s.btd.dstLen.toNat = s.btd.width.toNat * s.btd.height.toNat * 4)) →
    ∃ t, exec i s = .next t ∧ t.btd.status = ⟨.error, .invalidBufferSize⟩ ∧
      t.btd.op = s.btd.op ∧ t.btd.width = s.btd.width ∧ t.btd.height = s.btd.height ∧
      t.btd.srcLen = s.btd.srcLen ∧ t.btd.dstLen = s.btd.dstLen ∧
      t.btd.src = s.btd.src ∧ t.btd.dst = s.btd.dst ∧
      t.btd.srcSize = s.btd.srcSize ∧ t.btd.dstSize = s.btd.dstSize ∧
      t = { s with btd := t.btd }) ∧
  (∀ s : State, s.lzd.status.state ≠ .busy →
    (s.lzd.outSize.toInt < 0 ∨ (s.lzd.dstLen.toNat : Int) ≠ s.lzd.outSize.toInt) →
    ∃ t, exec .decompress s = .next t ∧ t.lzd.status = ⟨.error, .invalidBufferSize⟩ ∧
      t.lzd.outSize = s.lzd.outSize ∧ t.lzd.srcLen = s.lzd.srcLen ∧ t.lzd.dstLen = s.lzd.dstLen ∧
      t.lzd.src = s.lzd.src ∧ t.lzd.dst = s.lzd.dst ∧
      t.lzd.srcSize = s.lzd.srcSize ∧ t.lzd.dstSize = s.lzd.dstSize ∧
      t = { s with lzd := t.lzd })

/-- R26, R120: a START write while BUSY is ignored, and so is one with bit 0 = 0. -/
def Obligations.IgnoredStartChangesNothing : Prop :=
  (∀ (s : State) (v : Word) (rest : List Turn), s.agenda = .host (.writeReg .btd 5 v) :: rest →
    (s.btd.status.state = .busy ∨ v.getLsbD 0 = false) → step s = .next { s with agenda := rest }) ∧
  (∀ (s : State) (v : Word) (rest : List Turn), s.agenda = .host (.writeReg .lzd 3 v) :: rest →
    (s.lzd.status.state = .busy ∨ v.getLsbD 0 = false) → step s = .next { s with agenda := rest })

/-- R26, R121, R122, R133, R264: an accepted START whose lengths are those of the buffers handed over runs the operation
that `OP` selects, or `decompress`, and from then on the end is unread. Other lengths are outside premise `L-LEN` of
R133, of which the spec says nothing: the model's choice (log entry 26) is to refuse. -/
def Obligations.StartRunsTheSelectedOperation : Prop :=
  (∀ (s : State) (v : Word) (rest : List Turn) (i : Instr), s.agenda = .host (.writeReg .btd 5 v) :: rest →
    s.btd.status.state ≠ .busy → v.getLsbD 0 = true →
    (s.btd.op = 0 ∧ i = .decodeColorBlocks ∨ s.btd.op = 1 ∧ i = .decodeIntensity8 ∨
      s.btd.op = 2 ∧ i = .decodeIntensity4) →
    step s = if s.btd.srcLen.toNat = s.btd.srcSize ∧ s.btd.dstLen.toNat = s.btd.dstSize
      then exec i { s with agenda := rest, btdUnread := true } else .refused .lengthsUntrue) ∧
  (∀ (s : State) (v : Word) (rest : List Turn), s.agenda = .host (.writeReg .lzd 3 v) :: rest →
    s.lzd.status.state ≠ .busy → v.getLsbD 0 = true →
    step s = if s.lzd.srcLen.toNat = s.lzd.srcSize ∧ s.lzd.dstLen.toNat = s.lzd.dstSize
      then exec .decompress { s with agenda := rest, lzdUnread := true } else .refused .lengthsUntrue)

/-- R112: a START with `OP` = 3 is outside the specified behaviour, and the model refuses it by name (the spec's
own treatment, 93 U8; log entry 10). -/
def Obligations.ReservedOperationIsRefused : Prop :=
  ∀ (s : State) (v : Word) (rest : List Turn), s.agenda = .host (.writeReg .btd 5 v) :: rest →
    s.btd.status.state ≠ .busy → v.getLsbD 0 = true → s.btd.op = 3 → step s = .refused .reservedOperation

/-! ### Elements of engine BTD (41_color_block.md, 42_intensity.md) -/

/-- R148, R149, R151, R153, R154: in a running `decodeColorBlocks` a `CBLK` writes its sixteen pixels from the
table of its mode, at the block's place, leaves every other byte, moves to the next block and is done after the
last one. -/
def Obligations.ColorBlocksWriteTheirPixels : Prop :=
  ∀ (s : State) (i : Instr) (c1 c2 : Half) (r0 r1 r2 r3 : Byte) (ct : ColorTable),
    s.btd.status.state = .busy → s.btd.RunsColorBlocks → i.WellFormed →
    (i = .cblkG c1 c2 r0 r1 r2 r3 ∧ ct = gradientTable c1 c2 ∨
      i = .cblkA c1 c2 r0 r1 r2 r3 ∧ ct = averageTable c1 c2) →
    ∃ t, exec i s = .next t ∧
      (∀ r k ch : Fin 4,
        t.btd.dst.read (pix s.btd.width.toNat (8 * s.btd.tx.toNat + 4 * (s.btd.sb.toNat % 2) + k.val)
            (8 * s.btd.ty.toNat + 4 * (s.btd.sb.toNat / 2) + r.val) + ch.val) =
          some (tableByte ct (#v[r0, r1, r2, r3][r].extractLsb' (6 - 2 * k.val) 2) ch)) ∧
      (∀ a : Nat, (∀ r k ch : Fin 4,
          a ≠ pix s.btd.width.toNat (8 * s.btd.tx.toNat + 4 * (s.btd.sb.toNat % 2) + k.val)
            (8 * s.btd.ty.toNat + 4 * (s.btd.sb.toNat / 2) + r.val) + ch.val) →
        t.btd.dst.read a = s.btd.dst.read a) ∧
      t = { s with btd := { s.btd with
        dst := t.btd.dst, c1 := c1, c2 := c2, ct := ct, bits := 0, sp := s.btd.sp + 8
        sb := t.btd.sb, tx := t.btd.tx, ty := t.btd.ty
        status := if 4 * s.btd.tileIndex + s.btd.sb.toNat + 1 =
            4 * ((s.btd.width.toNat / 8) * (s.btd.height.toNat / 8)) then ⟨.done, .none⟩ else s.btd.status } } ∧
      4 * t.btd.tileIndex + t.btd.sb.toNat = 4 * s.btd.tileIndex + s.btd.sb.toNat + 1

/-- R171, R172: in a running `decodeIntensity8` an `I8PX` writes its byte to the four channels of the current
pixel, leaves every other byte, moves to the next pixel and is done after the last one. -/
def Obligations.I8pxWritesOnePixel : Prop :=
  ∀ (s : State) (v : Byte), s.btd.status.state = .busy → s.btd.RunsIntensity8 →
    ∃ t, exec (.i8px v) s = .next t ∧
      (∀ a : Nat, t.btd.dst.read a =
        if pix s.btd.width.toNat (8 * s.btd.tx.toNat + s.btd.col.toNat)
            (4 * s.btd.ty.toNat + s.btd.row.toNat) ≤ a ∧
          a < pix s.btd.width.toNat (8 * s.btd.tx.toNat + s.btd.col.toNat)
            (4 * s.btd.ty.toNat + s.btd.row.toNat) + 4 then some v
        else s.btd.dst.read a) ∧
      t = { s with btd := { s.btd with
        dst := t.btd.dst, sp := s.btd.sp + 1
        row := t.btd.row, col := t.btd.col, tx := t.btd.tx, ty := t.btd.ty
        status := if 32 * s.btd.tileIndex + 8 * s.btd.row.toNat + s.btd.col.toNat + 1 =
            32 * ((s.btd.width.toNat / 8) * (s.btd.height.toNat / 4)) then ⟨.done, .none⟩ else s.btd.status } } ∧
      32 * t.btd.tileIndex + 8 * t.btd.row.toNat + t.btd.col.toNat =
        32 * s.btd.tileIndex + 8 * s.btd.row.toNat + s.btd.col.toNat + 1

/-- R174, R175: in a running `decodeIntensity4` an `I4PP` writes the expanded high nibble to the four channels of
the current pixel and the expanded low nibble to those of the pixel to its right, leaves every other byte, moves to
the next pair and is done after the last one. -/
def Obligations.I4ppWritesTwoPixels : Prop :=
  ∀ (s : State) (hi lo : BitVec 4), s.btd.status.state = .busy → s.btd.RunsIntensity4 →
    ∃ t, exec (.i4pp hi lo) s = .next t ∧
      (∀ a : Nat, t.btd.dst.read a =
        if pix s.btd.width.toNat (8 * s.btd.tx.toNat + s.btd.col.toNat)
            (8 * s.btd.ty.toNat + s.btd.row.toNat) ≤ a ∧
          a < pix s.btd.width.toNat (8 * s.btd.tx.toNat + s.btd.col.toNat)
            (8 * s.btd.ty.toNat + s.btd.row.toNat) + 4 then some (exp4 hi)
        else if pix s.btd.width.toNat (8 * s.btd.tx.toNat + s.btd.col.toNat + 1)
            (8 * s.btd.ty.toNat + s.btd.row.toNat) ≤ a ∧
          a < pix s.btd.width.toNat (8 * s.btd.tx.toNat + s.btd.col.toNat + 1)
            (8 * s.btd.ty.toNat + s.btd.row.toNat) + 4 then some (exp4 lo)
        else s.btd.dst.read a) ∧
      t = { s with btd := { s.btd with
        dst := t.btd.dst, nib := hi ++ lo, sp := s.btd.sp + 1
        row := t.btd.row, col := t.btd.col, tx := t.btd.tx, ty := t.btd.ty
        status := if 32 * s.btd.tileIndex + 4 * s.btd.row.toNat + s.btd.col.toNat / 2 + 1 =
            32 * ((s.btd.width.toNat / 8) * (s.btd.height.toNat / 8)) then ⟨.done, .none⟩ else s.btd.status } } ∧
      32 * t.btd.tileIndex + 4 * t.btd.row.toNat + t.btd.col.toNat / 2 =
        32 * s.btd.tileIndex + 4 * s.btd.row.toNat + s.btd.col.toNat / 2 + 1

/-! ### Elements of engine LZD (43_lz_stream.md) -/

/-- R192: a `CTRL` loads the eight flags, moves `SP` by 1 and sets `BI` to 8, and nothing else; with no byte left
it raises `TruncatedSource`. -/
def Obligations.CtrlLoadsTheFlags : Prop :=
  ∀ (s : State) (flags : Byte),
    (s.lzd.sp.toNat < s.lzd.srcLen.toNat →
      exec (.ctrl flags) s = .next { s with lzd := { s.lzd with ctl := flags, sp := s.lzd.sp + 1, bi := 8 } }) ∧
    (s.lzd.srcLen.toNat ≤ s.lzd.sp.toNat →
      ∃ t, exec (.ctrl flags) s = .next t ∧ t.lzd.status = ⟨.error, .truncatedSource⟩ ∧
        t.lzd.src = s.lzd.src ∧ t = { s with lzd := t.lzd })

/-- R196, R205: in a running `decompress` with its byte there, a `LIT` writes the byte at `dst[DP]`, moves both
cursors by 1, counts `REM` down by 1, uses one flag, and is done when `REM` reaches 0. -/
def Obligations.LitCopiesOneByte : Prop :=
  ∀ (s : State) (b : Byte), s.lzd.status.state = .busy → s.lzd.Running → s.lzd.sp.toNat < s.lzd.srcLen.toNat →
    ∃ t, exec (.lit b) s = .next t ∧
      (∀ a : Nat, t.lzd.dst.read a = if a = s.lzd.dp.toNat then some b else s.lzd.dst.read a) ∧
      t = { s with lzd := { s.lzd with
        dst := t.lzd.dst, sp := s.lzd.sp + 1, dp := s.lzd.dp + 1, rem := s.lzd.rem - 1, bi := s.lzd.bi - 1
        status := if s.lzd.rem = 1 then ⟨.done, .none⟩ else s.lzd.status } }

/-- R197, R198, R200, R201, R204, R205: in a running `decompress` with its two bytes there and its distance inside
the window, a `REF` appends `min(LEN, REM)` bytes, the `j`-th being byte `j mod DIST` of the last `DIST` bytes of
the window, leaves every other byte, moves `SP` by 2, and is done when `REM` reaches 0. -/
def Obligations.RefCopiesFromTheWindow : Prop :=
  ∀ (s : State) (n : BitVec 4) (d : BitVec 12), s.lzd.status.state = .busy → s.lzd.Running →
    (Instr.ref n d).WellFormed → s.lzd.sp.toNat + 1 < s.lzd.srcLen.toNat → d.toNat + 1 ≤ s.lzd.dp.toNat →
    ∃ t, exec (.ref n d) s = .next t ∧
      (∀ j : Nat, j < min (n.toNat + 2) s.lzd.rem.toNat →
        t.lzd.dst.read (s.lzd.dp.toNat + j) =
          s.lzd.dst.read (s.lzd.dp.toNat - (d.toNat + 1) + j % (d.toNat + 1))) ∧
      (∀ a : Nat, a < s.lzd.dp.toNat ∨ s.lzd.dp.toNat + min (n.toNat + 2) s.lzd.rem.toNat ≤ a →
        t.lzd.dst.read a = s.lzd.dst.read a) ∧
      t = { s with lzd := { s.lzd with
        dst := t.lzd.dst, sp := s.lzd.sp + 2, bi := s.lzd.bi - 1, t := n ++ d
        dist := BitVec.ofNat 13 (d.toNat + 1), len := BitVec.ofNat 9 (n.toNat + 2), cnt := 0
        dp := s.lzd.dp + BitVec.ofNat 32 (min (n.toNat + 2) s.lzd.rem.toNat)
        rem := s.lzd.rem - BitVec.ofNat 32 (min (n.toNat + 2) s.lzd.rem.toNat)
        status := if s.lzd.rem.toNat ≤ n.toNat + 2 then ⟨.done, .none⟩ else s.lzd.status } }

/-- R197, R199, R200, R201, R204, R205: the same for a `REFX`, with its three bytes and length `e + 18`. -/
def Obligations.RefxCopiesFromTheWindow : Prop :=
  ∀ (s : State) (d : BitVec 12) (e : Byte), s.lzd.status.state = .busy → s.lzd.Running →
    s.lzd.sp.toNat + 2 < s.lzd.srcLen.toNat → d.toNat + 1 ≤ s.lzd.dp.toNat →
    ∃ t, exec (.refx d e) s = .next t ∧
      (∀ j : Nat, j < min (e.toNat + 18) s.lzd.rem.toNat →
        t.lzd.dst.read (s.lzd.dp.toNat + j) =
          s.lzd.dst.read (s.lzd.dp.toNat - (d.toNat + 1) + j % (d.toNat + 1))) ∧
      (∀ a : Nat, a < s.lzd.dp.toNat ∨ s.lzd.dp.toNat + min (e.toNat + 18) s.lzd.rem.toNat ≤ a →
        t.lzd.dst.read a = s.lzd.dst.read a) ∧
      t = { s with lzd := { s.lzd with
        dst := t.lzd.dst, sp := s.lzd.sp + 3, bi := s.lzd.bi - 1, t := 0#4 ++ d
        dist := BitVec.ofNat 13 (d.toNat + 1), len := BitVec.ofNat 9 (e.toNat + 18), cnt := 0
        dp := s.lzd.dp + BitVec.ofNat 32 (min (e.toNat + 18) s.lzd.rem.toNat)
        rem := s.lzd.rem - BitVec.ofNat 32 (min (e.toNat + 18) s.lzd.rem.toNat)
        status := if s.lzd.rem.toNat ≤ e.toNat + 18 then ⟨.done, .none⟩ else s.lzd.status } }

/-- R202, R203, R234, R237: a back-reference whose bytes are all there and whose distance exceeds `DP` raises
`InvalidBackReference`: nothing beyond `DST_LEN` changes, `SRC` is unchanged, and so is engine BTD. -/
def Obligations.BadDistanceRaisesInvalidBackReference : Prop :=
  ∀ (s : State) (i : Instr) (d : BitVec 12),
    ((∃ n, i = .ref n d) ∧ s.lzd.sp.toNat + 1 < s.lzd.srcLen.toNat ∨
      (∃ e, i = .refx d e) ∧ s.lzd.sp.toNat + 2 < s.lzd.srcLen.toNat) →
    s.lzd.dp.toNat < d.toNat + 1 →
    ∃ t, exec i s = .next t ∧ t.lzd.status = ⟨.error, .invalidBackReference⟩ ∧ t.lzd.src = s.lzd.src ∧
      (∀ a : Nat, s.lzd.dstLen.toNat ≤ a → t.lzd.dst.read a = s.lzd.dst.read a) ∧
      t = { s with lzd := t.lzd }

/-- R233, R203, R236, R237: each of the four causes. A turn of a BUSY engine LZD raises `TruncatedSource` when the
byte of the `CTRL` or `LIT` due is missing, when fewer than two token bytes are left, and, whatever the distance,
when the token's length code is 0 and the extra byte is missing. -/
def Obligations.MissingBytesRaiseTruncatedSource : Prop :=
  ∀ s : State, s.lzd.status.state = .busy →
    (s.lzd.due ≠ .reference ∧ s.lzd.srcLen.toNat ≤ s.lzd.sp.toNat ∨
      s.lzd.due = .reference ∧ s.lzd.srcLen.toNat ≤ s.lzd.sp.toNat + 1 ∨
      s.lzd.due = .reference ∧ s.lzd.srcLen.toNat = s.lzd.sp.toNat + 2 ∧
        ∃ b0 b1, s.lzd.src.read s.lzd.sp.toNat = some b0 ∧ s.lzd.src.read (s.lzd.sp.toNat + 1) = some b1 ∧
          b0.toNat / 16 = 0) →
    ∃ t, engineTurn .lzd s = .next t ∧ t.lzd.status = ⟨.error, .truncatedSource⟩ ∧ t.lzd.src = s.lzd.src ∧
      (∀ a : Nat, s.lzd.dstLen.toNat ≤ a → t.lzd.dst.read a = s.lzd.dst.read a) ∧
      t = { s with lzd := t.lzd }

/-- R196, R197, R199, R203, R233: the checks in the elements themselves. A `LIT` without its byte, a back-reference
without its two token bytes, and a `REFX` without its extra byte (whatever its distance) raise `TruncatedSource`
before they read or write a byte. -/
def Obligations.ElementsCheckTheirSourceBytes : Prop :=
  ∀ (s : State) (i : Instr),
    ((∃ b, i = .lit b) ∧ s.lzd.srcLen.toNat ≤ s.lzd.sp.toNat ∨
      (∃ n d, i = .ref n d) ∧ s.lzd.srcLen.toNat ≤ s.lzd.sp.toNat + 1 ∨
      (∃ d e, i = .refx d e) ∧ s.lzd.srcLen.toNat ≤ s.lzd.sp.toNat + 2) →
    ∃ t, exec i s = .next t ∧ t.lzd.status = ⟨.error, .truncatedSource⟩ ∧ t.lzd.src = s.lzd.src ∧
      (∀ a : Nat, s.lzd.dstLen.toNat ≤ a → t.lzd.dst.read a = s.lzd.dst.read a) ∧
      t = { s with lzd := t.lzd }

/-! ### Steps -/

/-- R30, R90, R99: when the bytes at `SP` are those of a well-formed instruction that is due, all of them below
`SRC_LEN`, a step in which the engine moves is `exec` of that instruction, with the move taken off the agenda. -/
def Obligations.StepRunsTheDecodedElement : Prop :=
  (∀ (s : State) (i : Instr) (rest : List Turn),
    s.agenda = .engine .btd :: rest ∨ s.agenda = [] ∧ rest = [] →
    s.btd.status.state = .busy → i.WellFormed → s.btd.format = some i.context →
    (∀ j, j < (encode i).length → s.btd.src.read (s.btd.sp.toNat + j) = (encode i)[j]?) →
    s.btd.sp.toNat + (encode i).length ≤ s.btd.srcLen.toNat →
    step s = exec i { s with agenda := rest }) ∧
  (∀ (s : State) (i : Instr) (rest : List Turn),
    s.agenda = .engine .lzd :: rest ∨ s.agenda = [] ∧ rest = [] ∧ s.btd.status.state ≠ .busy →
    s.lzd.status.state = .busy → i.WellFormed → s.lzd.due = i.context →
    (∀ j, j < (encode i).length → s.lzd.src.read (s.lzd.sp.toNat + j) = (encode i)[j]?) →
    s.lzd.sp.toNat + (encode i).length ≤ s.lzd.srcLen.toNat →
    step s = exec i { s with agenda := rest })

/-- R236, R241, R261: an engine that is not BUSY executes nothing, and with nothing scheduled and no engine BUSY
the machine rests. -/
def Obligations.RestingEngineExecutesNothing : Prop :=
  (∀ (s : State) (e : Engine) (rest : List Turn), s.agenda = .engine e :: rest → s.engineBusy e = false →
    step s = .next { s with agenda := rest }) ∧
  (∀ s : State, s.agenda = [] → s.engineBusy .btd = false → s.engineBusy .lzd = false → step s = .next s)

/-- R20, R76, R237: a turn of an engine leaves the other engine, the agenda and the bus alone, and of its own
state the descriptor and `SRC`. -/
def Obligations.EngineTurnChangesOnlyItsEngine : Prop :=
  (∀ s t : State, engineTurn .btd s = .next t →
    t = { s with btd := t.btd } ∧ t.btd.op = s.btd.op ∧ t.btd.width = s.btd.width ∧ t.btd.height = s.btd.height ∧
      t.btd.srcLen = s.btd.srcLen ∧ t.btd.dstLen = s.btd.dstLen ∧ t.btd.src = s.btd.src ∧
      t.btd.srcSize = s.btd.srcSize ∧ t.btd.dstSize = s.btd.dstSize) ∧
  (∀ s t : State, engineTurn .lzd s = .next t →
    t = { s with lzd := t.lzd } ∧ t.lzd.outSize = s.lzd.outSize ∧ t.lzd.srcLen = s.lzd.srcLen ∧
      t.lzd.dstLen = s.lzd.dstLen ∧ t.lzd.src = s.lzd.src ∧
      t.lzd.srcSize = s.lzd.srcSize ∧ t.lzd.dstSize = s.lzd.dstSize)

/-- R78: the two engines do not interfere. From one state, `n` turns of BTD and `m` turns of LZD reach the same
state in either order. -/
def Obligations.EnginesDoNotInterfere : Prop :=
  ∀ (n m : Nat) (s t u : State), turns .btd n s = .next t → turns .lzd m s = .next u →
    ∃ v, turns .lzd m t = .next v ∧ turns .btd n u = .next v

/-- R30: a turn never moves the cursor back, and never past `SRC_LEN`. -/
def Obligations.StreamCursorNeverDecreases : Prop :=
  (∀ s t : State, s.btd.Inv → s.btd.status.state = .busy → engineTurn .btd s = .next t →
    s.btd.sp.toNat < t.btd.sp.toNat ∧ t.btd.sp.toNat ≤ s.btd.srcLen.toNat) ∧
  (∀ s t : State, s.lzd.Inv → s.lzd.status.state = .busy → engineTurn .lzd s = .next t →
    s.lzd.sp.toNat ≤ t.lzd.sp.toNat ∧ t.lzd.sp.toNat ≤ s.lzd.srcLen.toNat)

/-! ### The host's moves (10_state.md, 40_host_operations.md) -/

/-- R22, R23, R24, R28, R29: a descriptor write while not BUSY is what a read returns; `OP` keeps its two low bits;
START, STATUS and the indices that are not implemented keep nothing; the other engine is untouched. -/
def Obligations.DescriptorWritesReadBack : Prop :=
  (∀ (b : Btd) (index : Nat) (v : Word), b.status.state ≠ .busy →
    (b.writeDescriptor index v).readRegister index =
      (if index = 0 then BitVec.ofNat 32 (v.toNat % 4)
      else if index < 5 then v
      else if index = 6 then b.status.word else 0) ∧
    (∀ other : Nat, other ≠ index → (b.writeDescriptor index v).readRegister other = b.readRegister other) ∧
    (5 ≤ index → b.writeDescriptor index v = b)) ∧
  (∀ (l : Lzd) (index : Nat) (v : Word), l.status.state ≠ .busy →
    (l.writeDescriptor index v).readRegister index =
      (if index < 3 then v else if index = 4 then l.status.word else 0) ∧
    (∀ other : Nat, other ≠ index → (l.writeDescriptor index v).readRegister other = l.readRegister other) ∧
    (3 ≤ index → l.writeDescriptor index v = l)) ∧
  (∀ (s : State) (index : Nat) (v : Word), index ≠ 5 →
    hostTurn (.writeReg .btd index v) s = .next { s with btd := s.btd.writeDescriptor index v }) ∧
  (∀ (s : State) (index : Nat) (v : Word), index ≠ 3 →
    hostTurn (.writeReg .lzd index v) s = .next { s with lzd := s.lzd.writeDescriptor index v })

/-- R48, R270: a descriptor write while BUSY is ignored, whatever the index. -/
def Obligations.DescriptorWritesWhileBusyAreIgnored : Prop :=
  ∀ (s : State) (e : Engine) (index : Nat) (v : Word), s.engineBusy e = true →
    hostTurn (.writeReg e index v) s = .next s

/-- R27: `STATE` in bits [1:0], `ERR` in bits [3:2], bits [31:4] zero, with the codes of the table. -/
def Obligations.StatusWordLayout : Prop :=
  ∀ st : Status,
    st.word.toNat =
      (match st.state with | .idle => 0 | .busy => 1 | .done => 2 | .error => 3) +
      4 * (match st.err with
        | .none => 0 | .invalidBufferSize => 1 | .truncatedSource => 2 | .invalidBackReference => 3)

/-- R22, R28, R48, R70, R74: a register read is allowed at any time, returns the held value on the bus (START and the
indices that are not implemented read 0) and changes nothing in the core. What the host has learned is noted beside
it: the end of an operation is read once STATUS shows DONE or ERROR (log entries 13 and 25). -/
def Obligations.RegisterReadsHaveNoSideEffect : Prop :=
  (∀ (s : State) (index : Nat),
    hostTurn (.readReg .btd index) s = .next { s with
      bus := match index with
        | 0 => BitVec.ofNat 32 s.btd.op.toNat | 1 => s.btd.width | 2 => s.btd.height | 3 => s.btd.srcLen
        | 4 => s.btd.dstLen | 6 => s.btd.status.word | _ => 0
      btdUnread := if index = 6 ∧ (s.btd.status.state = .done ∨ s.btd.status.state = .error) then false
        else s.btdUnread }) ∧
  (∀ (s : State) (index : Nat),
    hostTurn (.readReg .lzd index) s = .next { s with
      bus := match index with
        | 0 => s.lzd.outSize | 1 => s.lzd.srcLen | 2 => s.lzd.dstLen | 4 => s.lzd.status.word | _ => 0
      lzdUnread := if index = 4 ∧ (s.lzd.status.state = .done ∨ s.lzd.status.state = .error) then false
        else s.lzdUnread })

/-- R42, R74, R120: while the engine is not BUSY and no end is unread its buffers are ordinary memory of the host: a
write is what a read of that byte returns and leaves every other byte, a buffer handed over reads as its bytes, or as no byte
if it is unfilled, and a read of a supplied byte returns it; a read of `SRC` needs only that the engine is not BUSY
(R264). The model's choices: handing over a buffer is a move of its own, which R120 does not list (log entry 22), and
a read's result is in `bus` (log entry 13). -/
def Obligations.BuffersAreTheHostsMemory : Prop :=
  (∀ (s : State) (e : Engine) (b : Buffer), s.engineBusy e = false → s.endUnread e = false →
    (∀ (a : Word) (v : Byte), a.toNat < s.bufferSize e b → ∃ t, hostTurn (.writeByte e b a v) s = .next t ∧
      (∀ x : Nat, (t.buffer e b).read x = if x = a.toNat then some v else (s.buffer e b).read x) ∧
      t = s.setBuffer (t.buffer e b) e b) ∧
    (∀ bytes : List Byte, bytes.length < 2 ^ 32 → ∃ t, hostTurn (.bind e b bytes) s = .next t ∧
      (∀ x : Nat, (t.buffer e b).read x = bytes[x]?) ∧ t = s.handOver (t.buffer e b) bytes.length e b) ∧
    (∀ size : Nat, size < 2 ^ 32 → ∃ t, hostTurn (.allocate e b size) s = .next t ∧
      (∀ x : Nat, (t.buffer e b).read x = none) ∧ t = s.handOver (t.buffer e b) size e b) ∧
    (∀ (a : Word) (v : Byte), a.toNat < s.bufferSize e b → (s.buffer e b).read a.toNat = some v →
      hostTurn (.readByte e b a) s = .next { s with bus := BitVec.ofNat 32 v.toNat })) ∧
  (∀ (s : State) (e : Engine) (a : Word) (v : Byte), s.engineBusy e = false →
    a.toNat < s.bufferSize e .src → (s.buffer e .src).read a.toNat = some v →
    hostTurn (.readByte e .src a) s = .next { s with bus := BitVec.ofNat 32 v.toNat })

/-- R74, R75, R77, R120, R264: from START until the host has read DONE or ERROR every host write of a buffer, every read
of `DST` and every handing over is turned away, by the name of the time it falls in; while BUSY a read of `SRC` is too.
Only a read of STATUS that shows DONE or ERROR, or a reset, ends that time. That the access is refused is the spec's own
treatment (U7) and the model's choice of name (log entries 9 and 25). -/
def Obligations.HostWaitsUntilTheEndIsRead : Prop :=
  (∀ (s : State) (e : Engine), s.engineBusy e = true ∨ s.endUnread e = true →
    ∀ r, r = (if s.engineBusy e then Refusal.bufferBusy else .endUnread) →
    (∀ b a v, hostTurn (.writeByte e b a v) s = .refused r) ∧
    (∀ a, hostTurn (.readByte e .dst a) s = .refused r) ∧
    (∀ b bytes, hostTurn (.bind e b bytes) s = .refused r) ∧
    (∀ b size, hostTurn (.allocate e b size) s = .refused r) ∧
    (s.engineBusy e = true → ∀ a, hostTurn (.readByte e .src a) s = .refused r)) ∧
  (∀ (s t : State) (e : Engine), step s = .next t → s.endUnread e = true → t.endUnread e = false →
    s.agenda.head? = some (.host .reset) ∨
    s.agenda.head? = some (.host (.readReg e (statusIndex e))) ∧
      ((s.engineStatus e).state = .done ∨ (s.engineStatus e).state = .error))

/-- R42, R72, R76, R264: from START until the host has read DONE or ERROR no step but a reset changes `SRC` or the
length of a buffer, and none changes `DST` but a turn of the engine while it is BUSY. -/
def Obligations.OnlyTheEngineTouchesItsBuffers : Prop :=
  ∀ s t : State, step s = .next t → s.agenda.head? ≠ some (.host .reset) →
    (s.btd.status.state = .busy ∨ s.btdUnread = true →
      t.btd.src = s.btd.src ∧ t.btd.srcSize = s.btd.srcSize ∧ t.btd.dstSize = s.btd.dstSize ∧
      (s.btd.status.state ≠ .busy ∨ (∃ m, s.agenda.head? = some (.host m)) → t.btd.dst = s.btd.dst)) ∧
    (s.lzd.status.state = .busy ∨ s.lzdUnread = true →
      t.lzd.src = s.lzd.src ∧ t.lzd.srcSize = s.lzd.srcSize ∧ t.lzd.dstSize = s.lzd.dstSize ∧
      (s.lzd.status.state ≠ .busy ∨ (∃ m, s.agenda.head? = some (.host m)) → t.lzd.dst = s.lzd.dst))

/-- R46, R47, R260: a reset leaves both engines IDLE without error, their sources and the lengths of their buffers
untouched, and no operation in flight; a destination is untouched too unless an operation was running on it or its
end was unread (log entry 4), and then beyond its length. -/
def Obligations.ResetLeavesBothEnginesIdle : Prop :=
  ∀ s : State, ∃ t, hostTurn .reset s = .next t ∧
    t.btd.status = ⟨.idle, .none⟩ ∧ t.lzd.status = ⟨.idle, .none⟩ ∧
    t.btd.src = s.btd.src ∧ t.lzd.src = s.lzd.src ∧
    t.btd.srcSize = s.btd.srcSize ∧ t.btd.dstSize = s.btd.dstSize ∧
    t.lzd.srcSize = s.lzd.srcSize ∧ t.lzd.dstSize = s.lzd.dstSize ∧
    (s.btd.status.state ≠ .busy → s.btdUnread = false → t.btd.dst = s.btd.dst) ∧
    (s.lzd.status.state ≠ .busy → s.lzdUnread = false → t.lzd.dst = s.lzd.dst) ∧
    (∀ a : Nat, s.btd.dstSize ≤ a → t.btd.dst.read a = s.btd.dst.read a) ∧
    (∀ a : Nat, s.lzd.dstSize ≤ a → t.lzd.dst.read a = s.lzd.dst.read a) ∧
    t = { s with btd := t.btd, lzd := t.lzd, btdUnread := false, lzdUnread := false }

/-- R46, R261: right after reset both STATUS registers read 0, and the machine waits: with nothing scheduled a step
changes nothing. -/
def Obligations.ResetStateWaitsForStart : Prop :=
  State.reset.btd.readRegister 6 = 0 ∧ State.reset.lzd.readRegister 4 = 0 ∧ step State.reset = .next State.reset

/-- R241: an engine that is not BUSY keeps its STATUS through every step but an accepted START of its own or a
reset. -/
def Obligations.FinishedEngineWaitsForStartOrReset : Prop :=
  ∀ s t : State, step s = .next t → s.agenda.head? ≠ some (.host .reset) →
    (s.btd.status.state ≠ .busy →
      (∀ v : Word, s.agenda.head? = some (.host (.writeReg .btd 5 v)) → v.getLsbD 0 = false) →
      t.btd.status = s.btd.status) ∧
    (s.lzd.status.state ≠ .busy →
      (∀ v : Word, s.agenda.head? = some (.host (.writeReg .lzd 3 v)) → v.getLsbD 0 = false) →
      t.lzd.status = s.lzd.status)

/-! ### Invariants and whole operations -/

/-- The invariant holds right after reset. -/
def Obligations.InvariantHoldsAtReset : Prop := State.reset.Inv

/-- R27, R39, R41, R61, R103: every step keeps the invariant: canonical buffers inside their lengths, a legal STATUS,
and, while an engine is BUSY, the relations between its cursors, counters and sizes, lengths that are those of its
buffers (`L-LEN` of R133), and an end not yet read. -/
def Obligations.EveryStepKeepsTheInvariant : Prop :=
  ∀ s t : State, s.Inv → step s = .next t → t.Inv

/-- R238: from a state of the invariant whose source is filled, a turn of an engine never faults: no read at or
beyond `SRC_LEN`, no read of an unwritten destination byte, no write at or beyond `DST_LEN`. -/
def Obligations.EngineTurnsNeverFault : Prop :=
  (∀ s : State, s.btd.Inv → SourceFilled s.btd.src s.btd.srcLen.toNat → ∃ t, engineTurn .btd s = .next t) ∧
  (∀ s : State, s.lzd.Inv → SourceFilled s.lzd.src s.lzd.srcLen.toNat → ∃ t, engineTurn .lzd s = .next t)

/-- R131, R208: a running `decompress` with `r` bytes owed and `BI` flags left ends within `r` elements and
`ceil((r - BI) / 8)` control bytes. -/
def Obligations.DecompressEnds : Prop :=
  ∀ s : State, s.lzd.Inv → s.lzd.status.state = .busy → SourceFilled s.lzd.src s.lzd.srcLen.toNat →
    ∃ n t, n ≤ s.lzd.rem.toNat + (s.lzd.rem.toNat + 7 - s.lzd.bi.toNat) / 8 ∧
      turns .lzd n s = .next t ∧ t.lzd.status.state ≠ .busy

/-- R209: the previous contents of `DST` have no influence. Two runs that differ only in destination bytes not yet
written by the operation go on alike, and agree on everything they write. -/
def Obligations.OldDestinationHasNoInfluence : Prop :=
  ∀ (n : Nat) (s t : State) (m : Memory),
    (∀ a, a < s.lzd.dp.toNat → m.read a = s.lzd.dst.read a) → turns .lzd n s = .next t →
    ∃ m', turns .lzd n { s with lzd := { s.lzd with dst := m } } =
        .next { t with lzd := { t.lzd with dst := m' } } ∧
      ∀ a, a < t.lzd.dp.toNat → m'.read a = t.lzd.dst.read a

/-- R209: the result is a function of `SRC[0..SRC_LEN)`, `SRC_LEN`, `OUTSIZE` and `DST_LEN` alone. Two machines that
agree on these, whatever else they hold, go through the same STATUS and `SP` from START on, and if they complete
they leave the same bytes in `DST` (after an error R237 leaves `DST` unspecified). -/
def Obligations.ResultIsAFunctionOfTheInputs : Prop :=
  ∀ (n : Nat) (s s' t t' u : State), s.lzd.status.state ≠ .busy → s'.lzd.status.state ≠ .busy →
    s'.lzd.outSize = s.lzd.outSize → s'.lzd.srcLen = s.lzd.srcLen → s'.lzd.dstLen = s.lzd.dstLen →
    (∀ a, a < s.lzd.srcLen.toNat → s'.lzd.src.read a = s.lzd.src.read a) →
    exec .decompress s = .next t → exec .decompress s' = .next t' → turns .lzd n t = .next u →
    ∃ u', turns .lzd n t' = .next u' ∧ u'.lzd.status = u.lzd.status ∧ u'.lzd.sp = u.lzd.sp ∧
      (u.lzd.status.state = .done → ∀ a, a < s.lzd.dstLen.toNat → u'.lzd.dst.read a = u.lzd.dst.read a)

/-- R233: cutting the source of a run that completes, to fewer bytes than the run consumed, makes it end with
`TruncatedSource`. -/
def Obligations.TruncatedStreamRaisesTruncatedSource : Prop :=
  ∀ (n : Nat) (s t : State) (srcLen : Word), s.lzd.status.state = .busy → turns .lzd n s = .next t →
    t.lzd.status = ⟨.done, .none⟩ → srcLen.toNat < t.lzd.sp.toNat →
    ∃ k u, k ≤ n ∧ turns .lzd k { s with lzd := { s.lzd with srcLen := srcLen } } = .next u ∧
      u.lzd.status = ⟨.error, .truncatedSource⟩

/-- R206: a completed run does not depend on source bytes at or after its final `SP`, nor on how many there are. -/
def Obligations.TrailingSourceBytesAreIgnored : Prop :=
  ∀ (n : Nat) (s t : State) (src : Memory) (srcLen : Word), turns .lzd n s = .next t →
    t.lzd.status = ⟨.done, .none⟩ → t.lzd.sp.toNat ≤ srcLen.toNat →
    (∀ a, a < t.lzd.sp.toNat → src.read a = s.lzd.src.read a) →
    turns .lzd n { s with lzd := { s.lzd with src := src, srcLen := srcLen } } =
      .next { t with lzd := { t.lzd with src := src, srcLen := srcLen } }

/-- R196: a stream whose control byte is `0xFF` followed by up to eight literal bytes reproduces those bytes. -/
def Obligations.LiteralGroupIsCopiedVerbatim : Prop :=
  ∀ (s : State) (bytes : List Byte), s.lzd.status.state ≠ .busy → 1 ≤ bytes.length → bytes.length ≤ 8 →
    s.lzd.outSize.toNat = bytes.length → s.lzd.dstLen.toNat = bytes.length →
    s.lzd.srcLen.toNat = bytes.length + 1 →
    (∀ j, j < bytes.length + 1 → s.lzd.src.read j = (0xFF#8 :: bytes)[j]?) →
    ∃ t u, exec .decompress s = .next t ∧ turns .lzd (bytes.length + 1) t = .next u ∧
      u.lzd.status = ⟨.done, .none⟩ ∧ u.lzd.sp.toNat = bytes.length + 1 ∧
      ∀ j, j < bytes.length → u.lzd.dst.read j = bytes[j]?

/-- R103, R104, R124, R128, R170, R171, R172: `decodeIntensity8` from START to `done`: with right sizes and the
source supplied, `W*H` elements end DONE with `SP` = `SRC_LEN`, and every pixel has its tile's byte in its four
channels. -/
def Obligations.DecodeIntensity8Result : Prop :=
  ∀ (s : State) (src : Nat → Byte), s.btd.status.state ≠ .busy → s.btd.op = 1 →
    s.btd.width.toNat % 8 = 0 → s.btd.height.toNat % 4 = 0 →
    s.btd.srcLen.toNat = s.btd.width.toNat * s.btd.height.toNat →
    s.btd.dstLen.toNat = s.btd.width.toNat * s.btd.height.toNat * 4 →
    (∀ a, a < s.btd.srcLen.toNat → s.btd.src.read a = some (src a)) →
    ∃ t u, exec .decodeIntensity8 s = .next t ∧
      turns .btd (s.btd.width.toNat * s.btd.height.toNat) t = .next u ∧
      u.btd.status = ⟨.done, .none⟩ ∧ u.btd.sp = s.btd.srcLen ∧
      (∀ x y ch : Nat, x < s.btd.width.toNat → y < s.btd.height.toNat → ch < 4 →
        u.btd.dst.read (pix s.btd.width.toNat x y + ch) =
          some (src (32 * ((y / 4) * (s.btd.width.toNat / 8) + x / 8) + 8 * (y % 4) + x % 8))) ∧
      (∀ a : Nat, s.btd.dstLen.toNat ≤ a → u.btd.dst.read a = s.btd.dst.read a)

/-- R103, R105, R125, R128, R173, R174, R175: `decodeIntensity4` from START to `done`: every pixel has its expanded
nibble in its four channels, the high nibble being the left pixel of the pair. -/
def Obligations.DecodeIntensity4Result : Prop :=
  ∀ (s : State) (src : Nat → Byte), s.btd.status.state ≠ .busy → s.btd.op = 2 →
    s.btd.width.toNat % 8 = 0 → s.btd.height.toNat % 8 = 0 →
    s.btd.srcLen.toNat = s.btd.width.toNat * s.btd.height.toNat / 2 →
    s.btd.dstLen.toNat = s.btd.width.toNat * s.btd.height.toNat * 4 →
    (∀ a, a < s.btd.srcLen.toNat → s.btd.src.read a = some (src a)) →
    ∃ t u, exec .decodeIntensity4 s = .next t ∧
      turns .btd (s.btd.width.toNat * s.btd.height.toNat / 2) t = .next u ∧
      u.btd.status = ⟨.done, .none⟩ ∧ u.btd.sp = s.btd.srcLen ∧
      (∀ x y ch : Nat, x < s.btd.width.toNat → y < s.btd.height.toNat → ch < 4 →
        u.btd.dst.read (pix s.btd.width.toNat x y + ch) =
          let v := src (32 * ((y / 8) * (s.btd.width.toNat / 8) + x / 8) + 4 * (y % 8) + x % 8 / 2)
          some (exp4 (if x % 2 = 0 then v.extractLsb' 4 4 else v.extractLsb' 0 4))) ∧
      (∀ a : Nat, s.btd.dstLen.toNat ≤ a → u.btd.dst.read a = s.btd.dst.read a)

/-- R103, R106, R123, R128, R145, R148 to R154: `decodeColorBlocks` from START to `done`: every pixel is the entry
its two index bits select in the table of its own 4x4 block, in the mode its block's raw colours select. -/
def Obligations.DecodeColorBlocksResult : Prop :=
  ∀ (s : State) (src : Nat → Byte), s.btd.status.state ≠ .busy → s.btd.op = 0 →
    s.btd.width.toNat % 8 = 0 → s.btd.height.toNat % 8 = 0 →
    s.btd.srcLen.toNat = (s.btd.width.toNat / 8) * (s.btd.height.toNat / 8) * 32 →
    s.btd.dstLen.toNat = s.btd.width.toNat * s.btd.height.toNat * 4 →
    (∀ a, a < s.btd.srcLen.toNat → s.btd.src.read a = some (src a)) →
    ∃ t u, exec .decodeColorBlocks s = .next t ∧
      turns .btd ((s.btd.width.toNat / 8) * (s.btd.height.toNat / 8) * 4) t = .next u ∧
      u.btd.status = ⟨.done, .none⟩ ∧ u.btd.sp = s.btd.srcLen ∧
      (∀ (x y : Nat) (ch : Fin 4), x < s.btd.width.toNat → y < s.btd.height.toNat →
        u.btd.dst.read (pix s.btd.width.toNat x y + ch.val) =
          let p := 32 * ((y / 8) * (s.btd.width.toNat / 8) + x / 8) + 8 * (2 * (y % 8 / 4) + x % 8 / 4)
          let c1 : Half := src p ++ src (p + 1)
          let c2 : Half := src (p + 2) ++ src (p + 3)
          let ct := if c1.toNat > c2.toNat then gradientTable c1 c2 else averageTable c1 c2
          some (tableByte ct ((src (p + 4 + y % 4)).extractLsb' (6 - 2 * (x % 4)) 2) ch)) ∧
      (∀ a : Nat, s.btd.dstLen.toNat ≤ a → u.btd.dst.read a = s.btd.dst.read a)
end

