-- ==== Sys2Proof/Laws/State.lean ====
section
/-! SUPPORT. One lemma per named update and field: what the update leaves in the field. -/

namespace Sys2Proof.Machine

@[simp] theorem Btd.complete_op (b : Btd) : (b.complete).op = b.op := rfl
@[simp] theorem Btd.complete_width (b : Btd) : (b.complete).width = b.width := rfl
@[simp] theorem Btd.complete_height (b : Btd) : (b.complete).height = b.height := rfl
@[simp] theorem Btd.complete_srcLen (b : Btd) : (b.complete).srcLen = b.srcLen := rfl
@[simp] theorem Btd.complete_dstLen (b : Btd) : (b.complete).dstLen = b.dstLen := rfl
@[simp] theorem Btd.complete_status (b : Btd) : (b.complete).status = .completed := rfl
@[simp] theorem Btd.complete_sp (b : Btd) : (b.complete).sp = b.sp := rfl
@[simp] theorem Btd.complete_ty (b : Btd) : (b.complete).ty = b.ty := rfl
@[simp] theorem Btd.complete_tx (b : Btd) : (b.complete).tx = b.tx := rfl
@[simp] theorem Btd.complete_sb (b : Btd) : (b.complete).sb = b.sb := rfl
@[simp] theorem Btd.complete_row (b : Btd) : (b.complete).row = b.row := rfl
@[simp] theorem Btd.complete_col (b : Btd) : (b.complete).col = b.col := rfl
@[simp] theorem Btd.complete_c1 (b : Btd) : (b.complete).c1 = b.c1 := rfl
@[simp] theorem Btd.complete_c2 (b : Btd) : (b.complete).c2 = b.c2 := rfl
@[simp] theorem Btd.complete_bits (b : Btd) : (b.complete).bits = b.bits := rfl
@[simp] theorem Btd.complete_nib (b : Btd) : (b.complete).nib = b.nib := rfl
@[simp] theorem Btd.complete_ct (b : Btd) : (b.complete).ct = b.ct := rfl
@[simp] theorem Btd.complete_src (b : Btd) : (b.complete).src = b.src := rfl
@[simp] theorem Btd.complete_srcSize (b : Btd) : (b.complete).srcSize = b.srcSize := rfl
@[simp] theorem Btd.complete_dstSize (b : Btd) : (b.complete).dstSize = b.dstSize := rfl
@[simp] theorem Btd.complete_dst (b : Btd) : (b.complete).dst = b.dst := rfl
@[simp] theorem Btd.complete_draws (b : Btd) : (b.complete).draws = b.draws := rfl

@[simp] theorem Btd.raise_op (code : ErrCode) (b : Btd) : (b.raise code).op = b.op := rfl
@[simp] theorem Btd.raise_width (code : ErrCode) (b : Btd) : (b.raise code).width = b.width := rfl
@[simp] theorem Btd.raise_height (code : ErrCode) (b : Btd) : (b.raise code).height = b.height := rfl
@[simp] theorem Btd.raise_srcLen (code : ErrCode) (b : Btd) : (b.raise code).srcLen = b.srcLen := rfl
@[simp] theorem Btd.raise_dstLen (code : ErrCode) (b : Btd) : (b.raise code).dstLen = b.dstLen := rfl
@[simp] theorem Btd.raise_status (code : ErrCode) (b : Btd) : (b.raise code).status = .raised code := rfl
@[simp] theorem Btd.raise_sp (code : ErrCode) (b : Btd) : (b.raise code).sp = b.sp := rfl
@[simp] theorem Btd.raise_ty (code : ErrCode) (b : Btd) : (b.raise code).ty = b.ty := rfl
@[simp] theorem Btd.raise_tx (code : ErrCode) (b : Btd) : (b.raise code).tx = b.tx := rfl
@[simp] theorem Btd.raise_sb (code : ErrCode) (b : Btd) : (b.raise code).sb = b.sb := rfl
@[simp] theorem Btd.raise_row (code : ErrCode) (b : Btd) : (b.raise code).row = b.row := rfl
@[simp] theorem Btd.raise_col (code : ErrCode) (b : Btd) : (b.raise code).col = b.col := rfl
@[simp] theorem Btd.raise_c1 (code : ErrCode) (b : Btd) : (b.raise code).c1 = b.c1 := rfl
@[simp] theorem Btd.raise_c2 (code : ErrCode) (b : Btd) : (b.raise code).c2 = b.c2 := rfl
@[simp] theorem Btd.raise_bits (code : ErrCode) (b : Btd) : (b.raise code).bits = b.bits := rfl
@[simp] theorem Btd.raise_nib (code : ErrCode) (b : Btd) : (b.raise code).nib = b.nib := rfl
@[simp] theorem Btd.raise_ct (code : ErrCode) (b : Btd) : (b.raise code).ct = b.ct := rfl
@[simp] theorem Btd.raise_src (code : ErrCode) (b : Btd) : (b.raise code).src = b.src := rfl
@[simp] theorem Btd.raise_srcSize (code : ErrCode) (b : Btd) : (b.raise code).srcSize = b.srcSize := rfl
@[simp] theorem Btd.raise_dstSize (code : ErrCode) (b : Btd) : (b.raise code).dstSize = b.dstSize := rfl
@[simp] theorem Btd.raise_dst (code : ErrCode) (b : Btd) : (b.raise code).dst = b.dst := rfl
@[simp] theorem Btd.raise_draws (code : ErrCode) (b : Btd) : (b.raise code).draws = b.draws := rfl

@[simp] theorem Btd.start_op (b : Btd) : (b.start).op = b.op := rfl
@[simp] theorem Btd.start_width (b : Btd) : (b.start).width = b.width := rfl
@[simp] theorem Btd.start_height (b : Btd) : (b.start).height = b.height := rfl
@[simp] theorem Btd.start_srcLen (b : Btd) : (b.start).srcLen = b.srcLen := rfl
@[simp] theorem Btd.start_dstLen (b : Btd) : (b.start).dstLen = b.dstLen := rfl
@[simp] theorem Btd.start_status (b : Btd) : (b.start).status = .started := rfl
@[simp] theorem Btd.start_sp (b : Btd) : (b.start).sp = 0 := rfl
@[simp] theorem Btd.start_ty (b : Btd) : (b.start).ty = 0 := rfl
@[simp] theorem Btd.start_tx (b : Btd) : (b.start).tx = 0 := rfl
@[simp] theorem Btd.start_sb (b : Btd) : (b.start).sb = 0 := rfl
@[simp] theorem Btd.start_row (b : Btd) : (b.start).row = 0 := rfl
@[simp] theorem Btd.start_col (b : Btd) : (b.start).col = 0 := rfl
@[simp] theorem Btd.start_c1 (b : Btd) : (b.start).c1 = Config.freeBits .btd 16 b.draws 0 := rfl
@[simp] theorem Btd.start_c2 (b : Btd) : (b.start).c2 = Config.freeBits .btd 16 b.draws 1 := rfl
@[simp] theorem Btd.start_bits (b : Btd) : (b.start).bits = Config.freeBits .btd 8 b.draws 2 := rfl
@[simp] theorem Btd.start_nib (b : Btd) : (b.start).nib = Config.freeBits .btd 8 b.draws 3 := rfl
@[simp] theorem Btd.start_ct (b : Btd) : (b.start).ct = freeTable b.draws := rfl
@[simp] theorem Btd.start_src (b : Btd) : (b.start).src = b.src := rfl
@[simp] theorem Btd.start_srcSize (b : Btd) : (b.start).srcSize = b.srcSize := rfl
@[simp] theorem Btd.start_dstSize (b : Btd) : (b.start).dstSize = b.dstSize := rfl
@[simp] theorem Btd.start_dst (b : Btd) : (b.start).dst = b.dst := rfl
@[simp] theorem Btd.start_draws (b : Btd) : (b.start).draws = b.draws + 1 := rfl

@[simp] theorem Lzd.complete_outSize (l : Lzd) : (l.complete).outSize = l.outSize := rfl
@[simp] theorem Lzd.complete_srcLen (l : Lzd) : (l.complete).srcLen = l.srcLen := rfl
@[simp] theorem Lzd.complete_dstLen (l : Lzd) : (l.complete).dstLen = l.dstLen := rfl
@[simp] theorem Lzd.complete_status (l : Lzd) : (l.complete).status = .completed := rfl
@[simp] theorem Lzd.complete_sp (l : Lzd) : (l.complete).sp = l.sp := rfl
@[simp] theorem Lzd.complete_dp (l : Lzd) : (l.complete).dp = l.dp := rfl
@[simp] theorem Lzd.complete_rem (l : Lzd) : (l.complete).rem = l.rem := rfl
@[simp] theorem Lzd.complete_ctl (l : Lzd) : (l.complete).ctl = l.ctl := rfl
@[simp] theorem Lzd.complete_bi (l : Lzd) : (l.complete).bi = l.bi := rfl
@[simp] theorem Lzd.complete_t (l : Lzd) : (l.complete).t = l.t := rfl
@[simp] theorem Lzd.complete_dist (l : Lzd) : (l.complete).dist = l.dist := rfl
@[simp] theorem Lzd.complete_len (l : Lzd) : (l.complete).len = l.len := rfl
@[simp] theorem Lzd.complete_cnt (l : Lzd) : (l.complete).cnt = l.cnt := rfl
@[simp] theorem Lzd.complete_src (l : Lzd) : (l.complete).src = l.src := rfl
@[simp] theorem Lzd.complete_srcSize (l : Lzd) : (l.complete).srcSize = l.srcSize := rfl
@[simp] theorem Lzd.complete_dstSize (l : Lzd) : (l.complete).dstSize = l.dstSize := rfl
@[simp] theorem Lzd.complete_dst (l : Lzd) : (l.complete).dst = l.dst := rfl
@[simp] theorem Lzd.complete_draws (l : Lzd) : (l.complete).draws = l.draws := rfl

@[simp] theorem Lzd.raise_outSize (code : ErrCode) (l : Lzd) : (l.raise code).outSize = l.outSize := rfl
@[simp] theorem Lzd.raise_srcLen (code : ErrCode) (l : Lzd) : (l.raise code).srcLen = l.srcLen := rfl
@[simp] theorem Lzd.raise_dstLen (code : ErrCode) (l : Lzd) : (l.raise code).dstLen = l.dstLen := rfl
@[simp] theorem Lzd.raise_status (code : ErrCode) (l : Lzd) : (l.raise code).status = .raised code := rfl
@[simp] theorem Lzd.raise_sp (code : ErrCode) (l : Lzd) : (l.raise code).sp = l.sp := rfl
@[simp] theorem Lzd.raise_dp (code : ErrCode) (l : Lzd) : (l.raise code).dp = l.dp := rfl
@[simp] theorem Lzd.raise_rem (code : ErrCode) (l : Lzd) : (l.raise code).rem = l.rem := rfl
@[simp] theorem Lzd.raise_ctl (code : ErrCode) (l : Lzd) : (l.raise code).ctl = l.ctl := rfl
@[simp] theorem Lzd.raise_bi (code : ErrCode) (l : Lzd) : (l.raise code).bi = l.bi := rfl
@[simp] theorem Lzd.raise_t (code : ErrCode) (l : Lzd) : (l.raise code).t = l.t := rfl
@[simp] theorem Lzd.raise_dist (code : ErrCode) (l : Lzd) : (l.raise code).dist = l.dist := rfl
@[simp] theorem Lzd.raise_len (code : ErrCode) (l : Lzd) : (l.raise code).len = l.len := rfl
@[simp] theorem Lzd.raise_cnt (code : ErrCode) (l : Lzd) : (l.raise code).cnt = l.cnt := rfl
@[simp] theorem Lzd.raise_src (code : ErrCode) (l : Lzd) : (l.raise code).src = l.src := rfl
@[simp] theorem Lzd.raise_srcSize (code : ErrCode) (l : Lzd) : (l.raise code).srcSize = l.srcSize := rfl
@[simp] theorem Lzd.raise_dstSize (code : ErrCode) (l : Lzd) : (l.raise code).dstSize = l.dstSize := rfl
@[simp] theorem Lzd.raise_dst (code : ErrCode) (l : Lzd) : (l.raise code).dst = l.dstAfterError code := rfl
@[simp] theorem Lzd.raise_draws (code : ErrCode) (l : Lzd) : (l.raise code).draws = l.draws + 1 := rfl

@[simp] theorem Lzd.start_outSize (l : Lzd) : (l.start).outSize = l.outSize := rfl
@[simp] theorem Lzd.start_srcLen (l : Lzd) : (l.start).srcLen = l.srcLen := rfl
@[simp] theorem Lzd.start_dstLen (l : Lzd) : (l.start).dstLen = l.dstLen := rfl
@[simp] theorem Lzd.start_status (l : Lzd) : (l.start).status = .started := rfl
@[simp] theorem Lzd.start_sp (l : Lzd) : (l.start).sp = 0 := rfl
@[simp] theorem Lzd.start_dp (l : Lzd) : (l.start).dp = 0 := rfl
@[simp] theorem Lzd.start_rem (l : Lzd) : (l.start).rem = l.outSize := rfl
@[simp] theorem Lzd.start_ctl (l : Lzd) : (l.start).ctl = Config.freeBits .lzd 8 l.draws 0 := rfl
@[simp] theorem Lzd.start_bi (l : Lzd) : (l.start).bi = 0 := rfl
@[simp] theorem Lzd.start_t (l : Lzd) : (l.start).t = Config.freeBits .lzd 16 l.draws 1 := rfl
@[simp] theorem Lzd.start_dist (l : Lzd) : (l.start).dist = Config.freeBits .lzd 13 l.draws 2 := rfl
@[simp] theorem Lzd.start_len (l : Lzd) : (l.start).len = Config.freeBits .lzd 9 l.draws 3 := rfl
@[simp] theorem Lzd.start_cnt (l : Lzd) : (l.start).cnt = Config.freeBits .lzd 9 l.draws 4 := rfl
@[simp] theorem Lzd.start_src (l : Lzd) : (l.start).src = l.src := rfl
@[simp] theorem Lzd.start_srcSize (l : Lzd) : (l.start).srcSize = l.srcSize := rfl
@[simp] theorem Lzd.start_dstSize (l : Lzd) : (l.start).dstSize = l.dstSize := rfl
@[simp] theorem Lzd.start_dst (l : Lzd) : (l.start).dst = l.dst := rfl
@[simp] theorem Lzd.start_draws (l : Lzd) : (l.start).draws = l.draws + 1 := rfl

@[simp] theorem Lzd.takeFlag_outSize (l : Lzd) : (l.takeFlag).outSize = l.outSize := rfl
@[simp] theorem Lzd.takeFlag_srcLen (l : Lzd) : (l.takeFlag).srcLen = l.srcLen := rfl
@[simp] theorem Lzd.takeFlag_dstLen (l : Lzd) : (l.takeFlag).dstLen = l.dstLen := rfl
@[simp] theorem Lzd.takeFlag_status (l : Lzd) : (l.takeFlag).status = l.status := rfl
@[simp] theorem Lzd.takeFlag_sp (l : Lzd) : (l.takeFlag).sp = l.sp := rfl
@[simp] theorem Lzd.takeFlag_dp (l : Lzd) : (l.takeFlag).dp = l.dp := rfl
@[simp] theorem Lzd.takeFlag_rem (l : Lzd) : (l.takeFlag).rem = l.rem := rfl
@[simp] theorem Lzd.takeFlag_ctl (l : Lzd) : (l.takeFlag).ctl = l.ctl := rfl
@[simp] theorem Lzd.takeFlag_bi (l : Lzd) : (l.takeFlag).bi = l.bi - 1 := rfl
@[simp] theorem Lzd.takeFlag_t (l : Lzd) : (l.takeFlag).t = l.t := rfl
@[simp] theorem Lzd.takeFlag_dist (l : Lzd) : (l.takeFlag).dist = l.dist := rfl
@[simp] theorem Lzd.takeFlag_len (l : Lzd) : (l.takeFlag).len = l.len := rfl
@[simp] theorem Lzd.takeFlag_cnt (l : Lzd) : (l.takeFlag).cnt = l.cnt := rfl
@[simp] theorem Lzd.takeFlag_src (l : Lzd) : (l.takeFlag).src = l.src := rfl
@[simp] theorem Lzd.takeFlag_srcSize (l : Lzd) : (l.takeFlag).srcSize = l.srcSize := rfl
@[simp] theorem Lzd.takeFlag_dstSize (l : Lzd) : (l.takeFlag).dstSize = l.dstSize := rfl
@[simp] theorem Lzd.takeFlag_dst (l : Lzd) : (l.takeFlag).dst = l.dst := rfl
@[simp] theorem Lzd.takeFlag_draws (l : Lzd) : (l.takeFlag).draws = l.draws := rfl

@[simp] theorem Lzd.loadToken_outSize (t : Half) (l : Lzd) : (l.loadToken t).outSize = l.outSize := rfl
@[simp] theorem Lzd.loadToken_srcLen (t : Half) (l : Lzd) : (l.loadToken t).srcLen = l.srcLen := rfl
@[simp] theorem Lzd.loadToken_dstLen (t : Half) (l : Lzd) : (l.loadToken t).dstLen = l.dstLen := rfl
@[simp] theorem Lzd.loadToken_status (t : Half) (l : Lzd) : (l.loadToken t).status = l.status := rfl
@[simp] theorem Lzd.loadToken_sp (t : Half) (l : Lzd) : (l.loadToken t).sp = l.sp + 2 := rfl
@[simp] theorem Lzd.loadToken_dp (t : Half) (l : Lzd) : (l.loadToken t).dp = l.dp := rfl
@[simp] theorem Lzd.loadToken_rem (t : Half) (l : Lzd) : (l.loadToken t).rem = l.rem := rfl
@[simp] theorem Lzd.loadToken_ctl (t : Half) (l : Lzd) : (l.loadToken t).ctl = l.ctl := rfl
@[simp] theorem Lzd.loadToken_bi (t : Half) (l : Lzd) : (l.loadToken t).bi = l.bi := rfl
@[simp] theorem Lzd.loadToken_t (t : Half) (l : Lzd) : (l.loadToken t).t = t := rfl
@[simp] theorem Lzd.loadToken_dist (t : Half) (l : Lzd) : (l.loadToken t).dist = distanceOf (distanceField t) := rfl
@[simp] theorem Lzd.loadToken_len (t : Half) (l : Lzd) : (l.loadToken t).len = l.len := rfl
@[simp] theorem Lzd.loadToken_cnt (t : Half) (l : Lzd) : (l.loadToken t).cnt = l.cnt := rfl
@[simp] theorem Lzd.loadToken_src (t : Half) (l : Lzd) : (l.loadToken t).src = l.src := rfl
@[simp] theorem Lzd.loadToken_srcSize (t : Half) (l : Lzd) : (l.loadToken t).srcSize = l.srcSize := rfl
@[simp] theorem Lzd.loadToken_dstSize (t : Half) (l : Lzd) : (l.loadToken t).dstSize = l.dstSize := rfl
@[simp] theorem Lzd.loadToken_dst (t : Half) (l : Lzd) : (l.loadToken t).dst = l.dst := rfl
@[simp] theorem Lzd.loadToken_draws (t : Half) (l : Lzd) : (l.loadToken t).draws = l.draws := rfl

@[simp] theorem Lzd.readByte_outSize (l : Lzd) : (l.readByte).outSize = l.outSize := rfl
@[simp] theorem Lzd.readByte_srcLen (l : Lzd) : (l.readByte).srcLen = l.srcLen := rfl
@[simp] theorem Lzd.readByte_dstLen (l : Lzd) : (l.readByte).dstLen = l.dstLen := rfl
@[simp] theorem Lzd.readByte_status (l : Lzd) : (l.readByte).status = l.status := rfl
@[simp] theorem Lzd.readByte_sp (l : Lzd) : (l.readByte).sp = l.sp + 1 := rfl
@[simp] theorem Lzd.readByte_dp (l : Lzd) : (l.readByte).dp = l.dp := rfl
@[simp] theorem Lzd.readByte_rem (l : Lzd) : (l.readByte).rem = l.rem := rfl
@[simp] theorem Lzd.readByte_ctl (l : Lzd) : (l.readByte).ctl = l.ctl := rfl
@[simp] theorem Lzd.readByte_bi (l : Lzd) : (l.readByte).bi = l.bi := rfl
@[simp] theorem Lzd.readByte_t (l : Lzd) : (l.readByte).t = l.t := rfl
@[simp] theorem Lzd.readByte_dist (l : Lzd) : (l.readByte).dist = l.dist := rfl
@[simp] theorem Lzd.readByte_len (l : Lzd) : (l.readByte).len = l.len := rfl
@[simp] theorem Lzd.readByte_cnt (l : Lzd) : (l.readByte).cnt = l.cnt := rfl
@[simp] theorem Lzd.readByte_src (l : Lzd) : (l.readByte).src = l.src := rfl
@[simp] theorem Lzd.readByte_srcSize (l : Lzd) : (l.readByte).srcSize = l.srcSize := rfl
@[simp] theorem Lzd.readByte_dstSize (l : Lzd) : (l.readByte).dstSize = l.dstSize := rfl
@[simp] theorem Lzd.readByte_dst (l : Lzd) : (l.readByte).dst = l.dst := rfl
@[simp] theorem Lzd.readByte_draws (l : Lzd) : (l.readByte).draws = l.draws := rfl

@[simp] theorem Lzd.loadFlags_outSize (v : Byte) (l : Lzd) : (l.loadFlags v).outSize = l.outSize := rfl
@[simp] theorem Lzd.loadFlags_srcLen (v : Byte) (l : Lzd) : (l.loadFlags v).srcLen = l.srcLen := rfl
@[simp] theorem Lzd.loadFlags_dstLen (v : Byte) (l : Lzd) : (l.loadFlags v).dstLen = l.dstLen := rfl
@[simp] theorem Lzd.loadFlags_status (v : Byte) (l : Lzd) : (l.loadFlags v).status = l.status := rfl
@[simp] theorem Lzd.loadFlags_sp (v : Byte) (l : Lzd) : (l.loadFlags v).sp = l.sp := rfl
@[simp] theorem Lzd.loadFlags_dp (v : Byte) (l : Lzd) : (l.loadFlags v).dp = l.dp := rfl
@[simp] theorem Lzd.loadFlags_rem (v : Byte) (l : Lzd) : (l.loadFlags v).rem = l.rem := rfl
@[simp] theorem Lzd.loadFlags_ctl (v : Byte) (l : Lzd) : (l.loadFlags v).ctl = v := rfl
@[simp] theorem Lzd.loadFlags_bi (v : Byte) (l : Lzd) : (l.loadFlags v).bi = 8 := rfl
@[simp] theorem Lzd.loadFlags_t (v : Byte) (l : Lzd) : (l.loadFlags v).t = l.t := rfl
@[simp] theorem Lzd.loadFlags_dist (v : Byte) (l : Lzd) : (l.loadFlags v).dist = l.dist := rfl
@[simp] theorem Lzd.loadFlags_len (v : Byte) (l : Lzd) : (l.loadFlags v).len = l.len := rfl
@[simp] theorem Lzd.loadFlags_cnt (v : Byte) (l : Lzd) : (l.loadFlags v).cnt = l.cnt := rfl
@[simp] theorem Lzd.loadFlags_src (v : Byte) (l : Lzd) : (l.loadFlags v).src = l.src := rfl
@[simp] theorem Lzd.loadFlags_srcSize (v : Byte) (l : Lzd) : (l.loadFlags v).srcSize = l.srcSize := rfl
@[simp] theorem Lzd.loadFlags_dstSize (v : Byte) (l : Lzd) : (l.loadFlags v).dstSize = l.dstSize := rfl
@[simp] theorem Lzd.loadFlags_dst (v : Byte) (l : Lzd) : (l.loadFlags v).dst = l.dst := rfl
@[simp] theorem Lzd.loadFlags_draws (v : Byte) (l : Lzd) : (l.loadFlags v).draws = l.draws := rfl

@[simp] theorem Lzd.loadLength_outSize (v : BitVec 9) (l : Lzd) : (l.loadLength v).outSize = l.outSize := rfl
@[simp] theorem Lzd.loadLength_srcLen (v : BitVec 9) (l : Lzd) : (l.loadLength v).srcLen = l.srcLen := rfl
@[simp] theorem Lzd.loadLength_dstLen (v : BitVec 9) (l : Lzd) : (l.loadLength v).dstLen = l.dstLen := rfl
@[simp] theorem Lzd.loadLength_status (v : BitVec 9) (l : Lzd) : (l.loadLength v).status = l.status := rfl
@[simp] theorem Lzd.loadLength_sp (v : BitVec 9) (l : Lzd) : (l.loadLength v).sp = l.sp := rfl
@[simp] theorem Lzd.loadLength_dp (v : BitVec 9) (l : Lzd) : (l.loadLength v).dp = l.dp := rfl
@[simp] theorem Lzd.loadLength_rem (v : BitVec 9) (l : Lzd) : (l.loadLength v).rem = l.rem := rfl
@[simp] theorem Lzd.loadLength_ctl (v : BitVec 9) (l : Lzd) : (l.loadLength v).ctl = l.ctl := rfl
@[simp] theorem Lzd.loadLength_bi (v : BitVec 9) (l : Lzd) : (l.loadLength v).bi = l.bi := rfl
@[simp] theorem Lzd.loadLength_t (v : BitVec 9) (l : Lzd) : (l.loadLength v).t = l.t := rfl
@[simp] theorem Lzd.loadLength_dist (v : BitVec 9) (l : Lzd) : (l.loadLength v).dist = l.dist := rfl
@[simp] theorem Lzd.loadLength_len (v : BitVec 9) (l : Lzd) : (l.loadLength v).len = v := rfl
@[simp] theorem Lzd.loadLength_cnt (v : BitVec 9) (l : Lzd) : (l.loadLength v).cnt = l.cnt := rfl
@[simp] theorem Lzd.loadLength_src (v : BitVec 9) (l : Lzd) : (l.loadLength v).src = l.src := rfl
@[simp] theorem Lzd.loadLength_srcSize (v : BitVec 9) (l : Lzd) : (l.loadLength v).srcSize = l.srcSize := rfl
@[simp] theorem Lzd.loadLength_dstSize (v : BitVec 9) (l : Lzd) : (l.loadLength v).dstSize = l.dstSize := rfl
@[simp] theorem Lzd.loadLength_dst (v : BitVec 9) (l : Lzd) : (l.loadLength v).dst = l.dst := rfl
@[simp] theorem Lzd.loadLength_draws (v : BitVec 9) (l : Lzd) : (l.loadLength v).draws = l.draws := rfl

@[simp] theorem Lzd.loadExtra_outSize (e : Byte) (l : Lzd) : (l.loadExtra e).outSize = l.outSize := rfl
@[simp] theorem Lzd.loadExtra_srcLen (e : Byte) (l : Lzd) : (l.loadExtra e).srcLen = l.srcLen := rfl
@[simp] theorem Lzd.loadExtra_dstLen (e : Byte) (l : Lzd) : (l.loadExtra e).dstLen = l.dstLen := rfl
@[simp] theorem Lzd.loadExtra_status (e : Byte) (l : Lzd) : (l.loadExtra e).status = l.status := rfl
@[simp] theorem Lzd.loadExtra_sp (e : Byte) (l : Lzd) : (l.loadExtra e).sp = l.sp + 1 := rfl
@[simp] theorem Lzd.loadExtra_dp (e : Byte) (l : Lzd) : (l.loadExtra e).dp = l.dp := rfl
@[simp] theorem Lzd.loadExtra_rem (e : Byte) (l : Lzd) : (l.loadExtra e).rem = l.rem := rfl
@[simp] theorem Lzd.loadExtra_ctl (e : Byte) (l : Lzd) : (l.loadExtra e).ctl = l.ctl := rfl
@[simp] theorem Lzd.loadExtra_bi (e : Byte) (l : Lzd) : (l.loadExtra e).bi = l.bi := rfl
@[simp] theorem Lzd.loadExtra_t (e : Byte) (l : Lzd) : (l.loadExtra e).t = l.t := rfl
@[simp] theorem Lzd.loadExtra_dist (e : Byte) (l : Lzd) : (l.loadExtra e).dist = l.dist := rfl
@[simp] theorem Lzd.loadExtra_len (e : Byte) (l : Lzd) : (l.loadExtra e).len = extendedLength e := rfl
@[simp] theorem Lzd.loadExtra_cnt (e : Byte) (l : Lzd) : (l.loadExtra e).cnt = l.cnt := rfl
@[simp] theorem Lzd.loadExtra_src (e : Byte) (l : Lzd) : (l.loadExtra e).src = l.src := rfl
@[simp] theorem Lzd.loadExtra_srcSize (e : Byte) (l : Lzd) : (l.loadExtra e).srcSize = l.srcSize := rfl
@[simp] theorem Lzd.loadExtra_dstSize (e : Byte) (l : Lzd) : (l.loadExtra e).dstSize = l.dstSize := rfl
@[simp] theorem Lzd.loadExtra_dst (e : Byte) (l : Lzd) : (l.loadExtra e).dst = l.dst := rfl
@[simp] theorem Lzd.loadExtra_draws (e : Byte) (l : Lzd) : (l.loadExtra e).draws = l.draws := rfl

@[simp] theorem Lzd.loadCount_outSize (n : Nat) (l : Lzd) : (l.loadCount n).outSize = l.outSize := rfl
@[simp] theorem Lzd.loadCount_srcLen (n : Nat) (l : Lzd) : (l.loadCount n).srcLen = l.srcLen := rfl
@[simp] theorem Lzd.loadCount_dstLen (n : Nat) (l : Lzd) : (l.loadCount n).dstLen = l.dstLen := rfl
@[simp] theorem Lzd.loadCount_status (n : Nat) (l : Lzd) : (l.loadCount n).status = l.status := rfl
@[simp] theorem Lzd.loadCount_sp (n : Nat) (l : Lzd) : (l.loadCount n).sp = l.sp := rfl
@[simp] theorem Lzd.loadCount_dp (n : Nat) (l : Lzd) : (l.loadCount n).dp = l.dp := rfl
@[simp] theorem Lzd.loadCount_rem (n : Nat) (l : Lzd) : (l.loadCount n).rem = l.rem := rfl
@[simp] theorem Lzd.loadCount_ctl (n : Nat) (l : Lzd) : (l.loadCount n).ctl = l.ctl := rfl
@[simp] theorem Lzd.loadCount_bi (n : Nat) (l : Lzd) : (l.loadCount n).bi = l.bi := rfl
@[simp] theorem Lzd.loadCount_t (n : Nat) (l : Lzd) : (l.loadCount n).t = l.t := rfl
@[simp] theorem Lzd.loadCount_dist (n : Nat) (l : Lzd) : (l.loadCount n).dist = l.dist := rfl
@[simp] theorem Lzd.loadCount_len (n : Nat) (l : Lzd) : (l.loadCount n).len = l.len := rfl
@[simp] theorem Lzd.loadCount_cnt (n : Nat) (l : Lzd) : (l.loadCount n).cnt = BitVec.ofNat 9 n := rfl
@[simp] theorem Lzd.loadCount_src (n : Nat) (l : Lzd) : (l.loadCount n).src = l.src := rfl
@[simp] theorem Lzd.loadCount_srcSize (n : Nat) (l : Lzd) : (l.loadCount n).srcSize = l.srcSize := rfl
@[simp] theorem Lzd.loadCount_dstSize (n : Nat) (l : Lzd) : (l.loadCount n).dstSize = l.dstSize := rfl
@[simp] theorem Lzd.loadCount_dst (n : Nat) (l : Lzd) : (l.loadCount n).dst = l.dst := rfl
@[simp] theorem Lzd.loadCount_draws (n : Nat) (l : Lzd) : (l.loadCount n).draws = l.draws := rfl

@[simp] theorem Lzd.countDown_outSize (l : Lzd) : (l.countDown).outSize = l.outSize := rfl
@[simp] theorem Lzd.countDown_srcLen (l : Lzd) : (l.countDown).srcLen = l.srcLen := rfl
@[simp] theorem Lzd.countDown_dstLen (l : Lzd) : (l.countDown).dstLen = l.dstLen := rfl
@[simp] theorem Lzd.countDown_status (l : Lzd) : (l.countDown).status = l.status := rfl
@[simp] theorem Lzd.countDown_sp (l : Lzd) : (l.countDown).sp = l.sp := rfl
@[simp] theorem Lzd.countDown_dp (l : Lzd) : (l.countDown).dp = l.dp := rfl
@[simp] theorem Lzd.countDown_rem (l : Lzd) : (l.countDown).rem = l.rem := rfl
@[simp] theorem Lzd.countDown_ctl (l : Lzd) : (l.countDown).ctl = l.ctl := rfl
@[simp] theorem Lzd.countDown_bi (l : Lzd) : (l.countDown).bi = l.bi := rfl
@[simp] theorem Lzd.countDown_t (l : Lzd) : (l.countDown).t = l.t := rfl
@[simp] theorem Lzd.countDown_dist (l : Lzd) : (l.countDown).dist = l.dist := rfl
@[simp] theorem Lzd.countDown_len (l : Lzd) : (l.countDown).len = l.len := rfl
@[simp] theorem Lzd.countDown_cnt (l : Lzd) : (l.countDown).cnt = l.cnt - 1 := rfl
@[simp] theorem Lzd.countDown_src (l : Lzd) : (l.countDown).src = l.src := rfl
@[simp] theorem Lzd.countDown_srcSize (l : Lzd) : (l.countDown).srcSize = l.srcSize := rfl
@[simp] theorem Lzd.countDown_dstSize (l : Lzd) : (l.countDown).dstSize = l.dstSize := rfl
@[simp] theorem Lzd.countDown_dst (l : Lzd) : (l.countDown).dst = l.dst := rfl
@[simp] theorem Lzd.countDown_draws (l : Lzd) : (l.countDown).draws = l.draws := rfl

@[simp] theorem Btd.advance_op (n : Word) (b : Btd) : (b.advance n).op = b.op := rfl
@[simp] theorem Btd.advance_width (n : Word) (b : Btd) : (b.advance n).width = b.width := rfl
@[simp] theorem Btd.advance_height (n : Word) (b : Btd) : (b.advance n).height = b.height := rfl
@[simp] theorem Btd.advance_srcLen (n : Word) (b : Btd) : (b.advance n).srcLen = b.srcLen := rfl
@[simp] theorem Btd.advance_dstLen (n : Word) (b : Btd) : (b.advance n).dstLen = b.dstLen := rfl
@[simp] theorem Btd.advance_status (n : Word) (b : Btd) : (b.advance n).status = b.status := rfl
@[simp] theorem Btd.advance_sp (n : Word) (b : Btd) : (b.advance n).sp = b.sp + n := rfl
@[simp] theorem Btd.advance_ty (n : Word) (b : Btd) : (b.advance n).ty = b.ty := rfl
@[simp] theorem Btd.advance_tx (n : Word) (b : Btd) : (b.advance n).tx = b.tx := rfl
@[simp] theorem Btd.advance_sb (n : Word) (b : Btd) : (b.advance n).sb = b.sb := rfl
@[simp] theorem Btd.advance_row (n : Word) (b : Btd) : (b.advance n).row = b.row := rfl
@[simp] theorem Btd.advance_col (n : Word) (b : Btd) : (b.advance n).col = b.col := rfl
@[simp] theorem Btd.advance_c1 (n : Word) (b : Btd) : (b.advance n).c1 = b.c1 := rfl
@[simp] theorem Btd.advance_c2 (n : Word) (b : Btd) : (b.advance n).c2 = b.c2 := rfl
@[simp] theorem Btd.advance_bits (n : Word) (b : Btd) : (b.advance n).bits = b.bits := rfl
@[simp] theorem Btd.advance_nib (n : Word) (b : Btd) : (b.advance n).nib = b.nib := rfl
@[simp] theorem Btd.advance_ct (n : Word) (b : Btd) : (b.advance n).ct = b.ct := rfl
@[simp] theorem Btd.advance_src (n : Word) (b : Btd) : (b.advance n).src = b.src := rfl
@[simp] theorem Btd.advance_srcSize (n : Word) (b : Btd) : (b.advance n).srcSize = b.srcSize := rfl
@[simp] theorem Btd.advance_dstSize (n : Word) (b : Btd) : (b.advance n).dstSize = b.dstSize := rfl
@[simp] theorem Btd.advance_dst (n : Word) (b : Btd) : (b.advance n).dst = b.dst := rfl
@[simp] theorem Btd.advance_draws (n : Word) (b : Btd) : (b.advance n).draws = b.draws := rfl

@[simp] theorem Btd.loadColors_op (ct : ColorTable) (c1 c2 : Half) (r3 : Byte) (b : Btd) :
    (b.loadColors ct c1 c2 r3).op = b.op := rfl
@[simp] theorem Btd.loadColors_width (ct : ColorTable) (c1 c2 : Half) (r3 : Byte) (b : Btd) :
    (b.loadColors ct c1 c2 r3).width = b.width := rfl
@[simp] theorem Btd.loadColors_height (ct : ColorTable) (c1 c2 : Half) (r3 : Byte) (b : Btd) :
    (b.loadColors ct c1 c2 r3).height = b.height := rfl
@[simp] theorem Btd.loadColors_srcLen (ct : ColorTable) (c1 c2 : Half) (r3 : Byte) (b : Btd) :
    (b.loadColors ct c1 c2 r3).srcLen = b.srcLen := rfl
@[simp] theorem Btd.loadColors_dstLen (ct : ColorTable) (c1 c2 : Half) (r3 : Byte) (b : Btd) :
    (b.loadColors ct c1 c2 r3).dstLen = b.dstLen := rfl
@[simp] theorem Btd.loadColors_status (ct : ColorTable) (c1 c2 : Half) (r3 : Byte) (b : Btd) :
    (b.loadColors ct c1 c2 r3).status = b.status := rfl
@[simp] theorem Btd.loadColors_sp (ct : ColorTable) (c1 c2 : Half) (r3 : Byte) (b : Btd) :
    (b.loadColors ct c1 c2 r3).sp = b.sp := rfl
@[simp] theorem Btd.loadColors_ty (ct : ColorTable) (c1 c2 : Half) (r3 : Byte) (b : Btd) :
    (b.loadColors ct c1 c2 r3).ty = b.ty := rfl
@[simp] theorem Btd.loadColors_tx (ct : ColorTable) (c1 c2 : Half) (r3 : Byte) (b : Btd) :
    (b.loadColors ct c1 c2 r3).tx = b.tx := rfl
@[simp] theorem Btd.loadColors_sb (ct : ColorTable) (c1 c2 : Half) (r3 : Byte) (b : Btd) :
    (b.loadColors ct c1 c2 r3).sb = b.sb := rfl
@[simp] theorem Btd.loadColors_row (ct : ColorTable) (c1 c2 : Half) (r3 : Byte) (b : Btd) :
    (b.loadColors ct c1 c2 r3).row = b.row := rfl
@[simp] theorem Btd.loadColors_col (ct : ColorTable) (c1 c2 : Half) (r3 : Byte) (b : Btd) :
    (b.loadColors ct c1 c2 r3).col = b.col := rfl
@[simp] theorem Btd.loadColors_c1 (ct : ColorTable) (c1 c2 : Half) (r3 : Byte) (b : Btd) :
    (b.loadColors ct c1 c2 r3).c1 = c1 := rfl
@[simp] theorem Btd.loadColors_c2 (ct : ColorTable) (c1 c2 : Half) (r3 : Byte) (b : Btd) :
    (b.loadColors ct c1 c2 r3).c2 = c2 := rfl
@[simp] theorem Btd.loadColors_bits (ct : ColorTable) (c1 c2 : Half) (r3 : Byte) (b : Btd) :
    (b.loadColors ct c1 c2 r3).bits = drainedBits r3 := rfl
@[simp] theorem Btd.loadColors_nib (ct : ColorTable) (c1 c2 : Half) (r3 : Byte) (b : Btd) :
    (b.loadColors ct c1 c2 r3).nib = b.nib := rfl
@[simp] theorem Btd.loadColors_ct (ct : ColorTable) (c1 c2 : Half) (r3 : Byte) (b : Btd) :
    (b.loadColors ct c1 c2 r3).ct = ct := rfl
@[simp] theorem Btd.loadColors_src (ct : ColorTable) (c1 c2 : Half) (r3 : Byte) (b : Btd) :
    (b.loadColors ct c1 c2 r3).src = b.src := rfl
@[simp] theorem Btd.loadColors_srcSize (ct : ColorTable) (c1 c2 : Half) (r3 : Byte) (b : Btd) :
    (b.loadColors ct c1 c2 r3).srcSize = b.srcSize := rfl
@[simp] theorem Btd.loadColors_dstSize (ct : ColorTable) (c1 c2 : Half) (r3 : Byte) (b : Btd) :
    (b.loadColors ct c1 c2 r3).dstSize = b.dstSize := rfl
@[simp] theorem Btd.loadColors_dst (ct : ColorTable) (c1 c2 : Half) (r3 : Byte) (b : Btd) :
    (b.loadColors ct c1 c2 r3).dst = b.dst := rfl
@[simp] theorem Btd.loadColors_draws (ct : ColorTable) (c1 c2 : Half) (r3 : Byte) (b : Btd) :
    (b.loadColors ct c1 c2 r3).draws = b.draws := rfl

@[simp] theorem Btd.firstBlock_op (b : Btd) : (b.firstBlock).op = b.op := rfl
@[simp] theorem Btd.firstBlock_width (b : Btd) : (b.firstBlock).width = b.width := rfl
@[simp] theorem Btd.firstBlock_height (b : Btd) : (b.firstBlock).height = b.height := rfl
@[simp] theorem Btd.firstBlock_srcLen (b : Btd) : (b.firstBlock).srcLen = b.srcLen := rfl
@[simp] theorem Btd.firstBlock_dstLen (b : Btd) : (b.firstBlock).dstLen = b.dstLen := rfl
@[simp] theorem Btd.firstBlock_status (b : Btd) : (b.firstBlock).status = b.status := rfl
@[simp] theorem Btd.firstBlock_sp (b : Btd) : (b.firstBlock).sp = b.sp := rfl
@[simp] theorem Btd.firstBlock_ty (b : Btd) : (b.firstBlock).ty = b.ty := rfl
@[simp] theorem Btd.firstBlock_tx (b : Btd) : (b.firstBlock).tx = b.tx := rfl
@[simp] theorem Btd.firstBlock_sb (b : Btd) : (b.firstBlock).sb = 0 := rfl
@[simp] theorem Btd.firstBlock_row (b : Btd) : (b.firstBlock).row = b.row := rfl
@[simp] theorem Btd.firstBlock_col (b : Btd) : (b.firstBlock).col = b.col := rfl
@[simp] theorem Btd.firstBlock_c1 (b : Btd) : (b.firstBlock).c1 = b.c1 := rfl
@[simp] theorem Btd.firstBlock_c2 (b : Btd) : (b.firstBlock).c2 = b.c2 := rfl
@[simp] theorem Btd.firstBlock_bits (b : Btd) : (b.firstBlock).bits = b.bits := rfl
@[simp] theorem Btd.firstBlock_nib (b : Btd) : (b.firstBlock).nib = b.nib := rfl
@[simp] theorem Btd.firstBlock_ct (b : Btd) : (b.firstBlock).ct = b.ct := rfl
@[simp] theorem Btd.firstBlock_src (b : Btd) : (b.firstBlock).src = b.src := rfl
@[simp] theorem Btd.firstBlock_srcSize (b : Btd) : (b.firstBlock).srcSize = b.srcSize := rfl
@[simp] theorem Btd.firstBlock_dstSize (b : Btd) : (b.firstBlock).dstSize = b.dstSize := rfl
@[simp] theorem Btd.firstBlock_dst (b : Btd) : (b.firstBlock).dst = b.dst := rfl
@[simp] theorem Btd.firstBlock_draws (b : Btd) : (b.firstBlock).draws = b.draws := rfl

@[simp] theorem Btd.firstPixel_op (b : Btd) : (b.firstPixel).op = b.op := rfl
@[simp] theorem Btd.firstPixel_width (b : Btd) : (b.firstPixel).width = b.width := rfl
@[simp] theorem Btd.firstPixel_height (b : Btd) : (b.firstPixel).height = b.height := rfl
@[simp] theorem Btd.firstPixel_srcLen (b : Btd) : (b.firstPixel).srcLen = b.srcLen := rfl
@[simp] theorem Btd.firstPixel_dstLen (b : Btd) : (b.firstPixel).dstLen = b.dstLen := rfl
@[simp] theorem Btd.firstPixel_status (b : Btd) : (b.firstPixel).status = b.status := rfl
@[simp] theorem Btd.firstPixel_sp (b : Btd) : (b.firstPixel).sp = b.sp := rfl
@[simp] theorem Btd.firstPixel_ty (b : Btd) : (b.firstPixel).ty = b.ty := rfl
@[simp] theorem Btd.firstPixel_tx (b : Btd) : (b.firstPixel).tx = b.tx := rfl
@[simp] theorem Btd.firstPixel_sb (b : Btd) : (b.firstPixel).sb = b.sb := rfl
@[simp] theorem Btd.firstPixel_row (b : Btd) : (b.firstPixel).row = 0 := rfl
@[simp] theorem Btd.firstPixel_col (b : Btd) : (b.firstPixel).col = 0 := rfl
@[simp] theorem Btd.firstPixel_c1 (b : Btd) : (b.firstPixel).c1 = b.c1 := rfl
@[simp] theorem Btd.firstPixel_c2 (b : Btd) : (b.firstPixel).c2 = b.c2 := rfl
@[simp] theorem Btd.firstPixel_bits (b : Btd) : (b.firstPixel).bits = b.bits := rfl
@[simp] theorem Btd.firstPixel_nib (b : Btd) : (b.firstPixel).nib = b.nib := rfl
@[simp] theorem Btd.firstPixel_ct (b : Btd) : (b.firstPixel).ct = b.ct := rfl
@[simp] theorem Btd.firstPixel_src (b : Btd) : (b.firstPixel).src = b.src := rfl
@[simp] theorem Btd.firstPixel_srcSize (b : Btd) : (b.firstPixel).srcSize = b.srcSize := rfl
@[simp] theorem Btd.firstPixel_dstSize (b : Btd) : (b.firstPixel).dstSize = b.dstSize := rfl
@[simp] theorem Btd.firstPixel_dst (b : Btd) : (b.firstPixel).dst = b.dst := rfl
@[simp] theorem Btd.firstPixel_draws (b : Btd) : (b.firstPixel).draws = b.draws := rfl

@[simp] theorem Btd.loadPair_op (v : Byte) (b : Btd) : (b.loadPair v).op = b.op := rfl
@[simp] theorem Btd.loadPair_width (v : Byte) (b : Btd) : (b.loadPair v).width = b.width := rfl
@[simp] theorem Btd.loadPair_height (v : Byte) (b : Btd) : (b.loadPair v).height = b.height := rfl
@[simp] theorem Btd.loadPair_srcLen (v : Byte) (b : Btd) : (b.loadPair v).srcLen = b.srcLen := rfl
@[simp] theorem Btd.loadPair_dstLen (v : Byte) (b : Btd) : (b.loadPair v).dstLen = b.dstLen := rfl
@[simp] theorem Btd.loadPair_status (v : Byte) (b : Btd) : (b.loadPair v).status = b.status := rfl
@[simp] theorem Btd.loadPair_sp (v : Byte) (b : Btd) : (b.loadPair v).sp = b.sp := rfl
@[simp] theorem Btd.loadPair_ty (v : Byte) (b : Btd) : (b.loadPair v).ty = b.ty := rfl
@[simp] theorem Btd.loadPair_tx (v : Byte) (b : Btd) : (b.loadPair v).tx = b.tx := rfl
@[simp] theorem Btd.loadPair_sb (v : Byte) (b : Btd) : (b.loadPair v).sb = b.sb := rfl
@[simp] theorem Btd.loadPair_row (v : Byte) (b : Btd) : (b.loadPair v).row = b.row := rfl
@[simp] theorem Btd.loadPair_col (v : Byte) (b : Btd) : (b.loadPair v).col = b.col := rfl
@[simp] theorem Btd.loadPair_c1 (v : Byte) (b : Btd) : (b.loadPair v).c1 = b.c1 := rfl
@[simp] theorem Btd.loadPair_c2 (v : Byte) (b : Btd) : (b.loadPair v).c2 = b.c2 := rfl
@[simp] theorem Btd.loadPair_bits (v : Byte) (b : Btd) : (b.loadPair v).bits = b.bits := rfl
@[simp] theorem Btd.loadPair_nib (v : Byte) (b : Btd) : (b.loadPair v).nib = v := rfl
@[simp] theorem Btd.loadPair_ct (v : Byte) (b : Btd) : (b.loadPair v).ct = b.ct := rfl
@[simp] theorem Btd.loadPair_src (v : Byte) (b : Btd) : (b.loadPair v).src = b.src := rfl
@[simp] theorem Btd.loadPair_srcSize (v : Byte) (b : Btd) : (b.loadPair v).srcSize = b.srcSize := rfl
@[simp] theorem Btd.loadPair_dstSize (v : Byte) (b : Btd) : (b.loadPair v).dstSize = b.dstSize := rfl
@[simp] theorem Btd.loadPair_dst (v : Byte) (b : Btd) : (b.loadPair v).dst = b.dst := rfl
@[simp] theorem Btd.loadPair_draws (v : Byte) (b : Btd) : (b.loadPair v).draws = b.draws := rfl

@[simp] theorem Lzd.exitEarly_outSize (l : Lzd) : l.exitEarly.outSize = l.outSize := by
  unfold Lzd.exitEarly; split <;> rfl
@[simp] theorem Lzd.exitEarly_srcLen (l : Lzd) : l.exitEarly.srcLen = l.srcLen := by
  unfold Lzd.exitEarly; split <;> rfl
@[simp] theorem Lzd.exitEarly_dstLen (l : Lzd) : l.exitEarly.dstLen = l.dstLen := by
  unfold Lzd.exitEarly; split <;> rfl
theorem Lzd.exitEarly_status (l : Lzd) : l.exitEarly.status = if l.exhausted then .completed else l.status := by
  unfold Lzd.exitEarly; split <;> rfl
@[simp] theorem Lzd.exitEarly_sp (l : Lzd) : l.exitEarly.sp = l.sp := by
  unfold Lzd.exitEarly; split <;> rfl
@[simp] theorem Lzd.exitEarly_dp (l : Lzd) : l.exitEarly.dp = l.dp := by
  unfold Lzd.exitEarly; split <;> rfl
@[simp] theorem Lzd.exitEarly_rem (l : Lzd) : l.exitEarly.rem = l.rem := by
  unfold Lzd.exitEarly; split <;> rfl
@[simp] theorem Lzd.exitEarly_ctl (l : Lzd) : l.exitEarly.ctl = l.ctl := by
  unfold Lzd.exitEarly; split <;> rfl
@[simp] theorem Lzd.exitEarly_bi (l : Lzd) : l.exitEarly.bi = l.bi := by
  unfold Lzd.exitEarly; split <;> rfl
@[simp] theorem Lzd.exitEarly_t (l : Lzd) : l.exitEarly.t = l.t := by
  unfold Lzd.exitEarly; split <;> rfl
@[simp] theorem Lzd.exitEarly_dist (l : Lzd) : l.exitEarly.dist = l.dist := by
  unfold Lzd.exitEarly; split <;> rfl
@[simp] theorem Lzd.exitEarly_len (l : Lzd) : l.exitEarly.len = l.len := by
  unfold Lzd.exitEarly; split <;> rfl
@[simp] theorem Lzd.exitEarly_cnt (l : Lzd) : l.exitEarly.cnt = l.cnt := by
  unfold Lzd.exitEarly; split <;> rfl
@[simp] theorem Lzd.exitEarly_src (l : Lzd) : l.exitEarly.src = l.src := by
  unfold Lzd.exitEarly; split <;> rfl
@[simp] theorem Lzd.exitEarly_srcSize (l : Lzd) : l.exitEarly.srcSize = l.srcSize := by
  unfold Lzd.exitEarly; split <;> rfl
@[simp] theorem Lzd.exitEarly_dstSize (l : Lzd) : l.exitEarly.dstSize = l.dstSize := by
  unfold Lzd.exitEarly; split <;> rfl
@[simp] theorem Lzd.exitEarly_dst (l : Lzd) : l.exitEarly.dst = l.dst := by
  unfold Lzd.exitEarly; split <;> rfl
@[simp] theorem Lzd.exitEarly_draws (l : Lzd) : l.exitEarly.draws = l.draws := by
  unfold Lzd.exitEarly; split <;> rfl

@[simp] theorem Btd.nextTile_op (b : Btd) : b.nextTile.op = b.op := by
  unfold Btd.nextTile; split <;> rfl
@[simp] theorem Btd.nextTile_width (b : Btd) : b.nextTile.width = b.width := by
  unfold Btd.nextTile; split <;> rfl
@[simp] theorem Btd.nextTile_height (b : Btd) : b.nextTile.height = b.height := by
  unfold Btd.nextTile; split <;> rfl
@[simp] theorem Btd.nextTile_srcLen (b : Btd) : b.nextTile.srcLen = b.srcLen := by
  unfold Btd.nextTile; split <;> rfl
@[simp] theorem Btd.nextTile_dstLen (b : Btd) : b.nextTile.dstLen = b.dstLen := by
  unfold Btd.nextTile; split <;> rfl
@[simp] theorem Btd.nextTile_status (b : Btd) : b.nextTile.status = b.status := by
  unfold Btd.nextTile; split <;> rfl
@[simp] theorem Btd.nextTile_sp (b : Btd) : b.nextTile.sp = b.sp := by
  unfold Btd.nextTile; split <;> rfl
@[simp] theorem Btd.nextTile_sb (b : Btd) : b.nextTile.sb = b.sb := by
  unfold Btd.nextTile; split <;> rfl
@[simp] theorem Btd.nextTile_row (b : Btd) : b.nextTile.row = b.row := by
  unfold Btd.nextTile; split <;> rfl
@[simp] theorem Btd.nextTile_col (b : Btd) : b.nextTile.col = b.col := by
  unfold Btd.nextTile; split <;> rfl
@[simp] theorem Btd.nextTile_c1 (b : Btd) : b.nextTile.c1 = b.c1 := by
  unfold Btd.nextTile; split <;> rfl
@[simp] theorem Btd.nextTile_c2 (b : Btd) : b.nextTile.c2 = b.c2 := by
  unfold Btd.nextTile; split <;> rfl
@[simp] theorem Btd.nextTile_bits (b : Btd) : b.nextTile.bits = b.bits := by
  unfold Btd.nextTile; split <;> rfl
@[simp] theorem Btd.nextTile_nib (b : Btd) : b.nextTile.nib = b.nib := by
  unfold Btd.nextTile; split <;> rfl
@[simp] theorem Btd.nextTile_ct (b : Btd) : b.nextTile.ct = b.ct := by
  unfold Btd.nextTile; split <;> rfl
@[simp] theorem Btd.nextTile_src (b : Btd) : b.nextTile.src = b.src := by
  unfold Btd.nextTile; split <;> rfl
@[simp] theorem Btd.nextTile_srcSize (b : Btd) : b.nextTile.srcSize = b.srcSize := by
  unfold Btd.nextTile; split <;> rfl
@[simp] theorem Btd.nextTile_dstSize (b : Btd) : b.nextTile.dstSize = b.dstSize := by
  unfold Btd.nextTile; split <;> rfl
@[simp] theorem Btd.nextTile_dst (b : Btd) : b.nextTile.dst = b.dst := by
  unfold Btd.nextTile; split <;> rfl
@[simp] theorem Btd.nextTile_draws (b : Btd) : b.nextTile.draws = b.draws := by
  unfold Btd.nextTile; split <;> rfl

@[simp] theorem Btd.nextBlock_op (b : Btd) : b.nextBlock.op = b.op := by
  unfold Btd.nextBlock; split <;> simp
@[simp] theorem Btd.nextBlock_width (b : Btd) : b.nextBlock.width = b.width := by
  unfold Btd.nextBlock; split <;> simp
@[simp] theorem Btd.nextBlock_height (b : Btd) : b.nextBlock.height = b.height := by
  unfold Btd.nextBlock; split <;> simp
@[simp] theorem Btd.nextBlock_srcLen (b : Btd) : b.nextBlock.srcLen = b.srcLen := by
  unfold Btd.nextBlock; split <;> simp
@[simp] theorem Btd.nextBlock_dstLen (b : Btd) : b.nextBlock.dstLen = b.dstLen := by
  unfold Btd.nextBlock; split <;> simp
@[simp] theorem Btd.nextBlock_status (b : Btd) : b.nextBlock.status = b.status := by
  unfold Btd.nextBlock; split <;> simp
@[simp] theorem Btd.nextBlock_sp (b : Btd) : b.nextBlock.sp = b.sp := by
  unfold Btd.nextBlock; split <;> simp
@[simp] theorem Btd.nextBlock_row (b : Btd) : b.nextBlock.row = b.row := by
  unfold Btd.nextBlock; split <;> simp
@[simp] theorem Btd.nextBlock_col (b : Btd) : b.nextBlock.col = b.col := by
  unfold Btd.nextBlock; split <;> simp
@[simp] theorem Btd.nextBlock_c1 (b : Btd) : b.nextBlock.c1 = b.c1 := by
  unfold Btd.nextBlock; split <;> simp
@[simp] theorem Btd.nextBlock_c2 (b : Btd) : b.nextBlock.c2 = b.c2 := by
  unfold Btd.nextBlock; split <;> simp
@[simp] theorem Btd.nextBlock_bits (b : Btd) : b.nextBlock.bits = b.bits := by
  unfold Btd.nextBlock; split <;> simp
@[simp] theorem Btd.nextBlock_nib (b : Btd) : b.nextBlock.nib = b.nib := by
  unfold Btd.nextBlock; split <;> simp
@[simp] theorem Btd.nextBlock_ct (b : Btd) : b.nextBlock.ct = b.ct := by
  unfold Btd.nextBlock; split <;> simp
@[simp] theorem Btd.nextBlock_src (b : Btd) : b.nextBlock.src = b.src := by
  unfold Btd.nextBlock; split <;> simp
@[simp] theorem Btd.nextBlock_srcSize (b : Btd) : b.nextBlock.srcSize = b.srcSize := by
  unfold Btd.nextBlock; split <;> simp
@[simp] theorem Btd.nextBlock_dstSize (b : Btd) : b.nextBlock.dstSize = b.dstSize := by
  unfold Btd.nextBlock; split <;> simp
@[simp] theorem Btd.nextBlock_dst (b : Btd) : b.nextBlock.dst = b.dst := by
  unfold Btd.nextBlock; split <;> simp
@[simp] theorem Btd.nextBlock_draws (b : Btd) : b.nextBlock.draws = b.draws := by
  unfold Btd.nextBlock; split <;> simp

@[simp] theorem Btd.nextRow_op (h : Nat) (b : Btd) : (b.nextRow h).op = b.op := by
  unfold Btd.nextRow; split <;> simp
@[simp] theorem Btd.nextRow_width (h : Nat) (b : Btd) : (b.nextRow h).width = b.width := by
  unfold Btd.nextRow; split <;> simp
@[simp] theorem Btd.nextRow_height (h : Nat) (b : Btd) : (b.nextRow h).height = b.height := by
  unfold Btd.nextRow; split <;> simp
@[simp] theorem Btd.nextRow_srcLen (h : Nat) (b : Btd) : (b.nextRow h).srcLen = b.srcLen := by
  unfold Btd.nextRow; split <;> simp
@[simp] theorem Btd.nextRow_dstLen (h : Nat) (b : Btd) : (b.nextRow h).dstLen = b.dstLen := by
  unfold Btd.nextRow; split <;> simp
@[simp] theorem Btd.nextRow_status (h : Nat) (b : Btd) : (b.nextRow h).status = b.status := by
  unfold Btd.nextRow; split <;> simp
@[simp] theorem Btd.nextRow_sp (h : Nat) (b : Btd) : (b.nextRow h).sp = b.sp := by
  unfold Btd.nextRow; split <;> simp
@[simp] theorem Btd.nextRow_sb (h : Nat) (b : Btd) : (b.nextRow h).sb = b.sb := by
  unfold Btd.nextRow; split <;> simp
@[simp] theorem Btd.nextRow_c1 (h : Nat) (b : Btd) : (b.nextRow h).c1 = b.c1 := by
  unfold Btd.nextRow; split <;> simp
@[simp] theorem Btd.nextRow_c2 (h : Nat) (b : Btd) : (b.nextRow h).c2 = b.c2 := by
  unfold Btd.nextRow; split <;> simp
@[simp] theorem Btd.nextRow_bits (h : Nat) (b : Btd) : (b.nextRow h).bits = b.bits := by
  unfold Btd.nextRow; split <;> simp
@[simp] theorem Btd.nextRow_nib (h : Nat) (b : Btd) : (b.nextRow h).nib = b.nib := by
  unfold Btd.nextRow; split <;> simp
@[simp] theorem Btd.nextRow_ct (h : Nat) (b : Btd) : (b.nextRow h).ct = b.ct := by
  unfold Btd.nextRow; split <;> simp
@[simp] theorem Btd.nextRow_src (h : Nat) (b : Btd) : (b.nextRow h).src = b.src := by
  unfold Btd.nextRow; split <;> simp
@[simp] theorem Btd.nextRow_srcSize (h : Nat) (b : Btd) : (b.nextRow h).srcSize = b.srcSize := by
  unfold Btd.nextRow; split <;> simp
@[simp] theorem Btd.nextRow_dstSize (h : Nat) (b : Btd) : (b.nextRow h).dstSize = b.dstSize := by
  unfold Btd.nextRow; split <;> simp
@[simp] theorem Btd.nextRow_dst (h : Nat) (b : Btd) : (b.nextRow h).dst = b.dst := by
  unfold Btd.nextRow; split <;> simp
@[simp] theorem Btd.nextRow_draws (h : Nat) (b : Btd) : (b.nextRow h).draws = b.draws := by
  unfold Btd.nextRow; split <;> simp

@[simp] theorem Btd.nextPixel_op (n h : Nat) (b : Btd) : (b.nextPixel n h).op = b.op := by
  unfold Btd.nextPixel; split <;> simp
@[simp] theorem Btd.nextPixel_width (n h : Nat) (b : Btd) : (b.nextPixel n h).width = b.width := by
  unfold Btd.nextPixel; split <;> simp
@[simp] theorem Btd.nextPixel_height (n h : Nat) (b : Btd) : (b.nextPixel n h).height = b.height := by
  unfold Btd.nextPixel; split <;> simp
@[simp] theorem Btd.nextPixel_srcLen (n h : Nat) (b : Btd) : (b.nextPixel n h).srcLen = b.srcLen := by
  unfold Btd.nextPixel; split <;> simp
@[simp] theorem Btd.nextPixel_dstLen (n h : Nat) (b : Btd) : (b.nextPixel n h).dstLen = b.dstLen := by
  unfold Btd.nextPixel; split <;> simp
@[simp] theorem Btd.nextPixel_status (n h : Nat) (b : Btd) : (b.nextPixel n h).status = b.status := by
  unfold Btd.nextPixel; split <;> simp
@[simp] theorem Btd.nextPixel_sp (n h : Nat) (b : Btd) : (b.nextPixel n h).sp = b.sp := by
  unfold Btd.nextPixel; split <;> simp
@[simp] theorem Btd.nextPixel_sb (n h : Nat) (b : Btd) : (b.nextPixel n h).sb = b.sb := by
  unfold Btd.nextPixel; split <;> simp
@[simp] theorem Btd.nextPixel_c1 (n h : Nat) (b : Btd) : (b.nextPixel n h).c1 = b.c1 := by
  unfold Btd.nextPixel; split <;> simp
@[simp] theorem Btd.nextPixel_c2 (n h : Nat) (b : Btd) : (b.nextPixel n h).c2 = b.c2 := by
  unfold Btd.nextPixel; split <;> simp
@[simp] theorem Btd.nextPixel_bits (n h : Nat) (b : Btd) : (b.nextPixel n h).bits = b.bits := by
  unfold Btd.nextPixel; split <;> simp
@[simp] theorem Btd.nextPixel_nib (n h : Nat) (b : Btd) : (b.nextPixel n h).nib = b.nib := by
  unfold Btd.nextPixel; split <;> simp
@[simp] theorem Btd.nextPixel_ct (n h : Nat) (b : Btd) : (b.nextPixel n h).ct = b.ct := by
  unfold Btd.nextPixel; split <;> simp
@[simp] theorem Btd.nextPixel_src (n h : Nat) (b : Btd) : (b.nextPixel n h).src = b.src := by
  unfold Btd.nextPixel; split <;> simp
@[simp] theorem Btd.nextPixel_srcSize (n h : Nat) (b : Btd) : (b.nextPixel n h).srcSize = b.srcSize := by
  unfold Btd.nextPixel; split <;> simp
@[simp] theorem Btd.nextPixel_dstSize (n h : Nat) (b : Btd) : (b.nextPixel n h).dstSize = b.dstSize := by
  unfold Btd.nextPixel; split <;> simp
@[simp] theorem Btd.nextPixel_dst (n h : Nat) (b : Btd) : (b.nextPixel n h).dst = b.dst := by
  unfold Btd.nextPixel; split <;> simp
@[simp] theorem Btd.nextPixel_draws (n h : Nat) (b : Btd) : (b.nextPixel n h).draws = b.draws := by
  unfold Btd.nextPixel; split <;> simp

@[simp] theorem Btd.finishTiles_op (h : Nat) (b : Btd) : (b.finishTiles h).op = b.op := by
  unfold Btd.finishTiles; split <;> rfl
@[simp] theorem Btd.finishTiles_width (h : Nat) (b : Btd) : (b.finishTiles h).width = b.width := by
  unfold Btd.finishTiles; split <;> rfl
@[simp] theorem Btd.finishTiles_height (h : Nat) (b : Btd) : (b.finishTiles h).height = b.height := by
  unfold Btd.finishTiles; split <;> rfl
@[simp] theorem Btd.finishTiles_srcLen (h : Nat) (b : Btd) : (b.finishTiles h).srcLen = b.srcLen := by
  unfold Btd.finishTiles; split <;> rfl
@[simp] theorem Btd.finishTiles_dstLen (h : Nat) (b : Btd) : (b.finishTiles h).dstLen = b.dstLen := by
  unfold Btd.finishTiles; split <;> rfl
theorem Btd.finishTiles_status (h : Nat) (b : Btd) :
    (b.finishTiles h).status = if b.height.toNat / h ≤ b.ty.toNat then .completed else b.status := by
  unfold Btd.finishTiles; split <;> rfl
@[simp] theorem Btd.finishTiles_sp (h : Nat) (b : Btd) : (b.finishTiles h).sp = b.sp := by
  unfold Btd.finishTiles; split <;> rfl
@[simp] theorem Btd.finishTiles_ty (h : Nat) (b : Btd) : (b.finishTiles h).ty = b.ty := by
  unfold Btd.finishTiles; split <;> rfl
@[simp] theorem Btd.finishTiles_tx (h : Nat) (b : Btd) : (b.finishTiles h).tx = b.tx := by
  unfold Btd.finishTiles; split <;> rfl
@[simp] theorem Btd.finishTiles_sb (h : Nat) (b : Btd) : (b.finishTiles h).sb = b.sb := by
  unfold Btd.finishTiles; split <;> rfl
@[simp] theorem Btd.finishTiles_row (h : Nat) (b : Btd) : (b.finishTiles h).row = b.row := by
  unfold Btd.finishTiles; split <;> rfl
@[simp] theorem Btd.finishTiles_col (h : Nat) (b : Btd) : (b.finishTiles h).col = b.col := by
  unfold Btd.finishTiles; split <;> rfl
@[simp] theorem Btd.finishTiles_c1 (h : Nat) (b : Btd) : (b.finishTiles h).c1 = b.c1 := by
  unfold Btd.finishTiles; split <;> rfl
@[simp] theorem Btd.finishTiles_c2 (h : Nat) (b : Btd) : (b.finishTiles h).c2 = b.c2 := by
  unfold Btd.finishTiles; split <;> rfl
@[simp] theorem Btd.finishTiles_bits (h : Nat) (b : Btd) : (b.finishTiles h).bits = b.bits := by
  unfold Btd.finishTiles; split <;> rfl
@[simp] theorem Btd.finishTiles_nib (h : Nat) (b : Btd) : (b.finishTiles h).nib = b.nib := by
  unfold Btd.finishTiles; split <;> rfl
@[simp] theorem Btd.finishTiles_ct (h : Nat) (b : Btd) : (b.finishTiles h).ct = b.ct := by
  unfold Btd.finishTiles; split <;> rfl
@[simp] theorem Btd.finishTiles_src (h : Nat) (b : Btd) : (b.finishTiles h).src = b.src := by
  unfold Btd.finishTiles; split <;> rfl
@[simp] theorem Btd.finishTiles_srcSize (h : Nat) (b : Btd) : (b.finishTiles h).srcSize = b.srcSize := by
  unfold Btd.finishTiles; split <;> rfl
@[simp] theorem Btd.finishTiles_dstSize (h : Nat) (b : Btd) : (b.finishTiles h).dstSize = b.dstSize := by
  unfold Btd.finishTiles; split <;> rfl
@[simp] theorem Btd.finishTiles_dst (h : Nat) (b : Btd) : (b.finishTiles h).dst = b.dst := by
  unfold Btd.finishTiles; split <;> rfl
@[simp] theorem Btd.finishTiles_draws (h : Nat) (b : Btd) : (b.finishTiles h).draws = b.draws := by
  unfold Btd.finishTiles; split <;> rfl

/-! ### The whole machine: what the host's moves update -/

@[simp] theorem State.setUnread_btd (s : State) (u : Bool) (e : Engine) : (s.setUnread u e).btd = s.btd := by
  cases e <;> rfl
@[simp] theorem State.setUnread_lzd (s : State) (u : Bool) (e : Engine) : (s.setUnread u e).lzd = s.lzd := by
  cases e <;> rfl
@[simp] theorem State.setUnread_agenda (s : State) (u : Bool) (e : Engine) : (s.setUnread u e).agenda = s.agenda := by
  cases e <;> rfl
@[simp] theorem State.setUnread_bus (s : State) (u : Bool) (e : Engine) : (s.setUnread u e).bus = s.bus := by
  cases e <;> rfl
@[simp] theorem State.endUnread_setUnread (s : State) (u : Bool) (e : Engine) : (s.setUnread u e).endUnread e = u := by
  cases e <;> rfl
theorem State.endUnread_setUnread_ne (s : State) (u : Bool) {e e' : Engine} (h : e' ≠ e) :
    (s.setUnread u e).endUnread e' = s.endUnread e' := by
  cases e <;> cases e' <;> first | rfl | exact absurd rfl h

@[simp] theorem State.observe_btd (e : Engine) (i : Nat) (s : State) : (s.observe e i).btd = s.btd := by
  unfold State.observe; split <;> simp
@[simp] theorem State.observe_lzd (e : Engine) (i : Nat) (s : State) : (s.observe e i).lzd = s.lzd := by
  unfold State.observe; split <;> simp
@[simp] theorem State.observe_agenda (e : Engine) (i : Nat) (s : State) : (s.observe e i).agenda = s.agenda := by
  unfold State.observe; split <;> simp
@[simp] theorem State.observe_bus (e : Engine) (i : Nat) (s : State) : (s.observe e i).bus = s.bus := by
  unfold State.observe; split <;> simp
theorem State.endUnread_observe (e e' : Engine) (i : Nat) (s : State) :
    (s.observe e i).endUnread e' =
      if e' = e ∧ i = statusIndex e ∧ (s.engineStatus e).ended = true then false else s.endUnread e' := by
  unfold State.observe
  split
  · next h =>
    by_cases he : e' = e
    · subst he; simp [h]
    · rw [if_neg fun hh => he hh.1, State.endUnread_setUnread_ne _ _ he]
  · next h => rw [if_neg fun hh => h hh.2]

@[simp] theorem State.setBuffer_agenda (s : State) (m : Memory) (e : Engine) (b : Buffer) :
    (s.setBuffer m e b).agenda = s.agenda := by
  cases e <;> cases b <;> rfl
@[simp] theorem State.setBuffer_bus (s : State) (m : Memory) (e : Engine) (b : Buffer) :
    (s.setBuffer m e b).bus = s.bus := by
  cases e <;> cases b <;> rfl
@[simp] theorem State.setBuffer_btdUnread (s : State) (m : Memory) (e : Engine) (b : Buffer) :
    (s.setBuffer m e b).btdUnread = s.btdUnread := by
  cases e <;> cases b <;> rfl
@[simp] theorem State.setBuffer_lzdUnread (s : State) (m : Memory) (e : Engine) (b : Buffer) :
    (s.setBuffer m e b).lzdUnread = s.lzdUnread := by
  cases e <;> cases b <;> rfl
@[simp] theorem State.buffer_setBuffer (s : State) (m : Memory) (e : Engine) (b : Buffer) :
    (s.setBuffer m e b).buffer e b = m := by
  cases e <;> cases b <;> rfl
@[simp] theorem State.handOver_agenda (s : State) (m : Memory) (n : Nat) (e : Engine) (b : Buffer) :
    (s.handOver m n e b).agenda = s.agenda := by
  cases e <;> cases b <;> rfl
@[simp] theorem State.handOver_bus (s : State) (m : Memory) (n : Nat) (e : Engine) (b : Buffer) :
    (s.handOver m n e b).bus = s.bus := by
  cases e <;> cases b <;> rfl
@[simp] theorem State.handOver_btdUnread (s : State) (m : Memory) (n : Nat) (e : Engine) (b : Buffer) :
    (s.handOver m n e b).btdUnread = s.btdUnread := by
  cases e <;> cases b <;> rfl
@[simp] theorem State.handOver_lzdUnread (s : State) (m : Memory) (n : Nat) (e : Engine) (b : Buffer) :
    (s.handOver m n e b).lzdUnread = s.lzdUnread := by
  cases e <;> cases b <;> rfl
@[simp] theorem State.buffer_handOver (s : State) (m : Memory) (n : Nat) (e : Engine) (b : Buffer) :
    (s.handOver m n e b).buffer e b = m := by
  cases e <;> cases b <;> rfl
@[simp] theorem State.bufferSize_setBuffer (s : State) (m : Memory) (e e' : Engine) (b b' : Buffer) :
    (s.setBuffer m e b).bufferSize e' b' = s.bufferSize e' b' := by
  cases e <;> cases b <;> cases e' <;> cases b' <;> rfl
@[simp] theorem State.bufferSize_handOver (s : State) (m : Memory) (n : Nat) (e : Engine) (b : Buffer) :
    (s.handOver m n e b).bufferSize e b = n := by
  cases e <;> cases b <;> rfl

end Sys2Proof.Machine
end

