-- ==== Sys2Proof/Laws/Decode.lean ====
section
/-! SUPPORT. The bit-field lemmas of the decoder and the encoder, and what each decoding function answers. -/

namespace Sys2Proof

/-- The high part of an append. -/
theorem extractLsb'_append_high {m n : Nat} (x : BitVec m) (y : BitVec n) : (x ++ y).extractLsb' n m = x := by
  apply BitVec.eq_of_getLsbD_eq
  intro i hi
  simp only [BitVec.getLsbD_extractLsb', BitVec.getLsbD_append]
  simp [hi, show ¬ n + i < n by omega]

/-- The low part of an append. -/
theorem extractLsb'_append_low {m n : Nat} (x : BitVec m) (y : BitVec n) : (x ++ y).extractLsb' 0 n = y := by
  apply BitVec.eq_of_getLsbD_eq
  intro i hi
  simp only [BitVec.getLsbD_extractLsb', BitVec.getLsbD_append]
  simp [hi]

@[simp] theorem be16_high_low (h : Half) : be16 (highByte h) (lowByte h) = h := by
  apply BitVec.eq_of_getLsbD_eq
  intro i hi
  simp only [be16, highByte, lowByte, BitVec.getLsbD_append, BitVec.getLsbD_extractLsb']
  by_cases h8 : i < 8 <;> simp [h8]
  · rw [show 8 + (i - 8) = i by omega]
    have : i - 8 < 8 := by omega
    simp [this]

@[simp] theorem highByte_be16 (b0 b1 : Byte) : highByte (be16 b0 b1) = b0 :=
  extractLsb'_append_high _ _

@[simp] theorem lowByte_be16 (b0 b1 : Byte) : lowByte (be16 b0 b1) = b1 :=
  extractLsb'_append_low _ _

@[simp] theorem lengthCode_tokenOf (n : BitVec 4) (d : BitVec 12) : lengthCode (tokenOf n d) = n :=
  extractLsb'_append_high _ _

@[simp] theorem distanceField_tokenOf (n : BitVec 4) (d : BitVec 12) : distanceField (tokenOf n d) = d :=
  extractLsb'_append_low _ _

@[simp] theorem tokenOf_fields (t : Half) : tokenOf (lengthCode t) (distanceField t) = t := by
  apply BitVec.eq_of_getLsbD_eq
  intro i hi
  simp only [tokenOf, lengthCode, distanceField, BitVec.getLsbD_append, BitVec.getLsbD_extractLsb']
  by_cases h : i < 12 <;> simp [h]
  · rw [show 12 + (i - 12) = i by omega]
    have : i - 12 < 4 := by omega
    simp [this]

@[simp] theorem highNibble_append (hi lo : BitVec 4) : highNibble (hi ++ lo) = hi :=
  extractLsb'_append_high _ _

@[simp] theorem lowNibble_append (hi lo : BitVec 4) : lowNibble (hi ++ lo) = lo :=
  extractLsb'_append_low _ _

@[simp] theorem nibbles_append (b : Byte) : (highNibble b ++ lowNibble b : BitVec 8) = b := by
  apply BitVec.eq_of_getLsbD_eq
  intro i hi
  simp only [highNibble, lowNibble, BitVec.getLsbD_append, BitVec.getLsbD_extractLsb']
  by_cases h : i < 4 <;> simp [h]
  · rw [show 4 + (i - 4) = i by omega]
    have : i - 4 < 4 := by omega
    simp [this]

/-- A back-reference is read from at least two bytes, and from three if the length code is 0. -/
theorem decodeReference_ok {bs rest : List Byte} {i : Instr} (h : decodeReference bs = .ok (i, rest)) :
    (∃ b0 b1, bs = b0 :: b1 :: rest ∧ lengthCode (be16 b0 b1) ≠ 0 ∧
      i = .ref (lengthCode (be16 b0 b1)) (distanceField (be16 b0 b1))) ∨
    (∃ b0 b1 e, bs = b0 :: b1 :: e :: rest ∧ lengthCode (be16 b0 b1) = 0 ∧
      i = .refx (distanceField (be16 b0 b1)) e) := by
  match bs, h with
  | b0 :: b1 :: tail, h =>
    simp only [decodeReference] at h
    split at h
    · next h0 =>
      match tail, h with
      | e :: tail, h =>
        simp only [Except.ok.injEq, Prod.mk.injEq] at h
        exact .inr ⟨b0, b1, e, by rw [h.2], h0, h.1.symm⟩
    · next h0 =>
      simp only [Except.ok.injEq, Prod.mk.injEq] at h
      exact .inl ⟨b0, b1, by rw [h.2], h0, h.1.symm⟩

/-- A colour block is read from at least eight bytes, by the raw comparison of its colours. -/
theorem decodeBlock_ok {bs rest : List Byte} {i : Instr} (h : decodeBlock bs = .ok (i, rest)) :
    ∃ a0 a1 b0 b1 r0 r1 r2 r3, bs = a0 :: a1 :: b0 :: b1 :: r0 :: r1 :: r2 :: r3 :: rest ∧
      ((be16 b0 b1).ult (be16 a0 a1) = true ∧ i = .cblkG (be16 a0 a1) (be16 b0 b1) r0 r1 r2 r3 ∨
       (be16 b0 b1).ult (be16 a0 a1) = false ∧ i = .cblkA (be16 a0 a1) (be16 b0 b1) r0 r1 r2 r3) := by
  match bs, h with
  | a0 :: a1 :: b0 :: b1 :: r0 :: r1 :: r2 :: r3 :: tail, h =>
    simp only [decodeBlock] at h
    split at h
    · next hg =>
      simp only [Except.ok.injEq, Prod.mk.injEq] at h
      exact ⟨a0, a1, b0, b1, r0, r1, r2, r3, by rw [h.2], .inl ⟨hg, h.1.symm⟩⟩
    · next hg =>
      simp only [Except.ok.injEq, Prod.mk.injEq] at h
      exact ⟨a0, a1, b0, b1, r0, r1, r2, r3, by rw [h.2], .inr ⟨by simpa using hg, h.1.symm⟩⟩

end Sys2Proof
end

