-- ==== Sys2Proof/Laws/Memory.lean ====
section
/-! SUPPORT. What the buffer operations do: reading after writing, the canonical form, runs of cells, the
forgotten destination, and the bytes a fetch reads. -/

namespace Sys2Proof.Machine

/-! ### Reading and writing one byte -/

@[simp] theorem Memory.read_nil (a : Nat) : Memory.read [] a = none := rfl

theorem Memory.read_cons (c : Host.Cell) (m : Memory) (a : Nat) :
    Memory.read (c :: m) a = if a = c.1 then some c.2 else Memory.read m a := rfl

/-- A write is what a read of its index returns, and leaves every other index alone. -/
theorem Memory.read_write (m : Memory) (a x : Nat) (b : Byte) :
    (m.write a b).read x = if x = a then some b else m.read x := by
  induction m with
  | nil => rfl
  | cons c m ih =>
    obtain ⟨a', b'⟩ := c
    simp only [Memory.write]
    split
    · rfl
    · split
      · next h => subst h; simp only [Memory.read_cons]; split <;> rfl
      · next h => simp only [Memory.read_cons, ih]; split <;> split <;> simp_all

@[simp] theorem Memory.read_write_self (m : Memory) (a : Nat) (b : Byte) : (m.write a b).read a = some b := by
  simp [Memory.read_write]

theorem Memory.read_write_of_ne (m : Memory) {a x : Nat} (b : Byte) (h : x ≠ a) :
    (m.write a b).read x = m.read x := by
  simp [Memory.read_write, h]

theorem Memory.isSome_read_write (m : Memory) (a x : Nat) (b : Byte) (h : (m.read x).isSome) :
    ((m.write a b).read x).isSome := by
  rw [Memory.read_write]; split <;> simp_all

/-! ### The canonical form -/

theorem Memory.wfFrom_mono {lo lo' : Nat} {m : Memory} (h : m.wfFrom lo = true) (hl : lo' ≤ lo) :
    m.wfFrom lo' = true := by
  cases m with
  | nil => rfl
  | cons c m =>
    simp only [Memory.wfFrom, Bool.and_eq_true, decide_eq_true_eq] at h ⊢
    exact ⟨⟨by omega, h.1.2⟩, h.2⟩

theorem Memory.wfFrom_write {lo a : Nat} {m : Memory} (b : Byte) (h : m.wfFrom lo = true) (hlo : lo ≤ a)
    (ha : a < 2 ^ 32) : (m.write a b).wfFrom lo = true := by
  induction m generalizing lo with
  | nil =>
    simp only [Memory.write, Memory.wfFrom, Bool.and_eq_true, decide_eq_true_eq]
    exact ⟨⟨hlo, ha⟩, trivial⟩
  | cons c m ih =>
    obtain ⟨a', b'⟩ := c
    simp only [Memory.wfFrom, Bool.and_eq_true, decide_eq_true_eq] at h
    simp only [Memory.write]
    split
    · simp only [Memory.wfFrom, Bool.and_eq_true, decide_eq_true_eq]
      exact ⟨⟨hlo, ha⟩, ⟨by omega, h.1.2⟩, h.2⟩
    · split
      · next h' =>
        subst h'
        simp only [Memory.wfFrom, Bool.and_eq_true, decide_eq_true_eq]
        exact ⟨⟨hlo, ha⟩, h.2⟩
      · simp only [Memory.wfFrom, Bool.and_eq_true, decide_eq_true_eq]
        exact ⟨h.1, ih h.2 (by omega)⟩

/-- A write below 2^32 keeps the canonical form. -/
theorem Memory.wf_write {m : Memory} {a : Nat} (b : Byte) (h : m.wf = true) (ha : a < 2 ^ 32) :
    (m.write a b).wf = true :=
  Memory.wfFrom_write b h (Nat.zero_le _) ha

theorem Memory.wf_nil : Memory.wf [] = true := rfl

/-! ### Cells in a row -/

@[simp] theorem cellsFrom_nil (a : Nat) : cellsFrom a [] = [] := rfl

@[simp] theorem cellsFrom_cons (a : Nat) (b : Byte) (bs : List Byte) :
    cellsFrom a (b :: bs) = (a, b) :: cellsFrom (a + 1) bs := rfl

theorem wfFrom_cellsFrom {lo a : Nat} {bs : List Byte} (hlo : lo ≤ a) (h : a + bs.length ≤ 2 ^ 32) :
    Memory.wfFrom lo (cellsFrom a bs) = true := by
  induction bs generalizing lo a with
  | nil => rfl
  | cons b bs ih =>
    simp only [List.length_cons] at h
    simp only [cellsFrom_cons, Memory.wfFrom, Bool.and_eq_true, decide_eq_true_eq]
    exact ⟨⟨hlo, by omega⟩, ih (Nat.le_refl _) (by omega)⟩

theorem read_cellsFrom (a x : Nat) (bs : List Byte) :
    Memory.read (cellsFrom a bs) x = if a ≤ x then bs[x - a]? else none := by
  induction bs generalizing a with
  | nil => simp
  | cons b bs ih =>
    rw [cellsFrom_cons, Memory.read_cons, ih]
    rcases Nat.lt_trichotomy x a with h | h | h
    · rw [if_neg (by simp; omega), if_neg (by omega), if_neg (by omega)]
    · subst h; simp
    · rw [if_neg (by simp; omega), if_pos (by omega), if_pos (by omega)]
      rw [show x - a = (x - (a + 1)) + 1 by omega, List.getElem?_cons_succ]

/-! ### Writing many cells -/

@[simp] theorem Memory.writeAll_nil (m : Memory) : m.writeAll [] = m := rfl

@[simp] theorem Memory.writeAll_cons (m : Memory) (c : Host.Cell) (cs : List Host.Cell) :
    m.writeAll (c :: cs) = (m.write c.1 c.2).writeAll cs := rfl

theorem Memory.writeAll_append (m : Memory) (cs ds : List Host.Cell) :
    m.writeAll (cs ++ ds) = (m.writeAll cs).writeAll ds := by
  simp [Memory.writeAll, List.foldl_append]

/-- An index no cell names reads as before. -/
theorem Memory.read_writeAll_of_not_mem (m : Memory) (cells : List Host.Cell) (x : Nat)
    (h : ∀ c ∈ cells, c.1 ≠ x) : (m.writeAll cells).read x = m.read x := by
  induction cells generalizing m with
  | nil => rfl
  | cons c cs ih =>
    rw [Memory.writeAll_cons, ih _ fun d hd => h d (by simp [hd]), Memory.read_write_of_ne]
    exact fun hx => h c (by simp) hx.symm

/-- An index exactly one cell names reads as that cell's byte. -/
theorem Memory.read_writeAll_of_mem (m : Memory) (cells : List Host.Cell) (x : Nat) (v : Byte)
    (hmem : (x, v) ∈ cells) (hone : ∀ c ∈ cells, c.1 = x → c.2 = v) : (m.writeAll cells).read x = some v := by
  induction cells generalizing m with
  | nil => simp at hmem
  | cons c cs ih =>
    rw [Memory.writeAll_cons]
    by_cases hin : (x, v) ∈ cs
    · exact ih _ hin fun d hd => hone d (by simp [hd])
    · have hc : c = (x, v) := by simpa [hin, eq_comm] using hmem
      subst hc
      rw [Memory.read_writeAll_of_not_mem _ _ _ fun d hd hdx => hin ?_, Memory.read_write_self]
      have := hone d (by simp [hd]) hdx
      rwa [← hdx, ← this]

/-- Cells below 2^32 keep the canonical form. -/
theorem Memory.wf_writeAll {m : Memory} {cells : List Host.Cell} (h : m.wf = true)
    (hc : ∀ c ∈ cells, c.1 < 2 ^ 32) : (m.writeAll cells).wf = true := by
  induction cells generalizing m with
  | nil => exact h
  | cons c cs ih =>
    exact ih (Memory.wf_write _ h (hc c (by simp))) fun d hd => hc d (by simp [hd])

theorem Memory.isSome_read_writeAll (m : Memory) (cells : List Host.Cell) (x : Nat) (h : (m.read x).isSome) :
    ((m.writeAll cells).read x).isSome := by
  induction cells generalizing m with
  | nil => exact h
  | cons c cs ih => exact ih _ (Memory.isSome_read_write m c.1 x c.2 h)

/-! ### The forgotten destination (R237) -/

theorem read_freeCells_append (e : Engine) (draw a n : Nat) (m : Memory) (x : Nat) :
    Memory.read (freeCells e draw a n ++ m) x =
      if a ≤ x ∧ x < a + n then some (Config.freeByte e draw x) else Memory.read m x := by
  induction n generalizing a with
  | zero => rw [if_neg (by omega)]; rfl
  | succ n ih =>
    simp only [freeCells, List.cons_append, Memory.read_cons, ih]
    by_cases h : x = a
    · subst h; simp
    · rw [if_neg h]
      split <;> split <;> first | rfl | omega

theorem read_filter_ge (m : Memory) (len x : Nat) (h : len ≤ x) :
    Memory.read (m.filter fun c => len ≤ c.1) x = Memory.read m x := by
  induction m with
  | nil => rfl
  | cons c m ih =>
    rw [List.filter_cons]
    split
    · simp [Memory.read_cons, ih]
    · next hc =>
      rw [ih, Memory.read_cons, if_neg]
      simp only [decide_eq_true_eq] at hc
      omega

/-- Every byte below `len` is free, every other byte is as before. -/
theorem Memory.read_forget (m : Memory) (e : Engine) (draw len x : Nat) :
    (m.forget e draw len).read x = if x < len then some (Config.freeByte e draw x) else m.read x := by
  unfold Memory.forget
  rw [read_freeCells_append]
  by_cases h : x < len
  · simp [h]
  · rw [if_neg (by omega), if_neg h, read_filter_ge _ _ _ (by omega)]

theorem Memory.wfFrom_filter_ge {lo : Nat} {m : Memory} (len : Nat) (h : m.wfFrom lo = true) :
    Memory.wfFrom (max lo len) (m.filter fun c => len ≤ c.1) = true := by
  induction m generalizing lo with
  | nil => rfl
  | cons c m ih =>
    obtain ⟨a, b⟩ := c
    simp only [Memory.wfFrom, Bool.and_eq_true, decide_eq_true_eq] at h
    have ih' := ih h.2
    rw [List.filter_cons]
    split
    · next hc =>
      simp only [decide_eq_true_eq] at hc
      simp only [Memory.wfFrom, Bool.and_eq_true, decide_eq_true_eq]
      refine ⟨⟨by omega, by omega⟩, ?_⟩
      exact Memory.wfFrom_mono ih' (by omega)
    · exact Memory.wfFrom_mono ih' (by omega)

theorem wfFrom_freeCells_append (e : Engine) (draw : Nat) {a n : Nat} {m : Memory}
    (h : m.wfFrom (a + n) = true) (hn : a + n ≤ 2 ^ 32) :
    Memory.wfFrom a (freeCells e draw a n ++ m) = true := by
  induction n generalizing a with
  | zero => exact h
  | succ n ih =>
    simp only [freeCells, List.cons_append, Memory.wfFrom, Bool.and_eq_true, decide_eq_true_eq]
    refine ⟨⟨Nat.le_refl _, by omega⟩, ih ?_ (by omega)⟩
    rwa [show a + 1 + n = a + (n + 1) by omega]

/-- Forgetting the destination keeps the canonical form. -/
theorem Memory.wf_forget {m : Memory} (e : Engine) (draw : Nat) {len : Nat} (h : m.wf = true)
    (hl : len ≤ 2 ^ 32) : (m.forget e draw len).wf = true := by
  refine wfFrom_freeCells_append e draw ?_ (by omega)
  simpa using Memory.wfFrom_filter_ge len h

/-! ### Bytes inside the length of a buffer -/

/-- The cells after a write are the written one and old ones. -/
theorem Memory.mem_write {m : Memory} {a : Nat} {b : Byte} {c : Host.Cell} (h : c ∈ m.write a b) :
    c = (a, b) ∨ c ∈ m := by
  induction m with
  | nil => simpa [Memory.write] using h
  | cons d m ih =>
    simp only [Memory.write] at h
    split at h
    · simpa using h
    · split at h
      · rcases List.mem_cons.mp h with h | h
        · exact .inl h
        · exact .inr (List.mem_cons_of_mem _ h)
      · rcases List.mem_cons.mp h with h | h
        · exact .inr (h ▸ List.mem_cons_self)
        · exact (ih h).imp_right (List.mem_cons_of_mem _)

theorem Memory.fits_nil {size : Nat} (h : size < 2 ^ 32) : Memory.Fits [] size := ⟨h, by simp⟩

theorem Memory.fits_write {m : Memory} {size a : Nat} (b : Byte) (h : m.Fits size) (ha : a < size) :
    (m.write a b).Fits size :=
  ⟨h.1, fun c hc => (Memory.mem_write hc).elim (fun e => e ▸ ha) (h.2 c)⟩

theorem Memory.fits_writeAll {m : Memory} {size : Nat} {cells : List Host.Cell} (h : m.Fits size)
    (hc : ∀ c ∈ cells, c.1 < size) : (m.writeAll cells).Fits size := by
  induction cells generalizing m with
  | nil => exact h
  | cons c cells ih =>
    exact ih (Memory.fits_write _ h (hc c List.mem_cons_self)) fun d hd => hc d (List.mem_cons_of_mem _ hd)

theorem mem_cellsFrom {a : Nat} {bs : List Byte} {c : Host.Cell} (h : c ∈ cellsFrom a bs) :
    a ≤ c.1 ∧ c.1 < a + bs.length := by
  induction bs generalizing a with
  | nil => simp at h
  | cons b bs ih =>
    rcases List.mem_cons.mp h with rfl | h
    · simp
    · have := ih h
      simp only [List.length_cons]
      omega

theorem fits_cellsFrom {bs : List Byte} (h : bs.length < 2 ^ 32) : Memory.Fits (cellsFrom 0 bs) bs.length :=
  ⟨h, fun c hc => by simpa using (mem_cellsFrom hc).2⟩

theorem mem_freeCells {e : Engine} {draw a n : Nat} {c : Host.Cell} (h : c ∈ freeCells e draw a n) :
    a ≤ c.1 ∧ c.1 < a + n := by
  induction n generalizing a with
  | zero => simp [freeCells] at h
  | succ n ih =>
    rcases List.mem_cons.mp h with rfl | h
    · simp
    · have := ih h
      omega

theorem Memory.fits_forget {m : Memory} {size len : Nat} (e : Engine) (draw : Nat) (h : m.Fits size)
    (hl : len ≤ size) : (m.forget e draw len).Fits size := by
  refine ⟨h.1, fun c hc => ?_⟩
  rcases List.mem_append.mp hc with hc | hc
  · have := mem_freeCells hc
    omega
  · exact h.2 c (List.mem_filter.mp hc).1

/-- A byte at or beyond the length of the buffer has no value. -/
theorem Memory.read_of_fits {m : Memory} {size a : Nat} (h : m.Fits size) (ha : size ≤ a) : m.read a = none := by
  have hm := h.2
  induction m with
  | nil => rfl
  | cons c m ih =>
    have hc := hm c List.mem_cons_self
    rw [Memory.read_cons, if_neg (by omega)]
    exact ih ⟨h.1, fun d hd => hm d (List.mem_cons_of_mem _ hd)⟩ fun d hd => hm d (List.mem_cons_of_mem _ hd)

/-! ### What a fetch reads (R238) -/

/-- A fetch that succeeds gives the bytes at `a`, `a + 1`, …: as many as asked for and as `len` leaves. -/
theorem readSource_ok {m : Memory} {len n a : Nat} {bs : List Byte} (h : readSource m len n a = .ok bs) :
    bs.length = min n (len - a) ∧ ∀ i, i < bs.length → m.read (a + i) = bs[i]? := by
  induction n generalizing a bs with
  | zero => simp [readSource] at h; subst h; simp
  | succ n ih =>
    unfold readSource at h
    split at h
    · simp at h; subst h; simp; omega
    · split at h
      · cases h
      · next b hb =>
        split at h
        · next bs' hbs =>
          simp at h
          subst h
          have := ih hbs
          refine ⟨by simp [this.1]; omega, fun i hi => ?_⟩
          cases i with
          | zero => simpa using hb
          | succ i =>
            rw [show a + (i + 1) = a + 1 + i by omega, this.2 i (by simpa using hi)]
            simp
        · cases h

/-- A fetch of supplied bytes succeeds. -/
theorem readSource_filled {m : Memory} {len : Nat} (hf : SourceFilled m len) (n a : Nat) :
    ∃ bs, readSource m len n a = .ok bs := by
  induction n generalizing a with
  | zero => exact ⟨[], rfl⟩
  | succ n ih =>
    unfold readSource
    by_cases h : len ≤ a
    · exact ⟨[], by simp [h]⟩
    · obtain ⟨b, hb⟩ := Option.isSome_iff_exists.mp (hf a (by omega))
      obtain ⟨bs, hbs⟩ := ih (a + 1)
      exact ⟨b :: bs, by simp [h, hb, hbs]⟩

end Sys2Proof.Machine
end

