-- ==== Sys2Proof/Laws/Ops.lean ====
section
/-! SUPPORT. One lemma for each shared operation: everything it can do. -/

namespace Sys2Proof.Machine

/-! ### Outcomes -/

@[simp] theorem andThen_next {σ τ : Type} (s : σ) (f : σ → Host.Outcome τ Fault Refusal) :
    andThen (.next s) f = f s := rfl

@[simp] theorem andThen_fault {σ τ : Type} (r : Fault) (f : σ → Host.Outcome τ Fault Refusal) :
    andThen (.fault r : Host.Outcome σ Fault Refusal) f = .fault r := rfl

@[simp] theorem andThen_refused {σ τ : Type} (r : Refusal) (f : σ → Host.Outcome τ Fault Refusal) :
    andThen (.refused r : Host.Outcome σ Fault Refusal) f = .refused r := rfl

/-- A sequence answers a next state exactly when both parts do. -/
theorem andThen_eq_next {σ τ : Type} {o : Host.Outcome σ Fault Refusal}
    {f : σ → Host.Outcome τ Fault Refusal} {t : τ} :
    andThen o f = .next t ↔ ∃ s, o = .next s ∧ f s = .next t := by
  cases o <;> simp [andThen]

/-- A turn of engine BTD changes engine BTD alone. -/
theorem onBtd_eq_next {s t : State} {o : Host.Outcome Btd Fault Refusal} :
    onBtd s o = .next t ↔ ∃ b, o = .next b ∧ t = { s with btd := b } := by
  simp only [onBtd, andThen_eq_next, Host.Outcome.next.injEq, eq_comm (b := t)]

/-- A turn of engine LZD changes engine LZD alone. -/
theorem onLzd_eq_next {s t : State} {o : Host.Outcome Lzd Fault Refusal} :
    onLzd s o = .next t ↔ ∃ l, o = .next l ∧ t = { s with lzd := l } := by
  simp only [onLzd, andThen_eq_next, Host.Outcome.next.injEq, eq_comm (b := t)]

@[simp] theorem onBtd_next (s : State) (b : Btd) : onBtd s (.next b) = .next { s with btd := b } := rfl

@[simp] theorem onLzd_next (s : State) (l : Lzd) : onLzd s (.next l) = .next { s with lzd := l } := rfl

/-! ### STATUS -/

theorem Status.legal_completed : Status.completed.Legal := by simp [Status.Legal, Status.completed]

theorem Status.legal_started : Status.started.Legal := by simp [Status.Legal, Status.started]

theorem Status.legal_raised {code : ErrCode} (h : code ≠ .none) : (Status.raised code).Legal := by
  simp [Status.Legal, Status.raised, h]

theorem Status.busy_iff (st : Status) : st.busy = true ↔ st.state = .busy := by simp [Status.busy]

/-! ### Engine BTD -/

/-- Storing pixels: every cell lies below `DST_LEN`, and `DST` is all that changes. -/
theorem Btd.store_eq_next {b b' : Btd} {cells : List Host.Cell} :
    b.store cells = .next b' ↔
      (∀ c ∈ cells, c.1 < b.dstLen.toNat) ∧ b' = { b with dst := b.dst.writeAll cells } := by
  unfold Btd.store
  by_cases h : (cells.all fun c => decide (c.1 < b.dstLen.toNat)) = true
  · rw [if_pos h]
    simp only [List.all_eq_true, decide_eq_true_eq] at h
    simp only [Host.Outcome.next.injEq]
    exact ⟨fun e => ⟨h, e.symm⟩, fun e => e.2.symm⟩
  · rw [if_neg h]
    simp only [List.all_eq_true, decide_eq_true_eq] at h
    exact ⟨fun e => (by cases e), fun e => absurd e.1 h⟩

/-- Storing pixels that fit `DST` succeeds. -/
theorem Btd.store_of_lt {b : Btd} {cells : List Host.Cell} (h : ∀ c ∈ cells, c.1 < b.dstLen.toNat) :
    b.store cells = .next { b with dst := b.dst.writeAll cells } :=
  Btd.store_eq_next.mpr ⟨h, rfl⟩

/-- What the next tile is. -/
theorem Btd.nextTile_eq (b : Btd) :
    b.nextTile = if b.tx.toNat + 1 < b.tilesPerRow then { b with tx := b.tx + 1 }
      else { b with tx := 0, ty := b.ty + 1 } := rfl

/-- The cells of a pixel lie at `PIX(x, y)` and the three bytes after it. -/
theorem mem_pixelCells {width x y : Nat} {p0 p1 p2 p3 : Byte} {c : Host.Cell} :
    c ∈ pixelCells width x y [p0, p1, p2, p3] ↔
      c = (pix width x y, p0) ∨ c = (pix width x y + 1, p1) ∨ c = (pix width x y + 2, p2) ∨
      c = (pix width x y + 3, p3) := by
  simp [pixelCells]

/-! ### Engine LZD -/

/-- Putting one byte: there is room, and the byte, the cursor and the counter are all that changes. -/
theorem Lzd.put_eq_next {l l' : Lzd} {v : Byte} :
    l.put v = .next l' ↔
      l.dp.toNat < l.dstLen.toNat ∧
      l' = { l with dst := l.dst.write l.dp.toNat v, dp := l.dp + 1, rem := l.rem - 1 } := by
  unfold Lzd.put
  split
  · next h =>
    simp only [Host.Outcome.next.injEq]
    exact ⟨fun e => ⟨h, e.symm⟩, fun e => e.2.symm⟩
  · next h => simp [h]

/-- The bytes of a copy, one by one: each is the byte `DIST` behind, and the cursors and counters move once a
byte. -/
theorem Lzd.copyBytes_succ_eq_next {l l' : Lzd} {n : Nat} :
    l.copyBytes (n + 1) = .next l' ↔
      ∃ v, l.dst.read (l.dp.toNat - l.dist.toNat) = some v ∧ l.dp.toNat < l.dstLen.toNat ∧
        Lzd.copyBytes n { l with
          dst := l.dst.write l.dp.toNat v, dp := l.dp + 1, rem := l.rem - 1, cnt := l.cnt - 1 } = .next l' := by
  rw [Lzd.copyBytes]
  split
  · next h => simp [h]
  · next v h =>
    simp only [h, andThen_eq_next, Lzd.put_eq_next, Option.some.injEq, exists_eq_left']
    constructor
    · rintro ⟨m, ⟨hr, rfl⟩, hc⟩
      exact ⟨hr, hc⟩
    · rintro ⟨hr, hc⟩
      exact ⟨_, ⟨hr, rfl⟩, hc⟩

/-- What a copy of `n` bytes changes: the `n` bytes from `DP` on, the cursors and the counters. -/
theorem Lzd.copyBytes_eq_next {l l' : Lzd} {n : Nat} (h : l.copyBytes n = .next l')
    (hfit : l.dstLen.toNat < 2 ^ 32) :
    l.dp.toNat + n ≤ max l.dp.toNat l.dstLen.toNat ∧
    l' = { l with
      dst := l'.dst, dp := l.dp + BitVec.ofNat 32 n, rem := l.rem - BitVec.ofNat 32 n
      cnt := l.cnt - BitVec.ofNat 9 n } ∧
    (∀ a, a < l.dp.toNat ∨ l.dp.toNat + n ≤ a → l'.dst.read a = l.dst.read a) := by
  induction n generalizing l with
  | zero =>
    simp only [Lzd.copyBytes, Host.Outcome.next.injEq] at h
    subst h
    simp
  | succ n ih =>
    obtain ⟨v, -, hroom, hrest⟩ := Lzd.copyBytes_succ_eq_next.mp h
    obtain ⟨hn, heq, hframe⟩ := ih hrest hfit
    have hdp : (l.dp + 1).toNat = l.dp.toNat + 1 := by
      rw [BitVec.toNat_add]; simp; omega
    simp only [hdp] at hn hframe
    refine ⟨by omega, ?_, fun a ha => ?_⟩
    · rw [heq]
      simp only [Lzd.mk.injEq, true_and, and_true]
      refine ⟨?_, ?_, ?_⟩ <;> apply BitVec.eq_of_toNat_eq <;> simp <;> omega
    · rw [hframe a (by omega), Memory.read_write_of_ne _ _ (by omega)]

/-- An error of engine LZD: STATUS says which, `SRC`, the descriptor and the cursors stay. -/
theorem Lzd.raise_eq (code : ErrCode) (l : Lzd) :
    l.raise code = { l with status := .raised code, dst := l.dstAfterError code, draws := l.draws + 1 } := rfl

/-- An error inside the stream leaves every destination byte below `DST_LEN` free. -/
theorem Lzd.read_dstAfterError {code : ErrCode} (l : Lzd) (a : Nat)
    (h : code = .truncatedSource ∨ code = .invalidBackReference) :
    (l.dstAfterError code).read a =
      if a < l.dstLen.toNat then some (Config.freeByte .lzd l.draws a) else l.dst.read a := by
  rcases h with rfl | rfl <;> exact Memory.read_forget _ _ _ _ _

theorem Lzd.wf_dstAfterError {l : Lzd} (code : ErrCode) (h : l.dst.wf = true) :
    (l.dstAfterError code).wf = true := by
  have hl := l.dstLen.isLt
  cases code
  · exact h
  · exact h
  · exact Memory.wf_forget _ _ h (by omega)
  · exact Memory.wf_forget _ _ h (by omega)

/-- A back-reference either raises `InvalidBackReference` or copies `min(LEN, REM)` bytes. -/
theorem Lzd.backReference_eq_next {l l' : Lzd} :
    l.backReference = .next l' ↔
      (l.dp.toNat < l.dist.toNat ∧ l' = l.raise .invalidBackReference) ∨
      (l.dist.toNat ≤ l.dp.toNat ∧
        ∃ m, (l.loadCount l.copyCount).copyBytes l.copyCount = .next m ∧
          l' = m.exitEarly) := by
  unfold Lzd.backReference
  split
  · next h => simp [h, eq_comm (b := l'), Nat.not_le.mpr h]
  · next h =>
    simp only [h, Nat.not_lt.mp h, andThen_eq_next, Host.Outcome.next.injEq, eq_comm (b := l'), false_and,
      false_or, true_and]

end Sys2Proof.Machine
end

