-- ==== Sys2Proof/Laws/PerInstr.lean ====
section
/-! SUPPORT. What holds of every instruction as syntax, one lemma per constructor (LAWS.json). -/

namespace Sys2Proof.Laws

/-- The encoding has the length the opcode table gives: a stream element as many bytes as it takes from the stream
(R90, R117), a BTD operation one byte (the low byte of `BTD.OP`, R91), `decompress` none (R92). -/
def EncodedLength.Statement (i : Instr) : Prop :=
  (encode i).length = if i.context = .commandBtd then 1 else i.lengthBytes

theorem EncodedLength.decodeColorBlocks :
    EncodedLength.Statement .decodeColorBlocks := by
  simp [EncodedLength.Statement, encode, Instr.context]

theorem EncodedLength.decodeIntensity8 :
    EncodedLength.Statement .decodeIntensity8 := by
  simp [EncodedLength.Statement, encode, Instr.context]

theorem EncodedLength.decodeIntensity4 :
    EncodedLength.Statement .decodeIntensity4 := by
  simp [EncodedLength.Statement, encode, Instr.context]

theorem EncodedLength.decompress :
    EncodedLength.Statement .decompress := by
  simp [EncodedLength.Statement, encode, Instr.context, Instr.lengthBytes]

theorem EncodedLength.ctrl (flags : BitVec 8) :
    EncodedLength.Statement (.ctrl flags) := by
  simp [EncodedLength.Statement, encode, Instr.context, Instr.lengthBytes]

theorem EncodedLength.lit (b : BitVec 8) :
    EncodedLength.Statement (.lit b) := by
  simp [EncodedLength.Statement, encode, Instr.context, Instr.lengthBytes]

theorem EncodedLength.ref (n : BitVec 4) (d : BitVec 12) :
    EncodedLength.Statement (.ref n d) := by
  simp [EncodedLength.Statement, encode, Instr.context, Instr.lengthBytes]

theorem EncodedLength.refx (d : BitVec 12) (e : BitVec 8) :
    EncodedLength.Statement (.refx d e) := by
  simp [EncodedLength.Statement, encode, Instr.context, Instr.lengthBytes]

theorem EncodedLength.cblkG (c1 c2 : BitVec 16) (r0 r1 r2 r3 : BitVec 8) :
    EncodedLength.Statement (.cblkG c1 c2 r0 r1 r2 r3) := by
  simp [EncodedLength.Statement, encode, Instr.context, Instr.lengthBytes]

theorem EncodedLength.cblkA (c1 c2 : BitVec 16) (r0 r1 r2 r3 : BitVec 8) :
    EncodedLength.Statement (.cblkA c1 c2 r0 r1 r2 r3) := by
  simp [EncodedLength.Statement, encode, Instr.context, Instr.lengthBytes]

theorem EncodedLength.i8px (v : BitVec 8) :
    EncodedLength.Statement (.i8px v) := by
  simp [EncodedLength.Statement, encode, Instr.context, Instr.lengthBytes]

theorem EncodedLength.i4pp (hi lo : BitVec 4) :
    EncodedLength.Statement (.i4pp hi lo) := by
  simp [EncodedLength.Statement, encode, Instr.context, Instr.lengthBytes]

end Sys2Proof.Laws
end

