-- ==== Sys2Proof/Laws/Turns.lean ====
section
/-! SUPPORT. One lemma for each kind of turn and for each element's meaning: everything it can do if it answers
a next state. -/

namespace Sys2Proof.Machine

/-- A turn of engine BTD: nothing unless BUSY; else the meaning of the element read at `SP`. -/
theorem btdTurn_eq_next {s t : State} :
    btdTurn s = .next t ↔
      (s.btd.status.busy = false ∧ t = s) ∨
      (s.btd.status.busy = true ∧ ∃ c bytes i rest, s.btd.format = some c ∧
        readSource s.btd.src s.btd.srcLen.toNat (formatLength c) s.btd.sp.toNat = .ok bytes ∧
        decode c bytes = .ok (i, rest) ∧ exec i s = .next t) := by
  unfold btdTurn
  cases hb : s.btd.status.busy
  · simp [eq_comm (b := t)]
  · cases hf : s.btd.format with
    | none => simp
    | some c =>
      cases hr : readSource s.btd.src s.btd.srcLen.toNat (formatLength c) s.btd.sp.toNat with
      | error f => simp [hr]
      | ok bytes =>
        cases hd : decode c bytes with
        | error r => simp [hr, hd]
        | ok p => obtain ⟨i, rest⟩ := p; simp [hr, hd]

/-- A turn of engine LZD: nothing unless BUSY; else the meaning of the element due, or `TruncatedSource`. -/
theorem lzdTurn_eq_next {s t : State} :
    lzdTurn s = .next t ↔
      (s.lzd.status.busy = false ∧ t = s) ∨
      (s.lzd.status.busy = true ∧ ∃ bytes, s.lzd.fetch = .ok bytes ∧
        ((∃ i rest, decode s.lzd.due bytes = .ok (i, rest) ∧ exec i s = .next t) ∨
         (∃ r, decode s.lzd.due bytes = .error r ∧ t = { s with lzd := s.lzd.starve bytes }))) := by
  unfold lzdTurn
  cases hb : s.lzd.status.busy
  · simp [eq_comm (b := t)]
  · cases hf : s.lzd.fetch with
    | error f => simp
    | ok bytes =>
      cases hd : decode s.lzd.due bytes with
      | error r => simp [hd, eq_comm (b := t)]
      | ok p => obtain ⟨i, rest⟩ := p; simp [hd]

/-- A step is the first move of the agenda, or a turn of a BUSY engine. -/
theorem step_cases (s : State) :
    (s.agenda = [] ∧ s.btd.status.busy = true ∧ step s = btdTurn s) ∨
    (s.agenda = [] ∧ s.btd.status.busy = false ∧ step s = lzdTurn s) ∨
    (∃ e rest, s.agenda = .engine e :: rest ∧ step s = engineTurn e { s with agenda := rest }) ∨
    (∃ m rest, s.agenda = .host m :: rest ∧ step s = hostTurn m { s with agenda := rest }) := by
  unfold step
  cases ha : s.agenda with
  | nil => cases hb : s.btd.status.busy <;> simp [idleTurn, hb]
  | cons turn rest => cases turn <;> simp

/-- The host may access a buffer exactly when the engine is not BUSY and, but for a read of `SRC`, the end is read. -/
theorem State.barred_eq_none {s : State} {e : Engine} {b : Buffer} {writes : Bool} :
    s.barred e b writes = none ↔
      s.engineBusy e = false ∧ (s.endUnread e = false ∨ (writes = false ∧ b = .src)) := by
  unfold State.barred
  cases s.engineBusy e <;> cases s.endUnread e <;> cases writes <;> cases b <;> simp

/-- A host write of a byte: access allowed, inside the buffer, and that byte is all that changes. -/
theorem hostWrite_eq_next {e : Engine} {b : Buffer} {a : Word} {v : Byte} {s t : State} :
    hostWrite e b a v s = .next t ↔
      s.barred e b true = none ∧ a.toNat < s.bufferSize e b ∧
      t = s.setBuffer ((s.buffer e b).write a.toNat v) e b := by
  unfold hostWrite
  cases hb : s.barred e b true
  · by_cases h : a.toNat < s.bufferSize e b <;> simp [h, eq_comm (b := t)]
  · simp

/-- A host read of a byte: access allowed, inside the buffer, a byte that is there, and `bus` is all that changes. -/
theorem hostRead_eq_next {e : Engine} {b : Buffer} {a : Word} {s t : State} :
    hostRead e b a s = .next t ↔
      s.barred e b false = none ∧ a.toNat < s.bufferSize e b ∧
      ∃ v, (s.buffer e b).read a.toNat = some v ∧ t = { s with bus := v.zeroExtend 32 } := by
  unfold hostRead
  cases hb : s.barred e b false
  · by_cases h : a.toNat < s.bufferSize e b
    · cases hr : (s.buffer e b).read a.toNat <;> simp [h, eq_comm (b := t)]
    · simp [h]
  · simp

/-- The handing over of a buffer: access allowed, a length that fits, and that buffer is all that changes. -/
theorem hostBind_eq_next {e : Engine} {b : Buffer} {m : Memory} {size : Nat} {s t : State} :
    hostBind e b m size s = .next t ↔
      s.barred e b true = none ∧ size < 2 ^ 32 ∧ t = s.handOver m size e b := by
  unfold hostBind
  cases hb : s.barred e b true
  · by_cases h : 2 ^ 32 ≤ size
    · simp only [h, if_true, true_and, Nat.not_lt.mpr h, false_and, reduceCtorEq]
    · simp only [h, if_false, true_and, Nat.not_le.mp h, Host.Outcome.next.injEq, eq_comm (b := t)]
  · simp

/-- A START write of BTD: nothing, or the operation that `OP` selects on buffers of the lengths declared. -/
theorem strobeBtd_eq_next {v : Word} {s t : State} :
    strobeBtd v s = .next t ↔
      ((v.getLsbD 0 = false ∨ s.btd.status.busy = true) ∧ t = s) ∨
      (v.getLsbD 0 = true ∧ s.btd.status.busy = false ∧ s.btd.lengthsTrue = true ∧
        ∃ i rest, decode .commandBtd [s.btd.op.zeroExtend 8] = .ok (i, rest) ∧
          exec i (s.setUnread true .btd) = .next t) := by
  unfold strobeBtd
  cases hv : v.getLsbD 0 <;> cases hb : s.btd.status.busy <;> try simp [eq_comm (b := t)]
  cases hd : decode .commandBtd [s.btd.op.zeroExtend 8] with
  | error r => simp_all
  | ok p => obtain ⟨i, rest⟩ := p; cases hl : s.btd.lengthsTrue <;> simp_all

/-- A START write of LZD: nothing, or `decompress` on buffers of the lengths declared. -/
theorem strobeLzd_eq_next {v : Word} {s t : State} :
    strobeLzd v s = .next t ↔
      ((v.getLsbD 0 = false ∨ s.lzd.status.busy = true) ∧ t = s) ∨
      (v.getLsbD 0 = true ∧ s.lzd.status.busy = false ∧ s.lzd.lengthsTrue = true ∧
        exec .decompress (s.setUnread true .lzd) = .next t) := by
  unfold strobeLzd
  cases hv : v.getLsbD 0 <;> cases hb : s.lzd.status.busy <;> try simp [eq_comm (b := t)]
  cases hl : s.lzd.lengthsTrue <;> simp [decode]

/-- A colour block: its cells fit `DST`, they are stored, and the position moves on. -/
theorem Btd.block_eq_next {b b' : Btd} {ct : ColorTable} {c1 c2 : Half} {r0 r1 r2 r3 : Byte} :
    b.block ct c1 c2 r0 r1 r2 r3 = .next b' ↔
      (∀ c ∈ blockCells b.width.toNat b.blockX b.blockY ct r0 r1 r2 r3, c.1 < b.dstLen.toNat) ∧
      b' = (((Btd.loadColors ct c1 c2 r3 { b with
          dst := b.dst.writeAll (blockCells b.width.toNat b.blockX b.blockY ct r0 r1 r2 r3) }).advance 8).nextBlock
        |>.finishTiles 8) := by
  simp only [Btd.block, andThen_eq_next, Btd.store_eq_next, Host.Outcome.next.injEq]
  constructor
  · rintro ⟨_, ⟨h, rfl⟩, rfl⟩; exact ⟨h, rfl⟩
  · rintro ⟨h, rfl⟩; exact ⟨_, ⟨h, rfl⟩, rfl⟩

/-- `I8PX`: its cells fit `DST`, they are stored, and the position moves on. -/
theorem execI8px_eq_next {v : Byte} {s t : State} :
    execI8px v s = .next t ↔
      (∀ c ∈ s.btd.i8Cells v, c.1 < s.btd.dstLen.toNat) ∧
      t = { s with btd :=
        ((Btd.advance 1 { s.btd with dst := s.btd.dst.writeAll (s.btd.i8Cells v) }).nextPixel 1 4).finishTiles 4 } := by
  simp only [execI8px, onBtd_eq_next, andThen_eq_next, Btd.store_eq_next, Host.Outcome.next.injEq]
  constructor
  · rintro ⟨_, ⟨_, ⟨h, rfl⟩, rfl⟩, rfl⟩; exact ⟨h, rfl⟩
  · rintro ⟨h, rfl⟩; exact ⟨_, ⟨_, ⟨h, rfl⟩, rfl⟩, rfl⟩

/-- `I4PP`: its cells fit `DST`, they are stored, and the position moves on. -/
theorem execI4pp_eq_next {hi lo : BitVec 4} {s t : State} :
    execI4pp hi lo s = .next t ↔
      (∀ c ∈ s.btd.i4Cells hi lo, c.1 < s.btd.dstLen.toNat) ∧
      t = { s with btd :=
        (((Btd.loadPair (hi ++ lo) { s.btd with dst := s.btd.dst.writeAll (s.btd.i4Cells hi lo) }).advance 1).nextPixel
          2 8).finishTiles 8 } := by
  simp only [execI4pp, onBtd_eq_next, andThen_eq_next, Btd.store_eq_next, Host.Outcome.next.injEq]
  constructor
  · rintro ⟨_, ⟨_, ⟨h, rfl⟩, rfl⟩, rfl⟩; exact ⟨h, rfl⟩
  · rintro ⟨h, rfl⟩; exact ⟨_, ⟨_, ⟨h, rfl⟩, rfl⟩, rfl⟩

/-- `LIT`: `TruncatedSource` without a byte left, else the byte is put and the loop may end. -/
theorem Lzd.literal_eq_next {b : Byte} {l l' : Lzd} :
    l.literal b = .next l' ↔
      (l.srcLen.toNat ≤ l.sp.toNat ∧ l' = l.raise .truncatedSource) ∨
      (l.sp.toNat < l.srcLen.toNat ∧ ∃ m, l.readByte.put b = .next m ∧ l' = m.exitEarly) := by
  unfold Lzd.literal
  split
  · next h => simp [h, eq_comm (b := l')]
  · next h =>
    simp only [Nat.not_le.mp h, h, andThen_eq_next, Host.Outcome.next.injEq, eq_comm (b := l'), false_and,
      false_or, true_and]

/-- `REF`: `TruncatedSource` without two bytes left, else the distance check and the copy. -/
theorem Lzd.shortReference_eq_next {n : BitVec 4} {d : BitVec 12} {l l' : Lzd} :
    l.shortReference n d = .next l' ↔
      (l.srcLen.toNat ≤ l.sp.toNat + 1 ∧ l' = l.raise .truncatedSource) ∨
      (l.sp.toNat + 1 < l.srcLen.toNat ∧
        ((l.loadToken (tokenOf n d)).loadLength (shortLength n)).backReference = .next l') := by
  unfold Lzd.shortReference
  split
  · next h => simp [h, eq_comm (b := l')]
  · next h => simp only [Nat.not_le.mp h, h, false_and, false_or, true_and]

/-- `REFX`: `TruncatedSource` without three bytes left, else the distance check and the copy. -/
theorem Lzd.extendedReference_eq_next {d : BitVec 12} {e : Byte} {l l' : Lzd} :
    l.extendedReference d e = .next l' ↔
      (l.srcLen.toNat ≤ l.sp.toNat + 1 ∧ l' = l.raise .truncatedSource) ∨
      (l.srcLen.toNat = l.sp.toNat + 2 ∧ l' = (l.loadToken (tokenOf 0 d)).raise .truncatedSource) ∨
      (l.sp.toNat + 2 < l.srcLen.toNat ∧
        ((l.loadToken (tokenOf 0 d)).loadExtra e).backReference = .next l') := by
  have hl := l.srcLen.isLt
  unfold Lzd.extendedReference
  split
  · next h =>
    have h1 : ¬ l.srcLen.toNat = l.sp.toNat + 2 := by omega
    have h2 : ¬ l.sp.toNat + 2 < l.srcLen.toNat := by omega
    simp [h, h1, h2, eq_comm (b := l')]
  · next h =>
    have hsp : (l.loadToken (tokenOf 0 d)).sp.toNat = l.sp.toNat + 2 := by
      change (l.sp + 2).toNat = _
      rw [BitVec.toNat_add]; simp; omega
    rw [hsp]
    split
    · next h2 =>
      have h3 : l.srcLen.toNat = l.sp.toNat + 2 := by omega
      simp [h3, eq_comm (b := l')]
    · next h2 =>
      have h3 : ¬ l.srcLen.toNat = l.sp.toNat + 2 := by omega
      simp only [h, h3, Nat.not_le.mp h2, false_and, false_or, true_and]

end Sys2Proof.Machine
end

