-- ==== Sys2Proof/Tests/Slice0.lean ====
section
/-! SUPPORT. Tests: the checks of WellFormed, words written out from the encodings, one or two single steps for each
instruction with results from spec/95_test_vectors.md (V and P numbers), and for each statement of
Obligations.lean that has hypotheses a state and operands that meet them (`witness_<Name>`). -/

namespace Sys2Proof.Tests

open Sys2Proof Sys2Proof.Machine

/-! ### Small states -/

/-- The next state of an outcome, if there is one. -/
def after (o : Host.Outcome State Fault Refusal) : Option State :=
  match o with
  | .next s => some s
  | .fault _ => none
  | .refused _ => none

/-- Engine LZD in the middle of `decompress`. -/
def lzRun (src : List Byte) (outSize sp : Word) (ctl : Byte) (bi : BitVec 4) (window : List Byte) : Lzd :=
  { Lzd.reset with
    outSize := outSize, srcLen := BitVec.ofNat 32 src.length, dstLen := outSize, status := .started, sp := sp
    dp := BitVec.ofNat 32 window.length, rem := outSize - BitVec.ofNat 32 window.length, ctl := ctl, bi := bi
    src := cellsFrom 0 src, dst := cellsFrom 0 window, srcSize := src.length, dstSize := outSize.toNat }

/-- Engine LZD waiting for START. -/
def lzIdle (src : List Byte) (outSize dstLen : Word) : Lzd :=
  { Lzd.reset with
    outSize := outSize, srcLen := BitVec.ofNat 32 src.length, dstLen := dstLen, src := cellsFrom 0 src
    srcSize := src.length, dstSize := dstLen.toNat }

/-- Engine BTD in the middle of an operation on a one-tile-wide image. -/
def btRun (op : BitVec 2) (height : Word) (src : List Byte) (sp : Word) (sb : BitVec 2) (row col : BitVec 3) : Btd :=
  { Btd.reset with
    op := op, width := 8, height := height, srcLen := BitVec.ofNat 32 src.length, dstLen := 32 * height
    status := .started, sp := sp, sb := sb, row := row, col := col, src := cellsFrom 0 src, srcSize := src.length
    dstSize := 32 * height.toNat }

/-- Engine BTD waiting for START. -/
def btIdle (op : BitVec 2) (width height srcLen dstLen : Word) : Btd :=
  { Btd.reset with
    op := op, width := width, height := height, srcLen := srcLen, dstLen := dstLen
    srcSize := srcLen.toNat, dstSize := dstLen.toNat }

/-- The machine with this engine LZD. -/
def withLzd (l : Lzd) : State := { State.reset with lzd := l, lzdUnread := l.status.busy }

/-- The machine with this engine BTD. -/
def withBtd (b : Btd) : State := { State.reset with btd := b, btdUnread := b.status.busy }

/-- The stream of V52. -/
def v52 : List Byte := [0x80, 0xAB, 0x30, 0x00]

/-- The stream of P2. -/
def p2 : List Byte := [0xE0, 0x01, 0x02, 0x03, 0x00, 0x02, 0x0C]

/-- The blocks of V30. -/
def v30 : List Byte :=
  [0xF8, 0x00, 0x00, 0x1F, 0x1B, 0x1B, 0x1B, 0x1B, 0x12, 0x34, 0x12, 0x34, 0x00, 0x55, 0xAA, 0xFF,
   0x00, 0x00, 0xFF, 0xFF, 0xE4, 0xE4, 0xE4, 0xE4, 0xFF, 0xFF, 0x00, 0x00, 0x00, 0x55, 0xAA, 0xFF]

/-- The bytes of V40. -/
def v40 : List Byte := (List.range 32).map (BitVec.ofNat 8)

/-- The bytes of V47. -/
def v47 : List Byte := [0x0F, 0xA3] ++ List.replicate 30 0

/-! ### WellFormed refuses an ill-formed term of each check -/

theorem test_wellFormed_refuses_ref_with_length_code_0 : ¬(Instr.ref 0 5).WellFormed := by decide

theorem test_wellFormed_refuses_cblkG_with_equal_colors :
    ¬(Instr.cblkG 0x1234 0x1234 0 0 0 0).WellFormed := by decide

theorem test_wellFormed_refuses_cblkA_with_falling_colors :
    ¬(Instr.cblkA 0xF800 0x001F 0 0 0 0).WellFormed := by decide

theorem test_wellFormed_accepts_cblkA_with_equal_colors :
    (Instr.cblkA 0x1234 0x1234 0 0 0 0).WellFormed := by decide

/-! ### Decoding: words written out from the layouts of 30_encoding.md -/

theorem test_decode_operations :
    decode .commandBtd [0b00#8] = .ok (.decodeColorBlocks, []) ∧
    decode .commandBtd [0b01#8] = .ok (.decodeIntensity8, []) ∧
    decode .commandBtd [0b10#8] = .ok (.decodeIntensity4, []) ∧
    decode .commandBtd [0b11#8] = .error .reservedOperation ∧
    decode .commandLzd [] = .ok (.decompress, []) := by decide

theorem test_decode_ctrl : decode .control [0b11110100#8] = .ok (.ctrl 0xF4, []) := by decide

theorem test_decode_lit : decode .literal [0b01101110#8, 0x6F] = .ok (.lit 0x6E, [0x6F]) := by decide

/-- V52 `REF 1, 5`; P1 `REF 4, 3`. -/
theorem test_decode_ref :
    decode .reference [0b00110000#8, 0b00000000#8] = .ok (.ref 3 0, []) ∧
    decode .reference [0b00010000#8, 0b00000011#8] = .ok (.ref 1 3, []) := by decide

/-- P2 `REFX 3, 30`; V11 `DIST` 4096, `LEN` 273. -/
theorem test_decode_refx :
    decode .reference [0b00000000#8, 0b00000010#8, 0b00001100#8] = .ok (.refx 2 0x0C, []) ∧
    decode .reference [0b00001111#8, 0b11111111#8, 0b11111111#8] = .ok (.refx 0xFFF 0xFF, []) := by decide

/-- V30, first block. -/
theorem test_decode_cblkG :
    decode .colorBlock [0b11111000#8, 0b00000000#8, 0b00000000#8, 0b00011111#8, 0x1B, 0x1B, 0x1B, 0xE4] =
      .ok (.cblkG 0xF800 0x001F 0x1B 0x1B 0x1B 0xE4, []) := by decide

/-- V30, second block: equal colours. -/
theorem test_decode_cblkA :
    decode .colorBlock [0b00010010#8, 0b00110100#8, 0b00010010#8, 0b00110100#8, 0x00, 0x55, 0xAA, 0xFF] =
      .ok (.cblkA 0x1234 0x1234 0x00 0x55 0xAA 0xFF, []) := by decide

theorem test_decode_i8px : decode .intensity8 [0b10000000#8] = .ok (.i8px 0x80, []) := by decide

theorem test_decode_i4pp : decode .intensity4 [0b10100011#8] = .ok (.i4pp 0xA 0x3, []) := by decide

/-- 30_encoding.md R117: the bits of a table word are the bytes in stream order, most significant first. -/
theorem test_decodeTableWord :
    decodeTableWord 8 2 = some .decodeIntensity4 ∧
    decodeTableWord 0 0 = some .decompress ∧
    decodeTableWord 16 0x3000 = some (.ref 3 0) ∧
    decodeTableWord 24 0x00020C = some (.refx 2 0x0C) ∧
    decodeTableWord 64 0xF800001F1B1B1B1B = some (.cblkG 0xF800 0x001F 0x1B 0x1B 0x1B 0x1B) := by decide

/-- A placed word is what the next step runs. -/
theorem test_withFetchWord :
    step (State.reset.withFetchWord 8 0) = exec .decodeColorBlocks (State.reset.setUnread true .btd) ∧
    step (State.reset.withFetchWord 0 0) = exec .decompress (State.reset.setUnread true .lzd) ∧
    (after (step (State.reset.withFetchWord 64 0xF800001F1B1B1B1B))).map (fun t => (t.btd.c1, t.btd.sp)) =
      some (0xF800, 8) := by
  refine ⟨rfl, rfl, by decide +kernel⟩

/-! ### The helpers (V1, V4, V12, V13, V16, V24, V25) -/

theorem test_expansions :
    exp5 0x1F = 0xFF ∧ exp5 0x15 = 0xAD ∧ exp5 0x18 = 0xC6 ∧ exp6 0x0F = 0x3C ∧ exp6 0x3E = 0xFB ∧
      exp4 0x7 = 0x77 ∧ exp3 5 = 0xB6 := by decide

/-- V25: the mode is the raw comparison, the blends are per channel. -/
theorem test_gradientTable :
    tableEntry (gradientTable 0x07E0 0x07DF) 2 = [0x00, 0xFD, 0x5F, 0xFF] ∧
    tableEntry (gradientTable 0x07E0 0x07DF) 3 = [0x00, 0xFC, 0x9F, 0xFF] := by decide

/-- V21. -/
theorem test_averageTable :
    tableEntry (averageTable 0x001F 0xF800) 2 = [0x7F, 0x00, 0x7F, 0xFF] ∧
    tableEntry (averageTable 0x001F 0xF800) 3 = [0x7F, 0x00, 0x7F, 0x00] := by decide

/-! ### Host operations -/

/-- V32: right sizes run, a short source is error 1. -/
theorem test_decodeColorBlocks :
    (after (exec .decodeColorBlocks (withBtd (btIdle 0 8 8 32 256)))).map (·.btd.status) = some ⟨.busy, .none⟩ ∧
    (after (exec .decodeColorBlocks (withBtd (btIdle 0 8 8 31 256)))).map (·.btd.status) =
      some ⟨.error, .invalidBufferSize⟩ := by decide

/-- V32: an empty image is done; 2^34 destination bytes do not wrap to 0. -/
theorem test_decodeColorBlocks_edges :
    (after (exec .decodeColorBlocks (withBtd (btIdle 0 0 8 0 0)))).map (·.btd.status) = some ⟨.done, .none⟩ ∧
    (after (exec .decodeColorBlocks (withBtd (btIdle 0 65536 65536 0 0)))).map (·.btd.status) =
      some ⟨.error, .invalidBufferSize⟩ := by decide

/-- V43: a height of 4 will do, 6 will not. -/
theorem test_decodeIntensity8 :
    (after (exec .decodeIntensity8 (withBtd (btIdle 1 8 4 32 128)))).map (·.btd.status) = some ⟨.busy, .none⟩ ∧
    (after (exec .decodeIntensity8 (withBtd (btIdle 1 8 6 48 192)))).map (·.btd.status) =
      some ⟨.error, .invalidBufferSize⟩ := by decide

/-- V48: a height of 4 will not do. -/
theorem test_decodeIntensity4 :
    (after (exec .decodeIntensity4 (withBtd (btIdle 2 8 8 32 256)))).map (·.btd.status) = some ⟨.busy, .none⟩ ∧
    (after (exec .decodeIntensity4 (withBtd (btIdle 2 8 4 16 128)))).map (·.btd.status) =
      some ⟨.error, .invalidBufferSize⟩ := by decide

/-- V52 at START: BUSY with `REM` = 6; V59: an output size of 0 is done. -/
theorem test_decompress :
    (after (exec .decompress (withLzd (lzIdle v52 6 6)))).map (fun t => (t.lzd.status.state, t.lzd.rem)) =
      some (.busy, 6) ∧
    (after (exec .decompress (withLzd (lzIdle [] 0 0)))).map (·.lzd.status) = some ⟨.done, .none⟩ := by decide

/-- V67: a negative size; V68: a destination of another length. -/
theorem test_decompress_errors :
    (after (exec .decompress (withLzd (lzIdle [0xFF, 0x01] 0xFFFFFFFF 0)))).map (·.lzd.status.word) = some 7 ∧
    (after (exec .decompress (withLzd (lzIdle [0xFF, 0x01, 0x02] 2 3)))).map (·.lzd.status.word) = some 7 := by
  decide

/-! ### LZ elements -/

/-- V52, step 1. -/
theorem test_ctrl : step (withLzd (lzRun v52 6 0 0 0 [])) = .next (withLzd (lzRun v52 6 1 0x80 8 [])) := rfl

/-- V60: no control byte. -/
theorem test_ctrl_truncated :
    (after (step (withLzd (lzRun [] 1 0 0 0 [])))).map (·.lzd.status.word) = some 0xB := by decide

/-- V52, step 2. -/
theorem test_lit :
    step (withLzd (lzRun v52 6 1 0x80 8 [])) = .next (withLzd (lzRun v52 6 2 0x80 7 [0xAB])) := rfl

/-- V61: no literal byte. -/
theorem test_lit_truncated :
    (after (step (withLzd (lzRun [0x80] 1 1 0x80 8 [])))).map (·.lzd.status.word) = some 0xB := by decide

/-- V52, step 3: the run-length copy reads bytes it has just written. -/
theorem test_ref :
    (after (step (withLzd (lzRun v52 6 2 0x80 7 [0xAB])))).map (fun t => (t.lzd.dst, t.lzd.sp, t.lzd.bi)) =
      some (cellsFrom 0 [0xAB, 0xAB, 0xAB, 0xAB, 0xAB, 0xAB], 4, 6) := by decide +kernel

/-- V58: the copy is cut at `REM` = 3; V64: no window yet. -/
theorem test_ref_edges :
    (after (step (withLzd (lzRun v52 4 2 0x80 7 [0xAB])))).map (fun t => (t.lzd.dst.length, t.lzd.status.word)) =
      some (4, 2) ∧
    (after (step (withLzd (lzRun [0x00, 0x10, 0x00] 3 1 0 8 [])))).map (·.lzd.status.word) = some 0xF := by
  decide +kernel

/-- P2: `REFX 3, 30` cut at `REM` = 4 here. -/
theorem test_refx :
    (after (step (withLzd (lzRun p2 7 4 0xE0 5 [1, 2, 3])))).map (fun t => (t.lzd.dst, t.lzd.sp, t.lzd.len)) =
      some (cellsFrom 0 [1, 2, 3, 1, 2, 3, 1], 7, 30) := by decide +kernel

/-- V66: the missing extra byte is reported before the bad distance. -/
theorem test_refx_truncated :
    (after (step (withLzd (lzRun [0x00, 0x00, 0x05] 20 1 0 8 [])))).map (·.lzd.status.word) = some 0xB := by decide

/-! ### Texture elements -/

/-- V30, first block: row 0 of the image, columns 2 and 3. -/
theorem test_cblkG :
    (after (step (withBtd (btRun 0 8 v30 0 0 0 0)))).map
      (fun t => ((List.range 8).map fun k => t.btd.dst.read (8 + k), t.btd.sp)) =
      some ([some 0x9F, some 0x00, some 0x5F, some 0xFF, some 0x5F, some 0x00, some 0x9F, some 0xFF], 8) := by
  decide +kernel

/-- V30, third block: pixel (0, 4). -/
theorem test_cblkA :
    (after (step (withBtd (btRun 0 8 v30 16 2 0 0)))).map
      (fun t => ((List.range 4).map fun k => t.btd.dst.read (128 + k), t.btd.sb)) =
      some ([some 0x7F, some 0x7F, some 0x7F, some 0x00], 3) := by
  decide +kernel

/-- V40: pixel (2, 1). -/
theorem test_i8px :
    (after (step (withBtd (btRun 1 4 v40 10 0 1 2)))).map (fun t => (t.btd.dst, t.btd.col)) =
      some (cellsFrom 40 [0x0A, 0x0A, 0x0A, 0x0A], 3) := by decide +kernel

/-- V40: the last pixel ends the operation. -/
theorem test_i8px_last :
    (after (step (withBtd (btRun 1 4 v40 31 0 3 7)))).map (·.btd.status) = some ⟨.done, .none⟩ := by decide +kernel

/-- V47: the second pair. -/
theorem test_i4pp :
    (after (step (withBtd (btRun 2 8 v47 1 0 0 2)))).map (fun t => (t.btd.dst, t.btd.col)) =
      some (cellsFrom 8 [0xAA, 0xAA, 0xAA, 0xAA, 0x33, 0x33, 0x33, 0x33], 4) := by decide +kernel

/-! ### The host -/

/-- V87. -/
theorem test_operation_code_keeps_two_bits :
    ((Btd.reset.writeDescriptor 0 0xFFFFFFFE).readRegister 0) = 2 := by decide

/-- V86. -/
theorem test_start_0_does_nothing :
    hostTurn (.writeReg .lzd 3 0) (withLzd (lzIdle v52 6 6)) = .next (withLzd (lzIdle v52 6 6)) := rfl

/-! ### Witnesses: states and operands that meet the hypotheses of the statements -/

/-- V40 at its first pixel, at its last. -/
def v40First : Btd := btRun 1 4 v40 0 0 0 0
def v40Last : Btd := btRun 1 4 v40 31 0 3 7

/-- V47 at its first pair, at its last. -/
def v47First : Btd := btRun 2 8 v47 0 0 0 0
def v47Last : Btd := btRun 2 8 v47 31 0 7 6

/-- V30 at its first block, at its last. -/
def v30First : Btd := btRun 0 8 v30 0 0 0 0
def v30Last : Btd := btRun 0 8 v30 24 3 0 0

/-- V52 at the control byte, at the literal, at the back-reference. -/
def v52Control : Lzd := lzRun v52 6 0 0 0 []
def v52Literal : Lzd := lzRun v52 6 1 0x80 8 []
def v52Reference : Lzd := lzRun v52 6 2 0x80 7 [0xAB]

/-- P2 at its back-reference. -/
def p2Reference : Lzd := lzRun p2 25 4 0xE0 5 [1, 2, 3]

/-- V51 at its last literal. -/
def v51Last : Lzd := lzRun [0xFF, 0x41, 0x42, 0x43] 3 3 0xFF 6 [0x41, 0x42]

theorem running_v52Control : v52Control.Running := ⟨by decide, by decide, by decide, by decide, by decide, by decide⟩

theorem running_v52Literal : v52Literal.Running := ⟨by decide, by decide, by decide, by decide, by decide, by decide⟩

theorem running_v52Reference : v52Reference.Running :=
  ⟨by decide, by decide, by decide, by decide, by decide, by decide⟩

theorem running_p2Reference : p2Reference.Running :=
  ⟨by decide, by decide, by decide, by decide, by decide, by decide⟩

theorem running_v51Last : v51Last.Running := ⟨by decide, by decide, by decide, by decide, by decide, by decide⟩

theorem inv_v52Control : v52Control.Inv :=
  ⟨by decide, by decide, by decide, by decide, by decide, by decide, fun _ => running_v52Control⟩

theorem inv_v30First : v30First.Inv :=
  ⟨by decide +kernel, by decide, by decide, by decide +kernel, by decide, by decide, by decide, fun _ => by decide⟩

theorem inv_v40First : v40First.Inv :=
  ⟨by decide +kernel, by decide, by decide, by decide +kernel, by decide, by decide, by decide, fun _ => by decide⟩

theorem inv_v47First : v47First.Inv :=
  ⟨by decide +kernel, by decide, by decide, by decide +kernel, by decide, by decide, by decide, fun _ => by decide⟩

/-- Both engines in the middle of an operation. -/
def bothRun : State :=
  { State.reset with btd := v30First, lzd := v52Control, btdUnread := true, lzdUnread := true }

theorem inv_bothRun : bothRun.Inv := ⟨inv_v30First, inv_v52Control, fun _ => rfl, fun _ => rfl⟩

theorem witness_DecodeEncodeRoundTrip :
    (Instr.ref 15 0xFFF).WellFormed ∧ (Instr.ref 1 0).WellFormed ∧ (Instr.cblkG 1 0 0 0 0 0).WellFormed ∧
      (Instr.cblkA 0 0 0 0 0 0).WellFormed ∧ Instr.decodeColorBlocks.WellFormed := by decide

theorem witness_DecodingDropsNoByte :
    Context.reference ≠ .commandBtd ∧ decode .reference [0x00, 0x02, 0x0C, 0x55] = .ok (.refx 2 0x0C, [0x55]) := by
  decide

theorem witness_EveryDistanceAndLengthHasOneEncoding :
    ((Instr.ref 1 0).WellFormed ∧ backReferenceOperands (.ref 1 0) = some (1, 3)) ∧
    ((Instr.ref 15 0xFFF).WellFormed ∧ backReferenceOperands (.ref 15 0xFFF) = some (4096, 17)) ∧
    ((Instr.refx 0 0).WellFormed ∧ backReferenceOperands (.refx 0 0) = some (1, 18)) ∧
    ((Instr.refx 0xFFF 0xFF).WellFormed ∧ backReferenceOperands (.refx 0xFFF 0xFF) = some (4096, 273)) := by decide

theorem witness_EveryStreamByteValueDecodes :
    Context.colorBlock ≠ .commandBtd ∧ 8 ≤ [0, 0, 0, 0, 0, 0, 0, 0].length := by decide

theorem witness_ElementDueFollowsTheFlags :
    (0 : Nat) ≤ 8 ∧ (8 : Nat) ≤ 8 ∧ v52Control.bi.toNat = 0 ∧ v52Literal.bi.toNat = 8 ∧ v52Reference.bi.toNat ≤ 8 := by decide

theorem witness_ColorsFillTheFirstTwoEntries :
    gradientTable 0xF800 0x001F = gradientTable 0xF800 0x001F ∧
    averageTable 0x001F 0xF800 = averageTable 0x001F 0xF800 := ⟨rfl, rfl⟩

theorem witness_UnpackIsInjective : unpack 0xA554 = ⟨0xA5, 0xAA, 0xA5⟩ ∧ unpack 0xA554 = unpack 0xA554 := by decide

theorem witness_DecodeColorBlocksStarts :
    ∃ s : State, s.btd.status.state ≠ .busy ∧ s.btd.width.toNat % 8 = 0 ∧ s.btd.height.toNat % 8 = 0 ∧
      s.btd.srcLen.toNat = (s.btd.width.toNat / 8) * (s.btd.height.toNat / 8) * 32 ∧
      s.btd.dstLen.toNat = s.btd.width.toNat * s.btd.height.toNat * 4 ∧ s.btd.width ≠ 0 :=
  ⟨withBtd (btIdle 0 8 8 32 256), by decide⟩

theorem witness_DecodeColorBlocksStarts_empty :
    ∃ s : State, s.btd.status.state ≠ .busy ∧ s.btd.width.toNat % 8 = 0 ∧ s.btd.height.toNat % 8 = 0 ∧
      s.btd.srcLen.toNat = (s.btd.width.toNat / 8) * (s.btd.height.toNat / 8) * 32 ∧
      s.btd.dstLen.toNat = s.btd.width.toNat * s.btd.height.toNat * 4 ∧ s.btd.width = 0 ∧ s.btd.height = 8 :=
  ⟨withBtd (btIdle 0 0 8 0 0), by decide⟩

theorem witness_DecodeIntensity8Starts :
    ∃ s : State, s.btd.status.state ≠ .busy ∧ s.btd.width.toNat % 8 = 0 ∧ s.btd.height.toNat % 4 = 0 ∧
      s.btd.srcLen.toNat = s.btd.width.toNat * s.btd.height.toNat ∧
      s.btd.dstLen.toNat = s.btd.width.toNat * s.btd.height.toNat * 4 :=
  ⟨withBtd (btIdle 1 8 4 32 128), by decide⟩

theorem witness_DecodeIntensity4Starts :
    ∃ s : State, s.btd.status.state ≠ .busy ∧ s.btd.width.toNat % 8 = 0 ∧ s.btd.height.toNat % 8 = 0 ∧
      s.btd.srcLen.toNat = s.btd.width.toNat * s.btd.height.toNat / 2 ∧
      s.btd.dstLen.toNat = s.btd.width.toNat * s.btd.height.toNat * 4 :=
  ⟨withBtd (btIdle 2 8 8 32 256), by decide⟩

theorem witness_DecompressStarts :
    (∃ s : State, s.lzd.status.state ≠ .busy ∧ 0 ≤ s.lzd.outSize.toInt ∧
      (s.lzd.dstLen.toNat : Int) = s.lzd.outSize.toInt ∧ s.lzd.outSize ≠ 0) ∧
    (∃ s : State, s.lzd.status.state ≠ .busy ∧ 0 ≤ s.lzd.outSize.toInt ∧
      (s.lzd.dstLen.toNat : Int) = s.lzd.outSize.toInt ∧ s.lzd.outSize = 0) :=
  ⟨⟨withLzd (lzIdle v52 6 6), by decide⟩, ⟨withLzd (lzIdle [] 0 0), by decide⟩⟩

/-- V32, V43 and V48: one length or one side off. -/
theorem witness_WrongSizesRaiseInvalidBufferSize_btd :
    (∃ s : State, s.btd.status.state ≠ .busy ∧ s.btd.width.toNat % 8 = 0 ∧ s.btd.height.toNat % 8 = 0 ∧
      s.btd.srcLen.toNat + 1 = (s.btd.width.toNat / 8) * (s.btd.height.toNat / 8) * 32) ∧
    (∃ s : State, s.btd.status.state ≠ .busy ∧ s.btd.width.toNat % 8 = 0 ∧ s.btd.height.toNat % 4 = 2) ∧
    (∃ s : State, s.btd.status.state ≠ .busy ∧ s.btd.width.toNat % 8 = 0 ∧ s.btd.height.toNat % 8 = 4) :=
  ⟨⟨withBtd (btIdle 0 8 8 31 256), by decide⟩, ⟨withBtd (btIdle 1 8 6 48 192), by decide⟩,
   ⟨withBtd (btIdle 2 8 4 16 128), by decide⟩⟩

/-- V67 and V68. -/
theorem witness_WrongSizesRaiseInvalidBufferSize_lzd :
    (∃ s : State, s.lzd.status.state ≠ .busy ∧ s.lzd.outSize.toInt < 0) ∧
    (∃ s : State, s.lzd.status.state ≠ .busy ∧ 0 ≤ s.lzd.outSize.toInt ∧
      (s.lzd.dstLen.toNat : Int) ≠ s.lzd.outSize.toInt) :=
  ⟨⟨withLzd (lzIdle [] 0xFFFFFFFF 0), by decide⟩, ⟨withLzd (lzIdle [] 2 3), by decide⟩⟩

theorem witness_IgnoredStartChangesNothing :
    (∃ (s : State) (v : Word), s.agenda = [.host (.writeReg .btd 5 v)] ∧ s.btd.status.state = .busy) ∧
    (∃ (s : State) (v : Word), s.agenda = [.host (.writeReg .btd 5 v)] ∧ v.getLsbD 0 = false) ∧
    (∃ (s : State) (v : Word), s.agenda = [.host (.writeReg .lzd 3 v)] ∧ s.lzd.status.state = .busy) ∧
    (∃ (s : State) (v : Word), s.agenda = [.host (.writeReg .lzd 3 v)] ∧ v.getLsbD 0 = false) :=
  ⟨⟨{ withBtd v30First with agenda := [.host (.writeReg .btd 5 1)] }, 1, rfl, rfl⟩,
   ⟨{ State.reset with agenda := [.host (.writeReg .btd 5 0xFFFFFFFE)] }, 0xFFFFFFFE, rfl, by decide⟩,
   ⟨{ withLzd v52Control with agenda := [.host (.writeReg .lzd 3 1)] }, 1, rfl, rfl⟩,
   ⟨{ State.reset with agenda := [.host (.writeReg .lzd 3 0)] }, 0, rfl, by decide⟩⟩

theorem witness_StartRunsTheSelectedOperation :
    (∃ (s : State) (v : Word), s.agenda = [.host (.writeReg .btd 5 v)] ∧ s.btd.status.state ≠ .busy ∧
      v.getLsbD 0 = true ∧ s.btd.op = 2 ∧ s.btd.srcLen.toNat = s.btd.srcSize ∧ s.btd.dstLen.toNat = s.btd.dstSize) ∧
    (∃ (s : State) (v : Word), s.agenda = [.host (.writeReg .btd 5 v)] ∧ s.btd.status.state ≠ .busy ∧
      v.getLsbD 0 = true ∧ s.btd.op = 0 ∧ s.btd.dstLen.toNat = s.btd.dstSize + 1) ∧
    (∃ (s : State) (v : Word), s.agenda = [.host (.writeReg .lzd 3 v)] ∧ s.lzd.status.state ≠ .busy ∧
      v.getLsbD 0 = true ∧ s.lzd.srcLen.toNat = s.lzd.srcSize ∧ s.lzd.dstLen.toNat = s.lzd.dstSize) ∧
    (∃ (s : State) (v : Word), s.agenda = [.host (.writeReg .lzd 3 v)] ∧ s.lzd.status.state ≠ .busy ∧
      v.getLsbD 0 = true ∧ s.lzd.dstLen.toNat = s.lzd.dstSize + 1) :=
  ⟨⟨{ withBtd (btIdle 2 8 8 32 256) with agenda := [.host (.writeReg .btd 5 1)] }, 1, rfl, by decide⟩,
   ⟨{ withBtd { btIdle 0 8 8 32 256 with dstSize := 255 } with agenda := [.host (.writeReg .btd 5 3)] }, 3, rfl,
    by decide⟩,
   ⟨{ State.reset with agenda := [.host (.writeReg .lzd 3 1)] }, 1, rfl, by decide⟩,
   ⟨{ withLzd { lzIdle v52 6 6 with dstSize := 5 } with agenda := [.host (.writeReg .lzd 3 1)] }, 1, rfl, by decide⟩⟩

theorem witness_ReservedOperationIsRefused :
    ∃ (s : State) (v : Word), s.agenda = [.host (.writeReg .btd 5 v)] ∧ s.btd.status.state ≠ .busy ∧
      v.getLsbD 0 = true ∧ s.btd.op = 3 :=
  ⟨{ withBtd (btIdle 3 8 8 32 256) with agenda := [.host (.writeReg .btd 5 1)] }, 1, rfl, by decide⟩

theorem witness_ColorBlocksWriteTheirPixels :
    v30First.status.state = .busy ∧ v30First.RunsColorBlocks ∧ v30Last.status.state = .busy ∧
    v30Last.RunsColorBlocks ∧ (Instr.cblkG 0xF800 0x001F 0x1B 0x1B 0x1B 0x1B).WellFormed ∧
    (Instr.cblkA 0x1234 0x1234 0x00 0x55 0xAA 0xFF).WellFormed := by decide

theorem witness_I8pxWritesOnePixel :
    v40First.status.state = .busy ∧ v40First.RunsIntensity8 ∧ v40Last.status.state = .busy ∧
    v40Last.RunsIntensity8 := by decide

theorem witness_I4ppWritesTwoPixels :
    v47First.status.state = .busy ∧ v47First.RunsIntensity4 ∧ v47Last.status.state = .busy ∧
    v47Last.RunsIntensity4 := by decide

theorem witness_CtrlLoadsTheFlags :
    v52Control.sp.toNat < v52Control.srcLen.toNat ∧
    (lzRun [] 1 0 0 0 []).srcLen.toNat ≤ (lzRun [] 1 0 0 0 []).sp.toNat := by decide

theorem witness_LitCopiesOneByte :
    (v52Literal.status.state = .busy ∧ v52Literal.Running ∧ v52Literal.sp.toNat < v52Literal.srcLen.toNat) ∧
    (v51Last.status.state = .busy ∧ v51Last.Running ∧ v51Last.sp.toNat < v51Last.srcLen.toNat ∧ v51Last.rem = 1) :=
  ⟨⟨rfl, running_v52Literal, by decide⟩, ⟨rfl, running_v51Last, by decide, by decide⟩⟩

theorem witness_RefCopiesFromTheWindow :
    v52Reference.status.state = .busy ∧ v52Reference.Running ∧ (Instr.ref 3 0).WellFormed ∧
    v52Reference.sp.toNat + 1 < v52Reference.srcLen.toNat ∧ (0#12).toNat + 1 ≤ v52Reference.dp.toNat :=
  ⟨rfl, running_v52Reference, by decide, by decide, by decide⟩

theorem witness_RefxCopiesFromTheWindow :
    p2Reference.status.state = .busy ∧ p2Reference.Running ∧
    p2Reference.sp.toNat + 2 < p2Reference.srcLen.toNat ∧ (2#12).toNat + 1 ≤ p2Reference.dp.toNat :=
  ⟨rfl, running_p2Reference, by decide, by decide⟩

theorem witness_BadDistanceRaisesInvalidBackReference :
    (∃ (s : State) (n : BitVec 4) (d : BitVec 12), s.lzd.sp.toNat + 1 < s.lzd.srcLen.toNat ∧
      s.lzd.dp.toNat < d.toNat + 1 ∧ (Instr.ref n d).WellFormed) ∧
    (∃ (s : State) (d : BitVec 12), s.lzd.sp.toNat + 2 < s.lzd.srcLen.toNat ∧ s.lzd.dp.toNat < d.toNat + 1) :=
  ⟨⟨withLzd v52Reference, 1, 1, by decide⟩, ⟨withLzd p2Reference, 3, by decide⟩⟩

/-- V60, V61, V62 and V63. -/
theorem witness_MissingBytesRaiseTruncatedSource :
    (∃ s : State, s.lzd.status.state = .busy ∧ s.lzd.due = .control ∧ s.lzd.srcLen.toNat ≤ s.lzd.sp.toNat) ∧
    (∃ s : State, s.lzd.status.state = .busy ∧ s.lzd.due = .literal ∧ s.lzd.srcLen.toNat ≤ s.lzd.sp.toNat) ∧
    (∃ s : State, s.lzd.status.state = .busy ∧ s.lzd.due = .reference ∧
      s.lzd.srcLen.toNat = s.lzd.sp.toNat + 1) ∧
    (∃ s : State, s.lzd.status.state = .busy ∧ s.lzd.due = .reference ∧
      s.lzd.srcLen.toNat = s.lzd.sp.toNat + 2 ∧ s.lzd.src.read s.lzd.sp.toNat = some 0x00 ∧
      s.lzd.src.read (s.lzd.sp.toNat + 1) = some 0x00 ∧ (0x00#8).toNat / 16 = 0) :=
  ⟨⟨withLzd (lzRun [] 1 0 0 0 []), by decide⟩, ⟨withLzd (lzRun [0x80] 1 1 0x80 8 []), by decide⟩,
   ⟨withLzd (lzRun [0x80, 0xAB, 0x30] 6 2 0x80 7 [0xAB]), by decide⟩,
   ⟨withLzd (lzRun [0x80, 0xAB, 0, 0] 19 2 0x80 7 [0xAB]), by decide⟩⟩

theorem witness_ElementsCheckTheirSourceBytes :
    (lzRun [0x80] 1 1 0x80 8 []).srcLen.toNat ≤ (lzRun [0x80] 1 1 0x80 8 []).sp.toNat ∧
    (lzRun [0x80, 0xAB, 0x30] 6 2 0x80 7 [0xAB]).srcLen.toNat ≤
      (lzRun [0x80, 0xAB, 0x30] 6 2 0x80 7 [0xAB]).sp.toNat + 1 ∧
    (lzRun [0x80, 0xAB, 0, 0] 19 2 0x80 7 [0xAB]).srcLen.toNat ≤
      (lzRun [0x80, 0xAB, 0, 0] 19 2 0x80 7 [0xAB]).sp.toNat + 2 := by decide

theorem witness_StepRunsTheDecodedElement_btd :
    ∃ (s : State) (i : Instr), s.agenda = [] ∧ s.btd.status.state = .busy ∧ i.WellFormed ∧
      s.btd.format = some i.context ∧
      (∀ j, j < (encode i).length → s.btd.src.read (s.btd.sp.toNat + j) = (encode i)[j]?) ∧
      s.btd.sp.toNat + (encode i).length ≤ s.btd.srcLen.toNat :=
  ⟨withBtd v30Last, .cblkG 0xFFFF 0 0x00 0x55 0xAA 0xFF, by decide +kernel⟩

theorem witness_StepRunsTheDecodedElement_lzd :
    ∃ (s : State) (i : Instr), s.agenda = [.engine .lzd] ∧ s.lzd.status.state = .busy ∧ i.WellFormed ∧
      s.lzd.due = i.context ∧
      (∀ j, j < (encode i).length → s.lzd.src.read (s.lzd.sp.toNat + j) = (encode i)[j]?) ∧
      s.lzd.sp.toNat + (encode i).length ≤ s.lzd.srcLen.toNat :=
  ⟨{ withLzd p2Reference with agenda := [.engine .lzd] }, .refx 2 0x0C, by decide⟩

theorem witness_RestingEngineExecutesNothing :
    (∃ (s : State) (e : Engine), s.agenda = [.engine e] ∧ s.engineBusy e = false) ∧
    (∃ s : State, s.agenda = [] ∧ s.engineBusy .btd = false ∧ s.engineBusy .lzd = false) :=
  ⟨⟨{ State.reset with agenda := [.engine .lzd] }, .lzd, by decide⟩, ⟨State.reset, by decide⟩⟩

theorem witness_EngineTurnChangesOnlyItsEngine :
    (∃ t, engineTurn .btd bothRun = .next t) ∧ (∃ t, engineTurn .lzd bothRun = .next t) := ⟨⟨_, rfl⟩, ⟨_, rfl⟩⟩

theorem witness_EnginesDoNotInterfere :
    (∃ t, turns .btd 1 bothRun = .next t) ∧ (∃ u, turns .lzd 2 bothRun = .next u) := ⟨⟨_, rfl⟩, ⟨_, rfl⟩⟩

theorem witness_StreamCursorNeverDecreases :
    (∃ s t : State, s.btd.Inv ∧ s.btd.status.state = .busy ∧ engineTurn .btd s = .next t) ∧
    (∃ s t : State, s.lzd.Inv ∧ s.lzd.status.state = .busy ∧ engineTurn .lzd s = .next t) :=
  ⟨⟨bothRun, _, inv_v30First, rfl, rfl⟩, ⟨bothRun, _, inv_v52Control, rfl, rfl⟩⟩

theorem witness_DescriptorWritesReadBack :
    Btd.reset.status.state ≠ .busy ∧ Lzd.reset.status.state ≠ .busy ∧ (4 : Nat) ≠ 5 ∧ (2 : Nat) ≠ 3 := by decide

theorem witness_DescriptorWritesWhileBusyAreIgnored :
    bothRun.engineBusy .btd = true ∧ bothRun.engineBusy .lzd = true := by decide

/-- V52 done, its end not yet read. -/
def v52Done : State :=
  { withLzd { lzRun v52 6 4 0x80 6 [0xAB, 0xAB, 0xAB, 0xAB, 0xAB, 0xAB] with status := .completed } with
    lzdUnread := true }

/-- R74: before the host has read DONE a read of `DST` is refused; after it the byte is there. -/
theorem test_end_must_be_read :
    hostTurn (.readByte .lzd .dst 0) v52Done = .refused .endUnread ∧
    hostTurn (.readReg .lzd 4) v52Done = .next { v52Done with bus := 2, lzdUnread := false } ∧
    hostTurn (.readByte .lzd .dst 0) { v52Done with lzdUnread := false } =
      .next { v52Done with bus := 0xAB, lzdUnread := false } := ⟨rfl, rfl, rfl⟩

/-- R133 `L-LEN`: a `DST_LEN` beyond the `DST` handed over. -/
theorem test_untrue_lengths :
    hostTurn (.writeReg .lzd 3 1) (withLzd { lzIdle v52 6 6 with dstSize := 5 }) = .refused .lengthsUntrue := rfl

theorem witness_BuffersAreTheHostsMemory :
    (∃ (s : State) (e : Engine) (b : Buffer) (a : Word) (v : Byte), s.engineBusy e = false ∧ s.endUnread e = false ∧
      v52.length < 2 ^ 32 ∧ a.toNat + 1 = s.bufferSize e b ∧ (s.buffer e b).read a.toNat = some v) ∧
    (∃ (s : State) (e : Engine) (a : Word) (v : Byte), s.engineBusy e = false ∧ s.endUnread e = true ∧
      a.toNat < s.bufferSize e .src ∧ (s.buffer e .src).read a.toNat = some v) :=
  ⟨⟨withLzd (lzIdle v52 6 6), .lzd, .src, 3, 0x00, by decide⟩, ⟨v52Done, .lzd, 0, 0x80, by decide⟩⟩

theorem witness_HostWaitsUntilTheEndIsRead :
    (∃ (s : State) (e : Engine), s.engineBusy e = true) ∧
    (∃ (s : State) (e : Engine), s.engineBusy e = false ∧ s.endUnread e = true) ∧
    (∃ (s t : State) (e : Engine), step s = .next t ∧ s.endUnread e = true ∧ t.endUnread e = false) :=
  ⟨⟨bothRun, .btd, by decide⟩, ⟨v52Done, .lzd, by decide⟩,
   ⟨{ v52Done with agenda := [.host (.readReg .lzd 4)] }, _, .lzd, rfl, by decide, by decide⟩⟩

theorem witness_OnlyTheEngineTouchesItsBuffers :
    (∃ s t : State, step s = .next t ∧ s.agenda.head? ≠ some (.host .reset) ∧ s.lzdUnread = true ∧
      s.lzd.status.state ≠ .busy) ∧
    (∃ s t : State, step s = .next t ∧ s.agenda.head? = some (.host (.readReg .btd 6)) ∧
      s.btd.status.state = .busy) :=
  ⟨⟨v52Done, _, rfl, by decide, by decide, by decide⟩,
   ⟨{ bothRun with agenda := [.host (.readReg .btd 6)] }, _, rfl, by decide, by decide⟩⟩

theorem witness_ResetLeavesBothEnginesIdle :
    (State.reset.btd.status.state ≠ .busy ∧ State.reset.btdUnread = false) ∧
    (State.reset.lzd.status.state ≠ .busy ∧ State.reset.lzdUnread = false) ∧
    bothRun.btd.dstSize ≤ 256 ∧ bothRun.lzd.dstSize ≤ 6 := by decide

theorem witness_FinishedEngineWaitsForStartOrReset :
    ∃ s t : State, step s = .next t ∧ s.agenda.head? ≠ some (.host .reset) ∧ s.btd.status.state ≠ .busy ∧
      s.agenda.head? = some (.host (.writeReg .btd 5 0)) ∧ s.lzd.status.state ≠ .busy :=
  ⟨{ State.reset with agenda := [.host (.writeReg .btd 5 0)] }, _, rfl, by decide, by decide, rfl, by decide⟩

theorem witness_EveryStepKeepsTheInvariant : ∃ s t : State, s.Inv ∧ step s = .next t ∧ s.btd.status.state = .busy :=
  ⟨bothRun, _, inv_bothRun, rfl, rfl⟩

theorem witness_EngineTurnsNeverFault :
    (∃ s : State, s.btd.Inv ∧ SourceFilled s.btd.src s.btd.srcLen.toNat ∧ s.btd.status.state = .busy) ∧
    (∃ s : State, s.lzd.Inv ∧ SourceFilled s.lzd.src s.lzd.srcLen.toNat ∧ s.lzd.status.state = .busy) :=
  ⟨⟨bothRun, inv_v30First, by decide +kernel, rfl⟩, ⟨bothRun, inv_v52Control, by decide, rfl⟩⟩

theorem witness_DecompressEnds :
    ∃ s : State, s.lzd.Inv ∧ s.lzd.status.state = .busy ∧ SourceFilled s.lzd.src s.lzd.srcLen.toNat :=
  ⟨withLzd v52Control, inv_v52Control, rfl, by decide⟩

theorem witness_OldDestinationHasNoInfluence :
    ∃ (s t : State) (m : Memory), (∀ a, a < s.lzd.dp.toNat → m.read a = s.lzd.dst.read a) ∧ m ≠ s.lzd.dst ∧
      turns .lzd 1 s = .next t :=
  ⟨withLzd v52Reference, _, [(0, 0xAB), (3, 0x77)], by decide, by decide, rfl⟩

theorem witness_ResultIsAFunctionOfTheInputs :
    ∃ s s' t t' u : State, s.lzd.status.state ≠ .busy ∧ s'.lzd.status.state ≠ .busy ∧
      s'.lzd.outSize = s.lzd.outSize ∧ s'.lzd.srcLen = s.lzd.srcLen ∧ s'.lzd.dstLen = s.lzd.dstLen ∧
      (∀ a, a < s.lzd.srcLen.toNat → s'.lzd.src.read a = s.lzd.src.read a) ∧ s'.lzd.dst ≠ s.lzd.dst ∧
      exec .decompress s = .next t ∧ exec .decompress s' = .next t' ∧ turns .lzd 3 t = .next u :=
  ⟨withLzd (lzIdle v52 6 6), withLzd { lzIdle v52 6 6 with dst := [(2, 0x77)] }, _, _, _, by decide, by decide, rfl,
    rfl, rfl, by decide, by decide, rfl, rfl, rfl⟩

theorem witness_TruncatedStreamRaisesTruncatedSource :
    ∃ (s t : State) (srcLen : Word), s.lzd.status.state = .busy ∧ turns .lzd 3 s = .next t ∧
      t.lzd.status = ⟨.done, .none⟩ ∧ srcLen.toNat < t.lzd.sp.toNat :=
  ⟨withLzd v52Control, _, 3, rfl, rfl, by decide +kernel, by decide +kernel⟩

theorem witness_TrailingSourceBytesAreIgnored :
    ∃ (s t : State) (src : Memory) (srcLen : Word), turns .lzd 3 s = .next t ∧ t.lzd.status = ⟨.done, .none⟩ ∧
      t.lzd.sp.toNat ≤ srcLen.toNat ∧ (∀ a, a < t.lzd.sp.toNat → src.read a = s.lzd.src.read a) ∧
      srcLen ≠ s.lzd.srcLen :=
  ⟨withLzd v52Control, _, cellsFrom 0 (v52 ++ [0xDE]), 5, rfl, by decide +kernel, by decide +kernel,
    by decide +kernel, by decide⟩

theorem witness_LiteralGroupIsCopiedVerbatim :
    ∃ (s : State) (bytes : List Byte), s.lzd.status.state ≠ .busy ∧ 1 ≤ bytes.length ∧ bytes.length ≤ 8 ∧
      s.lzd.outSize.toNat = bytes.length ∧ s.lzd.dstLen.toNat = bytes.length ∧
      s.lzd.srcLen.toNat = bytes.length + 1 ∧
      (∀ j, j < bytes.length + 1 → s.lzd.src.read j = (0xFF#8 :: bytes)[j]?) :=
  ⟨withLzd (lzIdle [0xFF, 0x41, 0x42, 0x43] 3 3), [0x41, 0x42, 0x43], by decide⟩

/-- The bytes of a source as a function. -/
def byteOf (bytes : List Byte) (a : Nat) : Byte := bytes.getD a 0

theorem witness_DecodeIntensity8Result :
    ∃ (s : State) (src : Nat → Byte), s.btd.status.state ≠ .busy ∧ s.btd.op = 1 ∧
      s.btd.width.toNat % 8 = 0 ∧ s.btd.height.toNat % 4 = 0 ∧
      s.btd.srcLen.toNat = s.btd.width.toNat * s.btd.height.toNat ∧
      s.btd.dstLen.toNat = s.btd.width.toNat * s.btd.height.toNat * 4 ∧
      (∀ a, a < s.btd.srcLen.toNat → s.btd.src.read a = some (src a)) :=
  ⟨withBtd { btIdle 1 8 4 32 128 with src := cellsFrom 0 v40 }, byteOf v40, by decide +kernel⟩

theorem witness_DecodeIntensity4Result :
    ∃ (s : State) (src : Nat → Byte), s.btd.status.state ≠ .busy ∧ s.btd.op = 2 ∧
      s.btd.width.toNat % 8 = 0 ∧ s.btd.height.toNat % 8 = 0 ∧
      s.btd.srcLen.toNat = s.btd.width.toNat * s.btd.height.toNat / 2 ∧
      s.btd.dstLen.toNat = s.btd.width.toNat * s.btd.height.toNat * 4 ∧
      (∀ a, a < s.btd.srcLen.toNat → s.btd.src.read a = some (src a)) :=
  ⟨withBtd { btIdle 2 8 8 32 256 with src := cellsFrom 0 v47 }, byteOf v47, by decide +kernel⟩

theorem witness_DecodeColorBlocksResult :
    ∃ (s : State) (src : Nat → Byte), s.btd.status.state ≠ .busy ∧ s.btd.op = 0 ∧
      s.btd.width.toNat % 8 = 0 ∧ s.btd.height.toNat % 8 = 0 ∧
      s.btd.srcLen.toNat = (s.btd.width.toNat / 8) * (s.btd.height.toNat / 8) * 32 ∧
      s.btd.dstLen.toNat = s.btd.width.toNat * s.btd.height.toNat * 4 ∧
      (∀ a, a < s.btd.srcLen.toNat → s.btd.src.read a = some (src a)) :=
  ⟨withBtd { btIdle 0 8 8 32 256 with src := cellsFrom 0 v30 }, byteOf v30, by decide +kernel⟩

end Sys2Proof.Tests
end

section
/-! SUPPORT. What an instruction means on its engine: the arms of `exec`, the engine an instruction belongs to, and
what each parse context decodes to. -/

namespace Sys2Proof

/-- The engine whose instructions stand in a parse context (R20, R90). -/
def Context.engine : Context → Engine
  | .commandBtd => .btd
  | .colorBlock => .btd
  | .intensity8 => .btd
  | .intensity4 => .btd
  | .commandLzd => .lzd
  | .control => .lzd
  | .literal => .lzd
  | .reference => .lzd

/-- What bits [1:0] of the operation byte select (R23, R91, R112). -/
theorem decodeOperation_eq (op : Byte) :
    decodeOperation op =
      if op.toNat % 4 = 0 then .ok .decodeColorBlocks
      else if op.toNat % 4 = 1 then .ok .decodeIntensity8
      else if op.toNat % 4 = 2 then .ok .decodeIntensity4
      else .error .reservedOperation := by
  have hcode : (op.extractLsb' 0 2).toNat = op.toNat % 4 := by simp [BitVec.extractLsb'_toNat]
  unfold decodeOperation
  rw [← hcode]
  split
  · next h => rw [h]; rfl
  · next h => rw [h]; rfl
  · next h => rw [h]; rfl
  · next h0 h1 h2 =>
    have hne0 : (op.extractLsb' 0 2).toNat ≠ 0 := fun e => h0 (BitVec.eq_of_toNat_eq e)
    have hne1 : (op.extractLsb' 0 2).toNat ≠ 1 := fun e => h1 (BitVec.eq_of_toNat_eq e)
    have hne2 : (op.extractLsb' 0 2).toNat ≠ 2 := fun e => h2 (BitVec.eq_of_toNat_eq e)
    rw [if_neg hne0, if_neg hne1, if_neg hne2]

/-- What is decoded in a context stands in that context (R90, R99). -/
theorem context_of_decode {c : Context} {bytes rest : List Byte} {i : Instr} (h : decode c bytes = .ok (i, rest)) :
    i.context = c := by
  cases c with
  | commandBtd =>
    cases bytes with
    | nil => cases h
    | cons op bytes =>
      simp only [decode, decodeOperation_eq] at h
      split_ifs at h <;> cases h <;> rfl
  | commandLzd => cases h; rfl
  | control => cases bytes <;> cases h; rfl
  | literal => cases bytes <;> cases h; rfl
  | reference =>
    obtain ⟨_, _, _, _, rfl⟩ | ⟨_, _, _, _, _, rfl⟩ := decodeReference_ok h <;> rfl
  | colorBlock =>
    obtain ⟨_, _, _, _, _, _, _, _, _, ⟨_, rfl⟩ | ⟨_, rfl⟩⟩ := decodeBlock_ok h <;> rfl
  | intensity8 => cases bytes <;> cases h; rfl
  | intensity4 => cases bytes <;> cases h; rfl

/-- Decoding the bytes of a well-formed instruction gives it back, with the bytes after it (R115, R116). -/
theorem decode_encode_append {i : Instr} (hi : i.WellFormed) (rest : List Byte) :
    decode i.context (encode i ++ rest) = .ok (i, rest) := by
  cases i with
  | decodeColorBlocks => simp [decode, encode, Instr.context, decodeOperation_eq]
  | decodeIntensity8 => simp [decode, encode, Instr.context, decodeOperation_eq]
  | decodeIntensity4 => simp [decode, encode, Instr.context, decodeOperation_eq]
  | decompress => rfl
  | ctrl => rfl
  | lit => rfl
  | ref n d =>
    have hn : ¬ n = 0#4 := by simpa using (bne_iff_ne.mp hi : n ≠ 0)
    simp [decode, encode, Instr.context, decodeReference, hn]
  | refx d e => simp [decode, encode, Instr.context, decodeReference]
  | cblkG c1 c2 =>
    have hc : c2.ult c1 = true := hi
    simp [decode, encode, Instr.context, decodeBlock, hc]
  | cblkA c1 c2 =>
    have hc : ¬ c2.ult c1 = true := by
      have := hi
      simp only [Instr.WellFormed, Instr.wellFormed, BitVec.ule_eq_decide, decide_eq_true_eq] at this
      simpa [BitVec.ult_eq_decide] using this
    simp only [decode, encode, Instr.context, decodeBlock, List.cons_append, List.nil_append, be16_high_low, hc]
    rfl
  | i8px => rfl
  | i4pp => simp [decode, encode, Instr.context]

end Sys2Proof

namespace Sys2Proof.Machine

/-! ### The arms of `exec` -/

theorem exec_decodeColorBlocks (s : State) :
    exec .decodeColorBlocks s = .next { s with btd := s.btd.operation colorBlocksSizesOk 8 } := rfl
theorem exec_decodeIntensity8 (s : State) :
    exec .decodeIntensity8 s = .next { s with btd := s.btd.operation intensity8SizesOk 4 } := rfl
theorem exec_decodeIntensity4 (s : State) :
    exec .decodeIntensity4 s = .next { s with btd := s.btd.operation intensity4SizesOk 8 } := rfl
theorem exec_decompress (s : State) : exec .decompress s = .next { s with lzd := s.lzd.operation } := rfl

/-! ### The operation `OP` selects, the element due -/

/-- The format of a running operation is that of the operation `OP` selects (R23, R90). -/
theorem Btd.format_eq_some {b : Btd} {c : Context} :
    b.format = some c ↔
      b.op = 0 ∧ c = .colorBlock ∨ b.op = 1 ∧ c = .intensity8 ∨ b.op = 2 ∧ c = .intensity4 := by
  unfold Btd.format
  split <;> simp_all [eq_comm (b := c)]

theorem Btd.engine_of_format {b : Btd} {c : Context} (h : b.format = some c) : c.engine = .btd := by
  rcases Btd.format_eq_some.mp h with ⟨-, rfl⟩ | ⟨-, rfl⟩ | ⟨-, rfl⟩ <;> rfl

/-- A `CTRL` is due exactly when no flag is left, and a stream element of LZD is due in any case (R99, R190). -/
theorem Lzd.due_cases (l : Lzd) :
    l.bi = 0 ∧ l.due = .control ∨ l.bi ≠ 0 ∧ (l.due = .literal ∨ l.due = .reference) := by
  unfold Lzd.due
  split_ifs <;> simp_all

theorem Lzd.engine_due (l : Lzd) : l.due.engine = .lzd := by
  rcases l.due_cases with ⟨-, h⟩ | ⟨-, h | h⟩ <;> rw [h] <;> rfl

/-! ### An engine runs on its own part of the state (R20, R78) -/

theorem onBtd_with_lzd (s : State) (l : Lzd) (o : Host.Outcome Btd Fault Refusal) :
    onBtd { s with lzd := l } o = andThen (onBtd s o) fun t => .next { t with lzd := l } := by
  cases o <;> rfl

theorem onLzd_with_btd (s : State) (b : Btd) (o : Host.Outcome Lzd Fault Refusal) :
    onLzd { s with btd := b } o = andThen (onLzd s o) fun t => .next { t with btd := b } := by
  cases o <;> rfl

/-- What an instruction of engine BTD does is a function of engine BTD. -/
theorem exec_onBtd {i : Instr} (hi : i.context.engine = .btd) :
    ∃ f : Btd → Host.Outcome Btd Fault Refusal, ∀ s, exec i s = onBtd s (f s.btd) :=
  match i, hi with
  | .decodeColorBlocks, _ => ⟨fun b => .next (b.operation colorBlocksSizesOk 8), fun _ => rfl⟩
  | .decodeIntensity8, _ => ⟨fun b => .next (b.operation intensity8SizesOk 4), fun _ => rfl⟩
  | .decodeIntensity4, _ => ⟨fun b => .next (b.operation intensity4SizesOk 8), fun _ => rfl⟩
  | .cblkG c1 c2 r0 r1 r2 r3, _ => ⟨fun b => b.block (gradientTable c1 c2) c1 c2 r0 r1 r2 r3, fun _ => rfl⟩
  | .cblkA c1 c2 r0 r1 r2 r3, _ => ⟨fun b => b.block (averageTable c1 c2) c1 c2 r0 r1 r2 r3, fun _ => rfl⟩
  | .i8px v, _ =>
    ⟨fun b => andThen (b.store (b.i8Cells v)) fun b' => .next (((b'.advance 1).nextPixel 1 4).finishTiles 4),
      fun _ => rfl⟩
  | .i4pp hi lo, _ =>
    ⟨fun b => andThen (b.store (b.i4Cells hi lo)) fun b' =>
      .next ((((b'.loadPair (hi ++ lo)).advance 1).nextPixel 2 8).finishTiles 8), fun _ => rfl⟩

/-- What an instruction of engine LZD does is a function of engine LZD. -/
theorem exec_onLzd {i : Instr} (hi : i.context.engine = .lzd) :
    ∃ f : Lzd → Host.Outcome Lzd Fault Refusal, ∀ s, exec i s = onLzd s (f s.lzd) :=
  match i, hi with
  | .decompress, _ => ⟨fun l => .next l.operation, fun _ => rfl⟩
  | .ctrl flags, _ =>
    ⟨fun l => .next (if l.srcLen.toNat ≤ l.sp.toNat then l.raise .truncatedSource else l.readByte.loadFlags flags),
      fun _ => rfl⟩
  | .lit b, _ => ⟨fun l => l.takeFlag.literal b, fun _ => rfl⟩
  | .ref n d, _ => ⟨fun l => l.takeFlag.shortReference n d, fun _ => rfl⟩
  | .refx d e, _ => ⟨fun l => l.takeFlag.extendedReference d e, fun _ => rfl⟩

/-- An instruction of engine BTD changes engine BTD alone. -/
theorem exec_keeps_all_but_btd {i : Instr} {s t : State} (hi : i.context.engine = .btd) (h : exec i s = .next t) :
    t = { s with btd := t.btd } := by
  obtain ⟨f, hf⟩ := exec_onBtd hi
  obtain ⟨b, -, rfl⟩ := onBtd_eq_next.mp (hf s ▸ h)
  rfl

/-- An instruction of engine LZD changes engine LZD alone. -/
theorem exec_keeps_all_but_lzd {i : Instr} {s t : State} (hi : i.context.engine = .lzd) (h : exec i s = .next t) :
    t = { s with lzd := t.lzd } := by
  obtain ⟨f, hf⟩ := exec_onLzd hi
  obtain ⟨l, -, rfl⟩ := onLzd_eq_next.mp (hf s ▸ h)
  rfl

/-- An instruction of engine BTD does not see engine LZD. -/
theorem exec_with_lzd {i : Instr} (hi : i.context.engine = .btd) (s : State) (l : Lzd) :
    exec i { s with lzd := l } = andThen (exec i s) fun t => .next { t with lzd := l } := by
  obtain ⟨f, hf⟩ := exec_onBtd hi
  rw [hf, hf, onBtd_with_lzd]

/-- An instruction of engine LZD does not see engine BTD. -/
theorem exec_with_btd {i : Instr} (hi : i.context.engine = .lzd) (s : State) (b : Btd) :
    exec i { s with btd := b } = andThen (exec i s) fun t => .next { t with btd := b } := by
  obtain ⟨f, hf⟩ := exec_onLzd hi
  rw [hf, hf, onLzd_with_btd]

/-- A turn of engine BTD does not see engine LZD. -/
theorem btdTurn_with_lzd {s t : State} (l : Lzd) (h : btdTurn s = .next t) :
    btdTurn { s with lzd := l } = .next { t with lzd := l } := by
  rcases btdTurn_eq_next.mp h with ⟨hb, rfl⟩ | ⟨hb, c, bytes, i, rest, hf, hr, hd, hx⟩
  · exact btdTurn_eq_next.mpr (.inl ⟨hb, rfl⟩)
  · refine btdTurn_eq_next.mpr (.inr ⟨hb, c, bytes, i, rest, hf, hr, hd, ?_⟩)
    rw [exec_with_lzd (context_of_decode hd ▸ Btd.engine_of_format hf), hx, andThen_next]

/-- A turn of engine LZD does not see engine BTD. -/
theorem lzdTurn_with_btd {s t : State} (b : Btd) (h : lzdTurn s = .next t) :
    lzdTurn { s with btd := b } = .next { t with btd := b } := by
  rcases lzdTurn_eq_next.mp h with ⟨hb, rfl⟩ | ⟨hb, bytes, hf, ⟨i, rest, hd, hx⟩ | ⟨r, hd, rfl⟩⟩
  · exact lzdTurn_eq_next.mpr (.inl ⟨hb, rfl⟩)
  · refine lzdTurn_eq_next.mpr (.inr ⟨hb, bytes, hf, .inl ⟨i, rest, hd, ?_⟩⟩)
    rw [exec_with_btd (context_of_decode hd ▸ s.lzd.engine_due), hx, andThen_next]
  · exact lzdTurn_eq_next.mpr (.inr ⟨hb, bytes, hf, .inr ⟨r, hd, rfl⟩⟩)

/-- A turn of engine BTD changes engine BTD alone. -/
theorem btdTurn_keeps_rest {s t : State} (h : btdTurn s = .next t) : t = { s with btd := t.btd } := by
  rcases btdTurn_eq_next.mp h with ⟨-, rfl⟩ | ⟨-, c, bytes, i, rest, hf, -, hd, hx⟩
  · rfl
  · exact exec_keeps_all_but_btd (context_of_decode hd ▸ Btd.engine_of_format hf) hx

/-- A turn of engine LZD changes engine LZD alone. -/
theorem lzdTurn_keeps_rest {s t : State} (h : lzdTurn s = .next t) : t = { s with lzd := t.lzd } := by
  rcases lzdTurn_eq_next.mp h with ⟨-, rfl⟩ | ⟨-, bytes, -, ⟨i, rest, hd, hx⟩ | ⟨-, -, rfl⟩⟩
  · rfl
  · exact exec_keeps_all_but_lzd (context_of_decode hd ▸ s.lzd.engine_due) hx
  · rfl

/-- `n + 1` turns are one turn and `n` more. -/
theorem turns_succ_eq_next {e : Engine} {n : Nat} {s t : State} :
    turns e (n + 1) s = .next t ↔ ∃ u, engineTurn e s = .next u ∧ turns e n u = .next t :=
  andThen_eq_next

theorem btdTurns_keep_rest {n : Nat} {s t : State} (h : turns .btd n s = .next t) : t = { s with btd := t.btd } := by
  induction n generalizing s with
  | zero => cases h; rfl
  | succ n ih =>
    obtain ⟨u, hu, hn⟩ := turns_succ_eq_next.mp h
    rw [ih hn, btdTurn_keeps_rest hu]

theorem lzdTurns_keep_rest {n : Nat} {s t : State} (h : turns .lzd n s = .next t) : t = { s with lzd := t.lzd } := by
  induction n generalizing s with
  | zero => cases h; rfl
  | succ n ih =>
    obtain ⟨u, hu, hn⟩ := turns_succ_eq_next.mp h
    rw [ih hn, lzdTurn_keeps_rest hu]

/-- A run of engine BTD is the same beside any engine LZD. -/
theorem btdTurns_with_lzd {n : Nat} {s t : State} (l : Lzd) (h : turns .btd n s = .next t) :
    turns .btd n { s with lzd := l } = .next { t with lzd := l } := by
  induction n generalizing s with
  | zero => cases h; rfl
  | succ n ih =>
    obtain ⟨u, hu, hn⟩ := turns_succ_eq_next.mp h
    exact turns_succ_eq_next.mpr ⟨{ u with lzd := l }, btdTurn_with_lzd l hu, ih hn⟩

/-- A run of engine LZD is the same beside any engine BTD. -/
theorem lzdTurns_with_btd {n : Nat} {s t : State} (b : Btd) (h : turns .lzd n s = .next t) :
    turns .lzd n { s with btd := b } = .next { t with btd := b } := by
  induction n generalizing s with
  | zero => cases h; rfl
  | succ n ih =>
    obtain ⟨u, hu, hn⟩ := turns_succ_eq_next.mp h
    exact turns_succ_eq_next.mpr ⟨{ u with btd := b }, lzdTurn_with_btd b hu, ih hn⟩

/-- Settles O37: each run takes its engine as far as it goes and carries the other engine along, so either order ends
with both engines moved. -/
theorem enginesDoNotInterfere : Obligations.EnginesDoNotInterfere := by
  intro n m s t u ht hu
  refine ⟨{ s with btd := t.btd, lzd := u.lzd }, ?_, ?_⟩
  · have hm := lzdTurns_with_btd t.btd hu
    rw [← btdTurns_keep_rest ht] at hm
    rw [hm, lzdTurns_keep_rest hu]
  · have hn := btdTurns_with_lzd u.lzd ht
    rw [← lzdTurns_keep_rest hu] at hn
    rw [hn, btdTurns_keep_rest ht]

/-- Settles O5. -/
theorem operationCodesDecode : Obligations.OperationCodesDecode := by
  intro op rest
  simp only [decode, decodeOperation_eq]
  split_ifs <;> rfl

end Sys2Proof.Machine
end

section
/-! SUPPORT. Engine BTD: what a START and a turn can do, how the position moves, and what keeps its invariant. -/

namespace Sys2Proof.Machine

/-! ### START of an operation (R121 to R128) -/

/-- Everything a START can do with an engine at rest: reject the sizes, complete an image without a tile, begin. -/
theorem Btd.operation_cases (ok : Nat → Nat → Nat → Nat → Bool) (H : Nat) {b : Btd} (hb : b.status.state ≠ .busy) :
    (ok b.width.toNat b.height.toNat b.srcLen.toNat b.dstLen.toNat = false ∧
      b.operation ok H = b.start.raise .invalidBufferSize) ∨
    (ok b.width.toNat b.height.toNat b.srcLen.toNat b.dstLen.toNat = true ∧
      (b.width.toNat / 8 = 0 ∨ b.height.toNat / H = 0) ∧ b.operation ok H = b.start.complete) ∨
    (ok b.width.toNat b.height.toNat b.srcLen.toNat b.dstLen.toNat = true ∧
      0 < b.width.toNat / 8 ∧ 0 < b.height.toNat / H ∧ b.operation ok H = b.start) := by
  have hidle : b.status.busy = false := by simpa [Status.busy] using hb
  unfold Btd.operation
  rw [if_neg (by simp [hidle])]
  cases hok : ok b.width.toNat b.height.toNat b.srcLen.toNat b.dstLen.toNat
  · exact .inl ⟨rfl, rfl⟩
  · by_cases he : b.width.toNat / 8 = 0 ∨ b.height.toNat / H = 0
    · exact .inr (.inl ⟨rfl, he, by rw [if_neg (by simp), if_pos he]⟩)
    · have hpos := not_or.mp he
      exact .inr (.inr ⟨rfl, Nat.pos_of_ne_zero hpos.1, Nat.pos_of_ne_zero hpos.2, by
        rw [if_neg (by simp), if_neg he]⟩)

/-- With right sizes the operation starts, or is done at once if the image has no pixel. -/
theorem Btd.operation_of_sizesOk {ok : Nat → Nat → Nat → Nat → Bool} {H : Nat} {b : Btd}
    (hb : b.status.state ≠ .busy) (hok : ok b.width.toNat b.height.toNat b.srcLen.toNat b.dstLen.toNat = true)
    (hw : b.width.toNat % 8 = 0) (hh : b.height.toNat % H = 0) :
    b.operation ok H =
      { b.start with status := if b.width = 0 ∨ b.height = 0 then ⟨.done, .none⟩ else ⟨.busy, .none⟩ } := by
  have hempty : (b.width.toNat / 8 = 0 ∨ b.height.toNat / H = 0) ↔ (b.width = 0 ∨ b.height = 0) := by
    have hdiv : ∀ (x : Word) (k : Nat), x.toNat % k = 0 → (x.toNat / k = 0 ↔ x = 0) := by
      intro x k hx
      have := Nat.div_add_mod x.toNat k
      constructor
      · intro h
        apply BitVec.eq_of_toNat_eq
        rw [h, hx] at this
        simpa using this.symm
      · rintro rfl; simp
    rw [hdiv _ _ hw, hdiv _ _ hh]
  rcases Btd.operation_cases ok H hb with ⟨h, -⟩ | ⟨-, he, h⟩ | ⟨-, h8, hH, h⟩
  · rw [hok] at h; cases h
  · rw [h, if_pos (hempty.mp he)]; rfl
  · rw [h, if_neg fun he => by have := hempty.mpr he; omega]; rfl

/-- A START keeps the descriptor and the buffers, whatever it answers (R46, R127, R237). -/
theorem Btd.operation_keeps (ok : Nat → Nat → Nat → Nat → Bool) (H : Nat) (b : Btd) :
    (b.operation ok H).src = b.src ∧ (b.operation ok H).dst = b.dst ∧
      (b.operation ok H).srcSize = b.srcSize ∧ (b.operation ok H).dstSize = b.dstSize := by
  unfold Btd.operation
  split_ifs <;> exact ⟨rfl, rfl, rfl, rfl⟩

/-! ### A turn while BUSY -/

/-- `k` is `b` after an element's pixels are stored: the cells lie below `DST_LEN`, and besides `DST` only the registers
that no later element reads may differ. -/
structure Btd.Stores (b k : Btd) : Prop where
  frame : ∃ dst c1 c2 bits nib ct, k = { b with dst := dst, c1 := c1, c2 := c2, bits := bits, nib := nib, ct := ct }
  cells : ∃ cells : List Host.Cell, (∀ c ∈ cells, c.1 < b.dstLen.toNat) ∧ k.dst = b.dst.writeAll cells

/-- How the engine goes on once the pixels are stored: `SP` past the element, the position to the next one, and `done`
after the last. -/
inductive Btd.Advances (k : Btd) : Btd → Prop where
  | block (hop : k.op = 0) : Advances k ((k.advance 8).nextBlock.finishTiles 8)
  | pixel (hop : k.op = 1) : Advances k (((k.advance 1).nextPixel 1 4).finishTiles 4)
  | pair (hop : k.op = 2) : Advances k (((k.advance 1).nextPixel 2 8).finishTiles 8)

/-- Loading the colours of a block after its cells are stored. -/
theorem Btd.stores_loadColors (ct : ColorTable) (c1 c2 : Half) (r3 : Byte) {b : Btd} {cells : List Host.Cell}
    (hfit : ∀ c ∈ cells, c.1 < b.dstLen.toNat) :
    b.Stores (Btd.loadColors ct c1 c2 r3 { b with dst := b.dst.writeAll cells }) :=
  ⟨⟨_, c1, c2, drainedBits r3, b.nib, ct, rfl⟩, cells, hfit, rfl⟩

/-- A block is stored, then the position advances. -/
theorem Btd.stores_of_block {b b' : Btd} {ct : ColorTable} {c1 c2 : Half} {r0 r1 r2 r3 : Byte} (hop : b.op = 0)
    (h : b.block ct c1 c2 r0 r1 r2 r3 = .next b') : ∃ k, b.Stores k ∧ k.Advances b' := by
  obtain ⟨hfit, rfl⟩ := Btd.block_eq_next.mp h
  exact ⟨_, Btd.stores_loadColors ct c1 c2 r3 hfit, .block hop⟩

/-- Everything a turn of a BUSY engine BTD can do: it stores the pixels of one element and advances. -/
theorem btdTurn_busy {s t : State} (hb : s.btd.status.state = .busy) (h : btdTurn s = .next t) :
    ∃ k b, s.btd.Stores k ∧ k.Advances b ∧ t = { s with btd := b } := by
  rcases btdTurn_eq_next.mp h with ⟨hidle, -⟩ | ⟨-, c, bytes, i, rest, hf, -, hd, hx⟩
  · simp [Status.busy, hb] at hidle
  have hc := context_of_decode hd
  rcases Btd.format_eq_some.mp hf with ⟨hop, rfl⟩ | ⟨hop, rfl⟩ | ⟨hop, rfl⟩
  · match i, hc, hx with
    | .cblkG .., _, hx | .cblkA .., _, hx =>
      obtain ⟨b, hblock, rfl⟩ := onBtd_eq_next.mp hx
      obtain ⟨k, hk, hkb⟩ := Btd.stores_of_block hop hblock
      exact ⟨k, b, hk, hkb, rfl⟩
  · match i, hc, hx with
    | .i8px v, _, hx =>
      obtain ⟨hfit, rfl⟩ := execI8px_eq_next.mp hx
      exact ⟨_, _, ⟨⟨_, _, _, _, _, _, rfl⟩, _, hfit, rfl⟩, .pixel hop, rfl⟩
  · match i, hc, hx with
    | .i4pp hi lo, _, hx =>
      obtain ⟨hfit, rfl⟩ := execI4pp_eq_next.mp hx
      exact ⟨_, _, ⟨⟨_, _, _, _, _, _, rfl⟩, _, hfit, rfl⟩, .pair hop, rfl⟩

/-- A turn of an engine at rest does nothing (R261). -/
theorem btdTurn_idle {s : State} (hb : s.btd.status.state ≠ .busy) : btdTurn s = .next s :=
  btdTurn_eq_next.mpr (.inl ⟨by simpa [Status.busy] using hb, rfl⟩)

/-! ### How the position moves (R103, R150, R151, R172, R175) -/

/-- To the next tile: its number is one more, and it is inside the image or past its last row of tiles. -/
theorem Btd.nextTile_moves {b : Btd} {H : Nat} (hin : b.TileInside H) (hty : b.height.toNat / H < 2 ^ 29) :
    b.nextTile.tx.toNat < b.tilesPerRow ∧ b.nextTile.ty.toNat ≤ b.height.toNat / H ∧
      b.nextTile.tileIndex = b.tileIndex + 1 := by
  obtain ⟨htx, hrow⟩ := hin
  have htpr : b.tilesPerRow < 2 ^ 29 := by
    have := b.width.isLt
    simp only [Btd.tilesPerRow]
    omega
  rw [Btd.nextTile_eq]
  split
  · next hlast =>
    have hnext : (b.tx + 1).toNat = b.tx.toNat + 1 := by
      rw [BitVec.toNat_add]; simp; omega
    refine ⟨hnext ▸ hlast, hrow.le, ?_⟩
    change b.ty.toNat * b.tilesPerRow + (b.tx + 1).toNat = _
    rw [hnext]
    rfl
  · next hlast =>
    have hnext : (b.ty + 1).toNat = b.ty.toNat + 1 := by
      rw [BitVec.toNat_add]; simp; omega
    refine ⟨Nat.zero_lt_of_lt htx, by rw [hnext]; exact hrow, ?_⟩
    change (b.ty + 1).toNat * b.tilesPerRow + 0 = b.ty.toNat * b.tilesPerRow + b.tx.toNat + 1
    rw [hnext, Nat.succ_mul]
    omega

/-- To the next sub-block, four to a tile. -/
theorem Btd.nextBlock_moves {b : Btd} (hin : b.TileInside 8) :
    b.nextBlock.tx.toNat < b.tilesPerRow ∧ b.nextBlock.ty.toNat ≤ b.height.toNat / 8 ∧
      4 * b.nextBlock.tileIndex + b.nextBlock.sb.toNat = 4 * b.tileIndex + b.sb.toNat + 1 := by
  have hsb := b.sb.isLt
  unfold Btd.nextBlock
  split
  · next h =>
    have hh := b.height.isLt
    obtain ⟨htx, hty, hidx⟩ := Btd.nextTile_moves (b := b.firstBlock) hin (by simp; omega)
    refine ⟨htx, hty, ?_⟩
    rw [hidx, h]
    simp [Btd.tileIndex, Btd.tilesPerRow]
    omega
  · next h =>
    have hne : b.sb.toNat ≠ 3 := fun e => h (BitVec.eq_of_toNat_eq e)
    refine ⟨hin.1, hin.2.le, ?_⟩
    change 4 * b.tileIndex + (b.sb + 1).toNat = _
    rw [BitVec.toNat_add]
    simp
    omega

/-- To the next pixel or pair, eight columns to a row and `H` rows to a tile. -/
theorem Btd.nextPixel_moves {b : Btd} {stride H : Nat} (hin : b.TileInside H) (hty : b.height.toNat / H < 2 ^ 29)
    (hrow : b.row.toNat < H) (hH : H ≤ 8) (hcol : b.col.toNat + stride ≤ 8) :
    (b.nextPixel stride H).tx.toNat < b.tilesPerRow ∧ (b.nextPixel stride H).ty.toNat ≤ b.height.toNat / H ∧
      (b.nextPixel stride H).row.toNat < H ∧
      ((b.nextPixel stride H).col.toNat = 0 ∨ (b.nextPixel stride H).col.toNat = b.col.toNat + stride) ∧
      8 * H * (b.nextPixel stride H).tileIndex + 8 * (b.nextPixel stride H).row.toNat +
          (b.nextPixel stride H).col.toNat =
        8 * H * b.tileIndex + 8 * b.row.toNat + b.col.toNat + stride := by
  unfold Btd.nextPixel
  split
  · next hright =>
    have hnext : (b.col + BitVec.ofNat 3 stride).toNat = b.col.toNat + stride := by
      rw [BitVec.toNat_add]; simp; omega
    refine ⟨hin.1, hin.2.le, hrow, .inr hnext, ?_⟩
    change 8 * H * b.tileIndex + 8 * b.row.toNat + (b.col + BitVec.ofNat 3 stride).toNat = _
    omega
  · next hright =>
    unfold Btd.nextRow
    split
    · next hdown =>
      have hnext : (b.row + 1).toNat = b.row.toNat + 1 := by
        rw [BitVec.toNat_add]; simp; omega
      refine ⟨hin.1, hin.2.le, hnext ▸ hdown, .inl rfl, ?_⟩
      change 8 * H * b.tileIndex + 8 * (b.row + 1).toNat + 0 = _
      omega
    · next hdown =>
      obtain ⟨htx, hty', hidx⟩ := Btd.nextTile_moves (b := b.firstPixel) hin hty
      refine ⟨htx, hty', by simp; omega, .inl (by simp), ?_⟩
      rw [hidx, show b.firstPixel.tileIndex = b.tileIndex from rfl, Nat.mul_succ, show H = b.row.toNat + 1 by omega]
      simp
      omega

/-! ### What a running operation keeps (R103, R123 to R125) -/

/-- A tile of the image is one of `(W/8) * (H/h)`. -/
theorem Btd.tileIndex_lt {b : Btd} {H : Nat} (hin : b.TileInside H) :
    b.tileIndex + 1 ≤ b.tilesPerRow * (b.height.toNat / H) := by
  obtain ⟨htx, hrow⟩ := hin
  calc b.ty.toNat * b.tilesPerRow + b.tx.toNat + 1 ≤ b.ty.toNat * b.tilesPerRow + b.tilesPerRow := by omega
    _ = b.tilesPerRow * (b.ty.toNat + 1) := by ring
    _ ≤ b.tilesPerRow * (b.height.toNat / H) := Nat.mul_le_mul_left _ hrow

/-- Moving the stream cursor inside the source does not wrap. -/
theorem toNat_add_ofNat {a len : Word} {n : Nat} (h : a.toNat + n ≤ len.toNat) :
    (a + BitVec.ofNat 32 n).toNat = a.toNat + n := by
  have := len.isLt
  rw [BitVec.toNat_add]
  simp
  omega

/-- The source of `decodeColorBlocks` is 32 bytes for each tile (R103, R123). -/
theorem Btd.srcLen_of_colorBlocks {b : Btd}
    (h : colorBlocksSizesOk b.width.toNat b.height.toNat b.srcLen.toNat b.dstLen.toNat = true) :
    b.srcLen.toNat = 32 * (b.tilesPerRow * (b.height.toNat / 8)) := by
  simp only [colorBlocksSizesOk, Bool.and_eq_true, decide_eq_true_eq] at h
  rw [h.1.2, Nat.mul_comm]
  rfl

/-- The source of `decodeIntensity8` is 32 bytes for each tile (R103, R124). -/
theorem Btd.srcLen_of_intensity8 {b : Btd}
    (h : intensity8SizesOk b.width.toNat b.height.toNat b.srcLen.toNat b.dstLen.toNat = true) :
    b.srcLen.toNat = 32 * (b.tilesPerRow * (b.height.toNat / 4)) := by
  simp only [intensity8SizesOk, Bool.and_eq_true, decide_eq_true_eq] at h
  obtain ⟨⟨⟨hw, hh⟩, hsrc⟩, -⟩ := h
  calc b.srcLen.toNat = b.width.toNat * b.height.toNat := hsrc
    _ = (8 * b.tilesPerRow) * (4 * (b.height.toNat / 4)) := by
      rw [Btd.tilesPerRow, Nat.mul_div_cancel' (Nat.dvd_of_mod_eq_zero hw),
        Nat.mul_div_cancel' (Nat.dvd_of_mod_eq_zero hh)]
    _ = 32 * (b.tilesPerRow * (b.height.toNat / 4)) := by ring

/-- The source of `decodeIntensity4` is 32 bytes for each tile (R103, R125). -/
theorem Btd.srcLen_of_intensity4 {b : Btd}
    (h : intensity4SizesOk b.width.toNat b.height.toNat b.srcLen.toNat b.dstLen.toNat = true) :
    b.srcLen.toNat = 32 * (b.tilesPerRow * (b.height.toNat / 8)) := by
  simp only [intensity4SizesOk, Bool.and_eq_true, decide_eq_true_eq] at h
  obtain ⟨⟨⟨hw, hh⟩, hsrc⟩, -⟩ := h
  have harea : b.width.toNat * b.height.toNat = 64 * (b.tilesPerRow * (b.height.toNat / 8)) :=
    calc b.width.toNat * b.height.toNat = (8 * b.tilesPerRow) * (8 * (b.height.toNat / 8)) := by
          rw [Btd.tilesPerRow, Nat.mul_div_cancel' (Nat.dvd_of_mod_eq_zero hw),
            Nat.mul_div_cancel' (Nat.dvd_of_mod_eq_zero hh)]
      _ = 64 * (b.tilesPerRow * (b.height.toNat / 8)) := by ring
  omega

/-- An operation that goes on after an element has rows of tiles left. -/
theorem Btd.ty_lt_of_finishTiles_busy {b : Btd} {H : Nat} (h : (b.finishTiles H).status.state = .busy) :
    b.ty.toNat < b.height.toNat / H := by
  rw [Btd.finishTiles_status] at h
  split at h
  · cases h
  · omega

@[simp] theorem Btd.finishTiles_tileIndex (H : Nat) (b : Btd) : (b.finishTiles H).tileIndex = b.tileIndex := by
  simp [Btd.tileIndex, Btd.tilesPerRow]

/-- A colour block moves `SP` by 8 inside the source, and the position with it. -/
theorem Btd.runsColorBlocks_next {b : Btd} (hr : b.RunsColorBlocks) :
    b.sp.toNat + 8 ≤ b.srcLen.toNat ∧
      (((b.advance 8).nextBlock.finishTiles 8).status.state = .busy →
        ((b.advance 8).nextBlock.finishTiles 8).RunsColorBlocks) := by
  obtain ⟨hok, hin, hrow, hcol, hsp⟩ := hr
  have hsrc := Btd.srcLen_of_colorBlocks hok
  have hlt := Btd.tileIndex_lt hin
  have hsb := b.sb.isLt
  have hroom : b.sp.toNat + 8 ≤ b.srcLen.toNat := by omega
  have hspn : (b.sp + 8).toNat = b.sp.toNat + 8 := toNat_add_ofNat hroom
  obtain ⟨htx, -, hidx⟩ := Btd.nextBlock_moves (b := b.advance 8) hin
  refine ⟨hroom, fun hbusy => ⟨by simpa using hok, ⟨?_, ?_⟩, by simpa using hrow, by simpa using hcol, ?_⟩⟩
  · simpa [Btd.tilesPerRow] using htx
  · simpa using Btd.ty_lt_of_finishTiles_busy hbusy
  · rw [show (b.advance 8).tileIndex = b.tileIndex from rfl] at hidx
    simp only [Btd.finishTiles_sp, Btd.nextBlock_sp, Btd.advance_sp, Btd.finishTiles_tileIndex, Btd.finishTiles_sb,
      Btd.advance_sb, hspn] at hidx ⊢
    omega

/-- A pixel of `decodeIntensity8` moves `SP` by 1 inside the source, and the position with it. -/
theorem Btd.runsIntensity8_next {b : Btd} (hr : b.RunsIntensity8) :
    b.sp.toNat + 1 ≤ b.srcLen.toNat ∧
      ((((b.advance 1).nextPixel 1 4).finishTiles 4).status.state = .busy →
        (((b.advance 1).nextPixel 1 4).finishTiles 4).RunsIntensity8) := by
  obtain ⟨hok, hin, hsb, hrow, hsp⟩ := hr
  have hsrc := Btd.srcLen_of_intensity8 hok
  have hlt := Btd.tileIndex_lt hin
  have hcol := b.col.isLt
  have hroom : b.sp.toNat + 1 ≤ b.srcLen.toNat := by omega
  have hspn : (b.sp + 1).toNat = b.sp.toNat + 1 := toNat_add_ofNat hroom
  have hty : b.height.toNat / 4 < 2 ^ 29 := by
    have := Nat.le_mul_of_pos_left (b.height.toNat / 4) (Nat.zero_lt_of_lt hin.1)
    have := b.srcLen.isLt
    omega
  obtain ⟨htx, -, hrow', -, hidx⟩ :=
    Btd.nextPixel_moves (b := b.advance 1) (stride := 1) hin hty hrow (by omega) (by simp; omega)
  refine ⟨hroom, fun hbusy => ⟨by simpa using hok, ⟨?_, ?_⟩, by simpa using hsb, by simpa using hrow', ?_⟩⟩
  · simpa [Btd.tilesPerRow] using htx
  · simpa using Btd.ty_lt_of_finishTiles_busy hbusy
  · rw [show (b.advance 1).tileIndex = b.tileIndex from rfl] at hidx
    simp only [Btd.finishTiles_sp, Btd.nextPixel_sp, Btd.advance_sp, Btd.finishTiles_tileIndex, Btd.finishTiles_row,
      Btd.finishTiles_col, Btd.advance_row, Btd.advance_col, hspn] at hidx ⊢
    omega

/-- A pair of `decodeIntensity4` moves `SP` by 1 inside the source, and the position with it. -/
theorem Btd.runsIntensity4_next {b : Btd} (hr : b.RunsIntensity4) :
    b.sp.toNat + 1 ≤ b.srcLen.toNat ∧
      ((((b.advance 1).nextPixel 2 8).finishTiles 8).status.state = .busy →
        (((b.advance 1).nextPixel 2 8).finishTiles 8).RunsIntensity4) := by
  obtain ⟨hok, hin, hsb, heven, hsp⟩ := hr
  have hsrc := Btd.srcLen_of_intensity4 hok
  have hlt := Btd.tileIndex_lt hin
  have hcol := b.col.isLt
  have hrow := b.row.isLt
  have hh := b.height.isLt
  have hroom : b.sp.toNat + 1 ≤ b.srcLen.toNat := by omega
  have hspn : (b.sp + 1).toNat = b.sp.toNat + 1 := toNat_add_ofNat hroom
  obtain ⟨htx, -, -, hcol', hidx⟩ :=
    Btd.nextPixel_moves (b := b.advance 1) (stride := 2) hin (by simp; omega) (by simpa using hrow) (by omega)
      (by simp; omega)
  simp only [Btd.advance_col] at hcol'
  refine ⟨hroom, fun hbusy => ⟨by simpa using hok, ⟨?_, ?_⟩, by simpa using hsb, ?_, ?_⟩⟩
  · simpa [Btd.tilesPerRow] using htx
  · simpa using Btd.ty_lt_of_finishTiles_busy hbusy
  · rw [Btd.finishTiles_col]; omega
  · rw [show (b.advance 1).tileIndex = b.tileIndex from rfl] at hidx
    simp only [Btd.finishTiles_sp, Btd.nextPixel_sp, Btd.advance_sp, Btd.finishTiles_tileIndex, Btd.finishTiles_row,
      Btd.finishTiles_col, Btd.advance_row, Btd.advance_col, hspn] at hidx ⊢
    omega

/-- Storing pixels does not touch the position. -/
theorem Btd.Stores.running {b k : Btd} (h : b.Stores k) (hr : b.Running) : k.Running := by
  obtain ⟨_, _, _, _, _, _, rfl⟩ := h.frame
  exact hr

theorem Btd.cursor_moves {k b : Btd} {n : Nat} (hn : 0 < n) (hroom : k.sp.toNat + n ≤ k.srcLen.toNat)
    (hsp : b.sp = k.sp + BitVec.ofNat 32 n) : k.sp.toNat < b.sp.toNat ∧ b.sp.toNat ≤ k.srcLen.toNat := by
  rw [hsp, toNat_add_ofNat hroom]
  omega

/-- An element moves `SP` up inside the source, and the operation that goes on is a running one. -/
theorem Btd.Advances.running {k b : Btd} (h : k.Advances b) (hr : k.Running) :
    k.sp.toNat < b.sp.toNat ∧ b.sp.toNat ≤ k.srcLen.toNat ∧ (b.status.state = .busy → b.Running) := by
  cases h with
  | block hop =>
    obtain ⟨-, hr⟩ | ⟨hop', -⟩ | ⟨hop', -⟩ := hr
    · obtain ⟨hroom, hnext⟩ := Btd.runsColorBlocks_next hr
      obtain ⟨hup, hle⟩ :=
        Btd.cursor_moves (b := (k.advance 8).nextBlock.finishTiles 8) (by decide) hroom (by simp)
      exact ⟨hup, hle, fun hbusy => .inl ⟨by simpa using hop, hnext hbusy⟩⟩
    · simp [hop] at hop'
    · simp [hop] at hop'
  | pixel hop =>
    obtain ⟨hop', -⟩ | ⟨-, hr⟩ | ⟨hop', -⟩ := hr
    · simp [hop] at hop'
    · obtain ⟨hroom, hnext⟩ := Btd.runsIntensity8_next hr
      obtain ⟨hup, hle⟩ :=
        Btd.cursor_moves (b := ((k.advance 1).nextPixel 1 4).finishTiles 4) (by decide) hroom (by simp)
      exact ⟨hup, hle, fun hbusy => .inr (.inl ⟨by simpa using hop, hnext hbusy⟩)⟩
    · simp [hop] at hop'
  | pair hop =>
    obtain ⟨hop', -⟩ | ⟨hop', -⟩ | ⟨-, hr⟩ := hr
    · simp [hop] at hop'
    · simp [hop] at hop'
    · obtain ⟨hroom, hnext⟩ := Btd.runsIntensity4_next hr
      obtain ⟨hup, hle⟩ :=
        Btd.cursor_moves (b := ((k.advance 1).nextPixel 2 8).finishTiles 8) (by decide) hroom (by simp)
      exact ⟨hup, hle, fun hbusy => .inr (.inr ⟨by simpa using hop, hnext hbusy⟩)⟩

/-! ### The invariant of engine BTD -/

/-- The descriptor, `SRC` and the lengths of the buffers are the same. -/
structure Btd.SameJob (k b : Btd) : Prop where
  op : b.op = k.op
  width : b.width = k.width
  height : b.height = k.height
  srcLen : b.srcLen = k.srcLen
  dstLen : b.dstLen = k.dstLen
  src : b.src = k.src
  srcSize : b.srcSize = k.srcSize
  dstSize : b.dstSize = k.dstSize

theorem Btd.Stores.sameJob {b k : Btd} (h : b.Stores k) : b.SameJob k := by
  obtain ⟨_, _, _, _, _, _, rfl⟩ := h.frame
  constructor <;> rfl

theorem Btd.Advances.sameJob {k b : Btd} (h : k.Advances b) : k.SameJob b := by
  cases h <;> constructor <;> simp

theorem Btd.SameJob.trans {b k m : Btd} (h : b.SameJob k) (h' : k.SameJob m) : b.SameJob m :=
  ⟨h'.op.trans h.op, h'.width.trans h.width, h'.height.trans h.height, h'.srcLen.trans h.srcLen,
    h'.dstLen.trans h.dstLen, h'.src.trans h.src, h'.srcSize.trans h.srcSize, h'.dstSize.trans h.dstSize⟩

theorem Btd.Advances.dst {k b : Btd} (h : k.Advances b) : b.dst = k.dst := by
  cases h <;> simp

/-- After an element the operation goes on or is done. -/
theorem Btd.Advances.status {k b : Btd} (h : k.Advances b) : b.status = .completed ∨ b.status = k.status := by
  cases h <;> rw [Btd.finishTiles_status] <;> split <;> simp

/-- An element of a running operation keeps the invariant. -/
theorem Btd.inv_of_element {b k b' : Btd} (hinv : b.Inv) (hb : b.status.state = .busy) (hs : b.Stores k)
    (ha : k.Advances b') : b'.Inv := by
  have hjob := hs.sameJob.trans ha.sameJob
  have hstatus : b'.status = .completed ∨ b'.status = b.status := by
    obtain ⟨_, _, _, _, _, _, rfl⟩ := hs.frame
    exact ha.status
  obtain ⟨cells, hfit, hdst⟩ := hs.cells
  have hdst' : b'.dst = b.dst.writeAll cells := ha.dst.trans hdst
  have htrue := hinv.lengths hb
  have hlen : b.dstLen.toNat = b.dstSize := by
    simp only [Btd.lengthsTrue, Bool.and_eq_true, decide_eq_true_eq] at htrue
    exact htrue.2
  exact {
    srcWf := hjob.src ▸ hinv.srcWf
    dstWf := hdst' ▸ Memory.wf_writeAll hinv.dstWf fun c hc => (hfit c hc).trans b.dstLen.isLt
    legal := by rcases hstatus with h | h <;> rw [h]; exacts [Status.legal_completed, hinv.legal]
    srcFits := hjob.src ▸ hjob.srcSize ▸ hinv.srcFits
    dstFits := hdst' ▸ hjob.dstSize ▸ Memory.fits_writeAll hinv.dstFits fun c hc => hlen ▸ hfit c hc
    errors := by rcases hstatus with h | h <;> rw [h]; exacts [.inl rfl, hinv.errors]
    lengths := fun _ => by
      rw [Btd.lengthsTrue, hjob.srcLen, hjob.dstLen, hjob.srcSize, hjob.dstSize]; exact htrue
    running := (ha.running (hs.running (hinv.running hb))).2.2 }

/-- A turn of engine BTD keeps its invariant. -/
theorem btd_inv_of_btdTurn {s t : State} (hinv : s.btd.Inv) (h : btdTurn s = .next t) : t.btd.Inv := by
  by_cases hb : s.btd.status.state = .busy
  · obtain ⟨k, b, hk, hkb, rfl⟩ := btdTurn_busy hb h
    exact Btd.inv_of_element hinv hb hk hkb
  · rw [btdTurn_idle hb] at h
    cases h
    exact hinv

/-- The invariant of an engine that is not BUSY speaks of its buffers and its STATUS alone. -/
theorem Btd.inv_of_idle {b b' : Btd} (hinv : b.Inv) (hb : b'.status.state ≠ .busy) (hst : b'.status = b.status)
    (hsrc : b'.src.wf = true ∧ b'.src.Fits b'.srcSize) (hdst : b'.dst.wf = true ∧ b'.dst.Fits b'.dstSize) : b'.Inv where
  srcWf := hsrc.1
  dstWf := hdst.1
  legal := hst ▸ hinv.legal
  srcFits := hsrc.2
  dstFits := hdst.2
  errors := hst ▸ hinv.errors
  lengths h := absurd h hb
  running h := absurd h hb

/-- A START with true lengths keeps the invariant, if the sizes that pass the entry check and leave a tile to decode
make the operation a running one. -/
theorem Btd.inv_of_operation {ok : Nat → Nat → Nat → Nat → Bool} {H : Nat} {b : Btd} (hinv : b.Inv)
    (hb : b.status.state ≠ .busy) (hlen : b.lengthsTrue = true)
    (hrun : ok b.width.toNat b.height.toNat b.srcLen.toNat b.dstLen.toNat = true → 0 < b.width.toNat / 8 →
      0 < b.height.toNat / H → b.start.Running) : (b.operation ok H).Inv := by
  rcases Btd.operation_cases ok H hb with ⟨-, h⟩ | ⟨-, -, h⟩ | ⟨hok, hw, hh, h⟩ <;> rw [h]
  · exact ⟨hinv.srcWf, hinv.dstWf, Status.legal_raised (by decide), hinv.srcFits, hinv.dstFits, .inr rfl,
      fun h => (by cases h), fun h => (by cases h)⟩
  · exact ⟨hinv.srcWf, hinv.dstWf, Status.legal_completed, hinv.srcFits, hinv.dstFits, .inl rfl,
      fun h => (by cases h), fun h => (by cases h)⟩
  · exact ⟨hinv.srcWf, hinv.dstWf, Status.legal_started, hinv.srcFits, hinv.dstFits, .inl rfl, fun _ => hlen,
      fun _ => hrun hok hw hh⟩

/-- The position at START is the first tile of the image, `SP` the first byte of the stream (R46). -/
theorem Btd.start_tileIndex (b : Btd) : b.start.tileIndex = 0 := by
  simp [Btd.tileIndex]

theorem Btd.inv_decodeColorBlocks {b : Btd} (hinv : b.Inv) (hb : b.status.state ≠ .busy) (hlen : b.lengthsTrue = true)
    (hop : b.op = 0) : (b.operation colorBlocksSizesOk 8).Inv :=
  Btd.inv_of_operation hinv hb hlen fun hok hw hh =>
    .inl ⟨hop, hok, ⟨hw, hh⟩, rfl, rfl, by simp [Btd.start_tileIndex]⟩

theorem Btd.inv_decodeIntensity8 {b : Btd} (hinv : b.Inv) (hb : b.status.state ≠ .busy) (hlen : b.lengthsTrue = true)
    (hop : b.op = 1) : (b.operation intensity8SizesOk 4).Inv :=
  Btd.inv_of_operation hinv hb hlen fun hok hw hh =>
    .inr (.inl ⟨hop, hok, ⟨hw, hh⟩, rfl, by simp, by simp [Btd.start_tileIndex]⟩)

theorem Btd.inv_decodeIntensity4 {b : Btd} (hinv : b.Inv) (hb : b.status.state ≠ .busy) (hlen : b.lengthsTrue = true)
    (hop : b.op = 2) : (b.operation intensity4SizesOk 8).Inv :=
  Btd.inv_of_operation hinv hb hlen fun hok hw hh =>
    .inr (.inr ⟨hop, hok, ⟨hw, hh⟩, rfl, by simp, by simp [Btd.start_tileIndex]⟩)

/-- A descriptor write leaves the buffers and STATUS, and changes nothing while BUSY (R48). -/
theorem Btd.writeDescriptor_keeps (index : Nat) (v : Word) (b : Btd) :
    (b.writeDescriptor index v).status = b.status ∧ (b.writeDescriptor index v).src = b.src ∧
      (b.writeDescriptor index v).dst = b.dst ∧ (b.writeDescriptor index v).srcSize = b.srcSize ∧
      (b.writeDescriptor index v).dstSize = b.dstSize := by
  unfold Btd.writeDescriptor
  split
  · exact ⟨rfl, rfl, rfl, rfl, rfl⟩
  · split <;> exact ⟨rfl, rfl, rfl, rfl, rfl⟩

theorem Btd.writeDescriptor_of_busy (index : Nat) (v : Word) {b : Btd} (hb : b.status.state = .busy) :
    b.writeDescriptor index v = b := by
  simp [Btd.writeDescriptor, Status.busy, hb]

theorem Btd.inv_writeDescriptor {b : Btd} (hinv : b.Inv) (index : Nat) (v : Word) : (b.writeDescriptor index v).Inv := by
  by_cases hb : b.status.state = .busy
  · rwa [Btd.writeDescriptor_of_busy index v hb]
  · obtain ⟨hst, hsrc, hdst, hsrcSize, hdstSize⟩ := Btd.writeDescriptor_keeps index v b
    refine Btd.inv_of_idle hinv (hst ▸ hb) hst ?_ ?_
    · rw [hsrc, hsrcSize]; exact ⟨hinv.srcWf, hinv.srcFits⟩
    · rw [hdst, hdstSize]; exact ⟨hinv.dstWf, hinv.dstFits⟩

/-- A reset keeps the canonical buffers: at most the bytes of `DST` below its length are forgotten (R46, R47). -/
theorem Btd.inv_resetMove {b : Btd} (hinv : b.Inv) (unread : Bool) : (b.resetMove unread).Inv := by
  have hdst : (b.resetMove unread).dst.wf = true ∧ (b.resetMove unread).dst.Fits b.dstSize := by
    unfold Btd.resetMove
    dsimp only
    split
    · exact ⟨Memory.wf_forget _ _ hinv.dstWf hinv.dstFits.1.le, Memory.fits_forget _ _ hinv.dstFits le_rfl⟩
    · exact ⟨hinv.dstWf, hinv.dstFits⟩
  exact ⟨hinv.srcWf, hdst.1, by simp [Btd.resetMove, Status.afterReset, Status.Legal], hinv.srcFits, hdst.2, .inl rfl,
    fun h => (by cases h), fun h => (by cases h)⟩

end Sys2Proof.Machine
end

section
/-! SUPPORT. Engine LZD: what a START and a turn can do, how the copy fills the destination, and what keeps its
invariant. -/

namespace Sys2Proof.Machine

/-! ### START of `decompress` (R122, R126, R207) -/

/-- Everything a START can do with an engine at rest: reject the sizes, or begin and end at once if nothing is owed. -/
theorem Lzd.operation_cases {l : Lzd} (hb : l.status.state ≠ .busy) :
    (decompressSizesOk l.outSize.toInt l.dstLen.toNat = false ∧ l.operation = l.start.raise .invalidBufferSize) ∨
    (decompressSizesOk l.outSize.toInt l.dstLen.toNat = true ∧ l.operation = l.start.exitEarly) := by
  have hidle : l.status.busy = false := by simpa [Status.busy] using hb
  unfold Lzd.operation
  rw [if_neg (by simp [hidle])]
  cases hok : decompressSizesOk l.outSize.toInt l.dstLen.toNat
  · exact .inl ⟨rfl, rfl⟩
  · exact .inr ⟨rfl, rfl⟩

/-- A START keeps the descriptor and the buffers, whatever it answers (R46, R127, R237). -/
theorem Lzd.operation_keeps (l : Lzd) :
    l.operation.src = l.src ∧ l.operation.dst = l.dst ∧ l.operation.srcSize = l.srcSize ∧
      l.operation.dstSize = l.dstSize := by
  unfold Lzd.operation
  split_ifs
  · exact ⟨rfl, rfl, rfl, rfl⟩
  · exact ⟨rfl, rfl, rfl, rfl⟩
  · simp

/-- `done` after an element exactly when nothing is owed any more (R205). -/
theorem Lzd.exitEarly_busy {l : Lzd} (h : l.exitEarly.status.state = .busy) : 0 < l.rem.toInt ∧ l.exitEarly = l := by
  unfold Lzd.exitEarly at h ⊢
  split at h
  · cases h
  · next hrem =>
    rw [if_neg hrem]
    simpa [Lzd.exhausted] using hrem

/-! ### A turn while BUSY -/

/-- `k` is `l` once the bytes of an element, or the first of them, are read: only the flags, the cursor and the registers
of the token may differ; the cursor does not go back and stays inside the source, and `BI` stays in 0..8 (R39, R191). -/
structure Lzd.Reads (l k : Lzd) : Prop where
  frame : ∃ sp ctl bi t dist len cnt,
    k = { l with sp := sp, ctl := ctl, bi := bi, t := t, dist := dist, len := len, cnt := cnt }
  cursor : l.sp.toNat ≤ l.srcLen.toNat → l.sp.toNat ≤ k.sp.toNat ∧ k.sp.toNat ≤ l.srcLen.toNat
  flags : l.bi.toNat ≤ 8 → k.bi.toNat ≤ 8

/-- How the engine goes on once the bytes are read: an error of the stream, nothing more (a `CTRL`), one byte put or some
copied, and `done` if nothing is owed any more. -/
inductive Lzd.Advances (k : Lzd) : Lzd → Prop where
  | raised (code : ErrCode) (h : code = .truncatedSource ∨ code = .invalidBackReference) : Advances k (k.raise code)
  | loaded : Advances k k
  | put {v : Byte} {m : Lzd} (h : k.put v = .next m) : Advances k m.exitEarly
  | copied {m : Lzd} (h : (k.loadCount k.copyCount).copyBytes k.copyCount = .next m) : Advances k m.exitEarly

theorem Lzd.Reads.refl (l : Lzd) : l.Reads l :=
  ⟨⟨_, _, _, _, _, _, _, rfl⟩, fun h => ⟨le_rfl, h⟩, id⟩

theorem Lzd.Reads.trans {l k m : Lzd} (h : l.Reads k) (h' : k.Reads m) : l.Reads m := by
  obtain ⟨_, _, _, _, _, _, _, rfl⟩ := h.frame
  obtain ⟨_, _, _, _, _, _, _, rfl⟩ := h'.frame
  refine ⟨⟨_, _, _, _, _, _, _, rfl⟩, fun hl => ?_, fun hl => h'.flags (h.flags hl)⟩
  obtain ⟨hup, hle⟩ := h.cursor hl
  exact ⟨hup.trans (h'.cursor hle).1, (h'.cursor hle).2⟩

/-- Bytes read inside the source move the cursor up, without a wrap. -/
theorem cursor_add_ofNat {sp len : Word} {n : Nat} (h : sp.toNat + n ≤ len.toNat) :
    sp.toNat ≤ (sp + BitVec.ofNat 32 n).toNat ∧ (sp + BitVec.ofNat 32 n).toNat ≤ len.toNat := by
  rw [toNat_add_ofNat h]
  omega

theorem Lzd.reads_takeFlag {l : Lzd} (h : l.bi ≠ 0) : l.Reads l.takeFlag := by
  refine ⟨⟨_, _, _, _, _, _, _, rfl⟩, fun h => ⟨le_rfl, h⟩, fun h8 => ?_⟩
  have hne : l.bi.toNat ≠ 0 := fun e => h (BitVec.eq_of_toNat_eq e)
  rw [Lzd.takeFlag_bi, BitVec.toNat_sub]
  simp
  omega

theorem Lzd.reads_readByte {l : Lzd} (h : l.sp.toNat + 1 ≤ l.srcLen.toNat) : l.Reads l.readByte :=
  ⟨⟨_, _, _, _, _, _, _, rfl⟩, fun _ => cursor_add_ofNat h, id⟩

theorem Lzd.reads_loadFlags (v : Byte) (l : Lzd) : l.Reads (l.loadFlags v) :=
  ⟨⟨_, _, _, _, _, _, _, rfl⟩, fun h => ⟨le_rfl, h⟩, fun _ => by simp⟩

theorem Lzd.reads_loadToken (t : Half) {l : Lzd} (h : l.sp.toNat + 2 ≤ l.srcLen.toNat) : l.Reads (l.loadToken t) :=
  ⟨⟨_, _, _, _, _, _, _, rfl⟩, fun _ => cursor_add_ofNat h, id⟩

theorem Lzd.reads_loadLength (v : BitVec 9) (l : Lzd) : l.Reads (l.loadLength v) :=
  ⟨⟨_, _, _, _, _, _, _, rfl⟩, fun h => ⟨le_rfl, h⟩, id⟩

theorem Lzd.reads_loadExtra (e : Byte) {l : Lzd} (h : l.sp.toNat + 1 ≤ l.srcLen.toNat) : l.Reads (l.loadExtra e) :=
  ⟨⟨_, _, _, _, _, _, _, rfl⟩, fun _ => cursor_add_ofNat h, id⟩

/-- The distance check and the copy are an advance. -/
theorem Lzd.advances_of_backReference {l l' : Lzd} (h : l.backReference = .next l') : l.Advances l' := by
  rcases Lzd.backReference_eq_next.mp h with ⟨-, rfl⟩ | ⟨-, m, hm, rfl⟩
  · exact .raised _ (.inr rfl)
  · exact .copied hm

/-- Everything a stream element can do: it reads its bytes and advances. -/
theorem Lzd.reads_of_literal {b : Byte} {l l' : Lzd} (h : l.literal b = .next l') : ∃ k, l.Reads k ∧ k.Advances l' := by
  rcases Lzd.literal_eq_next.mp h with ⟨-, rfl⟩ | ⟨hsp, m, hm, rfl⟩
  · exact ⟨l, .refl l, .raised _ (.inl rfl)⟩
  · exact ⟨l.readByte, Lzd.reads_readByte hsp, .put hm⟩

theorem Lzd.reads_of_shortReference {n : BitVec 4} {d : BitVec 12} {l l' : Lzd}
    (h : l.shortReference n d = .next l') : ∃ k, l.Reads k ∧ k.Advances l' := by
  rcases Lzd.shortReference_eq_next.mp h with ⟨-, rfl⟩ | ⟨hsp, hm⟩
  · exact ⟨l, .refl l, .raised _ (.inl rfl)⟩
  · exact ⟨_, (Lzd.reads_loadToken _ hsp).trans (Lzd.reads_loadLength _ _), Lzd.advances_of_backReference hm⟩

theorem Lzd.reads_of_extendedReference {d : BitVec 12} {e : Byte} {l l' : Lzd}
    (h : l.extendedReference d e = .next l') : ∃ k, l.Reads k ∧ k.Advances l' := by
  rcases Lzd.extendedReference_eq_next.mp h with ⟨-, rfl⟩ | ⟨hsp, rfl⟩ | ⟨hsp, hm⟩
  · exact ⟨l, .refl l, .raised _ (.inl rfl)⟩
  · exact ⟨_, Lzd.reads_loadToken _ hsp.ge, .raised _ (.inl rfl)⟩
  · have hroom : l.sp.toNat + 2 ≤ l.srcLen.toNat := by omega
    have hsp' : (l.sp + 2).toNat = l.sp.toNat + 2 := toNat_add_ofNat hroom
    refine ⟨_, (Lzd.reads_loadToken _ hroom).trans (Lzd.reads_loadExtra e ?_), Lzd.advances_of_backReference hm⟩
    simp only [Lzd.loadToken_sp, Lzd.loadToken_srcLen, hsp']
    omega

theorem Lzd.reads_of_ctrl {flags : Byte} {s t : State} (h : execCtrl flags s = .next t) :
    ∃ k l, s.lzd.Reads k ∧ k.Advances l ∧ t = { s with lzd := l } := by
  obtain ⟨l, hl, rfl⟩ := onLzd_eq_next.mp h
  split at hl <;> cases hl
  · exact ⟨_, _, .refl _, .raised _ (.inl rfl), rfl⟩
  · next hsp =>
    exact ⟨_, _, (Lzd.reads_readByte (Nat.not_le.mp hsp)).trans (Lzd.reads_loadFlags flags _), .loaded, rfl⟩

/-- The bytes fetched for a back-reference lie inside the source. -/
theorem Lzd.room_of_fetch {l : Lzd} {b0 b1 : Byte} (hdue : l.due = .reference) (h : l.fetch = .ok [b0, b1]) :
    l.sp.toNat + 2 ≤ l.srcLen.toNat := by
  simp only [Lzd.fetch, hdue] at h
  split at h
  · cases h
  · omega

/-- What is missing when an element is not complete: the engine has read no more than the token, and raises. -/
theorem Lzd.reads_of_starve {l : Lzd} {bytes : List Byte} (hf : l.fetch = .ok bytes) :
    ∃ k, l.Reads k ∧ k.Advances (l.starve bytes) := by
  have hraise : ∀ k : Lzd, k.Advances (k.raise .truncatedSource) := fun k => .raised _ (.inl rfl)
  rcases l.due_cases with ⟨-, hdue⟩ | ⟨hbi, hdue | hdue⟩
  · exact ⟨l, .refl l, by simpa [Lzd.starve, hdue] using hraise l⟩
  · exact ⟨l.takeFlag, Lzd.reads_takeFlag hbi, by simpa [Lzd.starve, hdue] using hraise l.takeFlag⟩
  · by_cases htoken : ∃ b0 b1, bytes = [b0, b1]
    · obtain ⟨b0, b1, rfl⟩ := htoken
      refine ⟨_, (Lzd.reads_takeFlag hbi).trans (Lzd.reads_loadToken (be16 b0 b1) ?_), ?_⟩
      · exact (Lzd.room_of_fetch hdue hf : l.sp.toNat + 2 ≤ l.srcLen.toNat)
      · simpa [Lzd.starve, hdue] using hraise _
    · refine ⟨l.takeFlag, Lzd.reads_takeFlag hbi, ?_⟩
      have hstarve : l.starve bytes = l.takeFlag.raise .truncatedSource := by
        unfold Lzd.starve
        rw [hdue]
        split
        · next h => cases h
        · exact absurd ⟨_, _, rfl⟩ htoken
        · rfl
      rw [hstarve]
      exact hraise _

/-- Everything a turn of a BUSY engine LZD can do: it reads the bytes of one element and advances. -/
theorem lzdTurn_busy {s t : State} (hb : s.lzd.status.state = .busy) (h : lzdTurn s = .next t) :
    ∃ k l, s.lzd.Reads k ∧ k.Advances l ∧ t = { s with lzd := l } := by
  have hflag : ∀ o : Host.Outcome Lzd Fault Refusal, s.lzd.bi ≠ 0 → onLzd s o = .next t →
      (∀ l', o = .next l' → ∃ k, s.lzd.takeFlag.Reads k ∧ k.Advances l') →
      ∃ k l, s.lzd.Reads k ∧ k.Advances l ∧ t = { s with lzd := l } := by
    intro o hbi ho hread
    obtain ⟨l, hl, rfl⟩ := onLzd_eq_next.mp ho
    obtain ⟨k, hk, hkl⟩ := hread l hl
    exact ⟨k, l, (Lzd.reads_takeFlag hbi).trans hk, hkl, rfl⟩
  rcases lzdTurn_eq_next.mp h with ⟨hidle, -⟩ | ⟨-, bytes, hf, ⟨i, rest, hd, hx⟩ | ⟨-, -, rfl⟩⟩
  · simp [Status.busy, hb] at hidle
  · have hc := context_of_decode hd
    rcases s.lzd.due_cases with ⟨-, hdue⟩ | ⟨hbi, hdue | hdue⟩ <;> rw [hdue] at hc
    · match i, hc, hx with
      | .ctrl flags, _, hx => exact Lzd.reads_of_ctrl hx
    · match i, hc, hx with
      | .lit b, _, hx => exact hflag _ hbi hx fun l' => Lzd.reads_of_literal
    · match i, hc, hx with
      | .ref n d, _, hx => exact hflag _ hbi hx fun l' => Lzd.reads_of_shortReference
      | .refx d e, _, hx => exact hflag _ hbi hx fun l' => Lzd.reads_of_extendedReference
  · obtain ⟨k, hk, hkl⟩ := Lzd.reads_of_starve hf
    exact ⟨k, _, hk, hkl, rfl⟩

/-- A turn of an engine at rest does nothing (R261). -/
theorem lzdTurn_idle {s : State} (hb : s.lzd.status.state ≠ .busy) : lzdTurn s = .next s :=
  lzdTurn_eq_next.mpr (.inl ⟨by simpa [Status.busy] using hb, rfl⟩)

/-! ### What an element leaves alone -/

/-- The descriptor, `SRC` and the lengths of the buffers are the same. -/
structure Lzd.SameJob (l m : Lzd) : Prop where
  outSize : m.outSize = l.outSize
  srcLen : m.srcLen = l.srcLen
  dstLen : m.dstLen = l.dstLen
  src : m.src = l.src
  srcSize : m.srcSize = l.srcSize
  dstSize : m.dstSize = l.dstSize

theorem Lzd.SameJob.trans {l k m : Lzd} (h : l.SameJob k) (h' : k.SameJob m) : l.SameJob m :=
  ⟨h'.outSize.trans h.outSize, h'.srcLen.trans h.srcLen, h'.dstLen.trans h.dstLen, h'.src.trans h.src,
    h'.srcSize.trans h.srcSize, h'.dstSize.trans h.dstSize⟩

theorem Lzd.Reads.sameJob {l k : Lzd} (h : l.Reads k) : l.SameJob k := by
  obtain ⟨_, _, _, _, _, _, _, rfl⟩ := h.frame
  constructor <;> rfl

/-- What putting and copying bytes changes: `DST`, the cursors and the counters of the copy. -/
theorem Lzd.Advances.frame {k l : Lzd} (h : k.Advances l) : k.SameJob l ∧ l.sp = k.sp ∧ l.bi = k.bi := by
  cases h with
  | raised => exact ⟨by constructor <;> rfl, rfl, rfl⟩
  | loaded => exact ⟨by constructor <;> rfl, rfl, rfl⟩
  | put h =>
    obtain ⟨-, rfl⟩ := Lzd.put_eq_next.mp h
    exact ⟨by constructor <;> simp, by simp, by simp⟩
  | copied h =>
    obtain ⟨-, heq, -⟩ := Lzd.copyBytes_eq_next h k.dstLen.isLt
    rw [heq]
    exact ⟨by constructor <;> simp, by simp, by simp⟩

/-! ### How the destination is filled (R37, R38, R41, R200) -/

/-- What holds of the destination side while bytes are put: the rows of R41 for `DP` and `REM`, `REM` possibly 0, and a
canonical `DST` of the declared length whose window is written. -/
structure Lzd.Filling (l : Lzd) : Prop where
  wf : l.dst.wf = true
  fits : l.dst.Fits l.dstLen.toNat
  owed : 0 ≤ l.rem.toInt
  sum : (l.dp.toNat : Int) + l.rem.toInt = l.outSize.toInt
  dstLen : (l.dstLen.toNat : Int) = l.outSize.toInt
  window : ∀ a, a < l.dp.toNat → (l.dst.read a).isSome

/-- The counter of a copy is not part of it. -/
theorem Lzd.Filling.with_cnt {l : Lzd} (hl : l.Filling) (cnt : BitVec 9) : Lzd.Filling { l with cnt := cnt } :=
  ⟨hl.wf, hl.fits, hl.owed, hl.sum, hl.dstLen, hl.window⟩

theorem toInt_sub_one {x : Word} (h : 0 < x.toInt) : (x - 1).toInt = x.toInt - 1 := by
  rw [BitVec.toInt_eq_toNat_cond] at h ⊢
  rw [BitVec.toInt_eq_toNat_cond, BitVec.toNat_sub]
  simp
  omega

/-- Putting an owed byte fills the destination by one. -/
theorem Lzd.Filling.put {l m : Lzd} {v : Byte} (hl : l.Filling) (hrem : 0 < l.rem.toInt) (h : l.put v = .next m) :
    m.Filling ∧ m.rem.toInt = l.rem.toInt - 1 := by
  obtain ⟨hroom, rfl⟩ := Lzd.put_eq_next.mp h
  have hdp : (l.dp + 1).toNat = l.dp.toNat + 1 := toNat_add_ofNat hroom
  have hrem' := toInt_sub_one hrem
  have := hl.sum
  refine ⟨⟨?_, Memory.fits_write _ hl.fits hroom, ?_, ?_, hl.dstLen, fun a ha => ?_⟩, hrem'⟩
  · exact Memory.wf_write _ hl.wf (hroom.trans l.dstLen.isLt)
  · change 0 ≤ (l.rem - 1).toInt
    omega
  · change ((l.dp + 1).toNat : Int) + (l.rem - 1).toInt = l.outSize.toInt
    omega
  · change a < (l.dp + 1).toNat at ha
    change ((l.dst.write l.dp.toNat v).read a).isSome
    rw [Memory.read_write]
    split
    · rfl
    · exact hl.window a (by omega)

/-- Copying no more bytes than are owed fills the destination by as many. -/
theorem Lzd.Filling.copyBytes {n : Nat} {l m : Lzd} (hl : l.Filling) (hn : (n : Int) ≤ l.rem.toInt)
    (h : l.copyBytes n = .next m) : m.Filling := by
  induction n generalizing l with
  | zero => cases h; exact hl
  | succ n ih =>
    obtain ⟨v, -, hroom, hrest⟩ := Lzd.copyBytes_succ_eq_next.mp h
    obtain ⟨hput, hrem⟩ := hl.put (v := v) (by omega) (Lzd.put_eq_next.mpr ⟨hroom, rfl⟩)
    have hrem : (l.rem - 1).toInt = l.rem.toInt - 1 := hrem
    refine ih (hput.with_cnt (l.cnt - 1)) ?_ hrest
    change (n : Int) ≤ (l.rem - 1).toInt
    omega

/-- A copy is cut at what is owed (R204). -/
theorem Lzd.copyCount_le {l : Lzd} (h : 0 ≤ l.rem.toInt) : (l.copyCount : Int) ≤ l.rem.toInt := by
  unfold Lzd.copyCount
  omega

/-! ### The invariant of engine LZD -/

theorem Lzd.lengthsTrue_iff {l : Lzd} :
    l.lengthsTrue = true ↔ l.srcLen.toNat = l.srcSize ∧ l.dstLen.toNat = l.dstSize := by
  simp [Lzd.lengthsTrue]

/-- The destination side of the invariant of a BUSY engine, after the bytes of an element are read. -/
theorem Lzd.Reads.filling {l k : Lzd} (h : l.Reads k) (hinv : l.Inv) (hb : l.status.state = .busy) :
    k.Filling ∧ 0 < k.rem.toInt := by
  have hrun := hinv.running hb
  have hfits : l.dst.Fits l.dstLen.toNat := (Lzd.lengthsTrue_iff.mp (hinv.lengths hb)).2 ▸ hinv.dstFits
  obtain ⟨_, _, _, _, _, _, _, rfl⟩ := h.frame
  exact ⟨⟨hinv.dstWf, hfits, hrun.owed.le, hrun.sum, hrun.dstLen, hrun.window⟩, hrun.owed⟩

/-- The engine after an element whose bytes are put: what it takes for the invariant to hold again. -/
theorem Lzd.inv_of_filling {l m : Lzd} (hinv : l.Inv) (hb : l.status.state = .busy) (hjob : l.SameJob m)
    (hm : m.Filling) (hlegal : m.status.Legal) (hsp : m.sp.toNat ≤ l.srcLen.toNat) (hbi : m.bi.toNat ≤ 8)
    (howed : m.status.state = .busy → 0 < m.rem.toInt) : m.Inv := by
  have htrue := Lzd.lengthsTrue_iff.mp (hinv.lengths hb)
  have hdstLen : m.dstLen.toNat = m.dstSize := by rw [hjob.dstLen, hjob.dstSize, htrue.2]
  exact {
    srcWf := hjob.src ▸ hinv.srcWf
    dstWf := hm.wf
    legal := hlegal
    srcFits := hjob.src ▸ hjob.srcSize ▸ hinv.srcFits
    dstFits := hdstLen ▸ hm.fits
    lengths := fun _ => Lzd.lengthsTrue_iff.mpr ⟨by rw [hjob.srcLen, hjob.srcSize, htrue.1], hdstLen⟩
    running := fun hbusy => ⟨howed hbusy, hm.sum, hm.dstLen, hjob.srcLen ▸ hsp, hbi, hm.window⟩ }

theorem Lzd.Filling.exitEarly {m : Lzd} (hm : m.Filling) : m.exitEarly.Filling := by
  unfold Lzd.exitEarly
  split
  · exact ⟨hm.wf, hm.fits, hm.owed, hm.sum, hm.dstLen, hm.window⟩
  · exact hm

/-- An error inside the stream keeps the canonical buffers (R237). -/
theorem Lzd.inv_of_raise {l k : Lzd} {code : ErrCode} (hinv : l.Inv) (hjob : l.SameJob k) (hk : k.Filling)
    (hdst : k.dstLen.toNat = k.dstSize) (hcode : code = .truncatedSource ∨ code = .invalidBackReference) :
    (k.raise code).Inv := by
  have hfits : (k.dstAfterError code).Fits k.dstSize := by
    rcases hcode with rfl | rfl <;> exact Memory.fits_forget _ _ (hdst ▸ hk.fits) hdst.le
  exact {
    srcWf := (hjob.src ▸ hinv.srcWf : k.src.wf = true)
    dstWf := Lzd.wf_dstAfterError code hk.wf
    legal := Status.legal_raised (by rcases hcode with rfl | rfl <;> decide)
    srcFits := (hjob.src ▸ hjob.srcSize ▸ hinv.srcFits : k.src.Fits k.srcSize)
    dstFits := hfits
    lengths := fun h => (by cases h)
    running := fun h => (by cases h) }

/-- An element of a running `decompress` keeps the invariant. -/
theorem Lzd.inv_of_element {l k l' : Lzd} (hinv : l.Inv) (hb : l.status.state = .busy) (hr : l.Reads k)
    (ha : k.Advances l') : l'.Inv := by
  have hrun := hinv.running hb
  obtain ⟨hk, howed⟩ := hr.filling hinv hb
  obtain ⟨hjob', hsp', hbi'⟩ := ha.frame
  have hjob := hr.sameJob.trans hjob'
  have hsp : l'.sp.toNat ≤ l.srcLen.toNat := hsp' ▸ (hr.cursor hrun.cursor).2
  have hbi : l'.bi.toNat ≤ 8 := hbi' ▸ hr.flags hrun.flags
  have hstatus : k.status = l.status := by
    obtain ⟨_, _, _, _, _, _, _, rfl⟩ := hr.frame
    rfl
  have hwritten : ∀ m : Lzd, l' = m.exitEarly → m.Filling → m.status = k.status → l'.Inv := by
    rintro m rfl hm hst
    refine Lzd.inv_of_filling hinv hb hjob hm.exitEarly ?_ hsp hbi fun hbusy => ?_
    · rw [Lzd.exitEarly_status]
      split
      · exact Status.legal_completed
      · rw [hst, hstatus]; exact hinv.legal
    · rw [Lzd.exitEarly_rem]
      exact (Lzd.exitEarly_busy hbusy).1
  cases ha with
  | raised code hcode =>
    have hdst : k.dstLen.toNat = k.dstSize := by
      rw [hr.sameJob.dstLen, hr.sameJob.dstSize]
      exact (Lzd.lengthsTrue_iff.mp (hinv.lengths hb)).2
    exact Lzd.inv_of_raise hinv hr.sameJob hk hdst hcode
  | loaded =>
    exact Lzd.inv_of_filling hinv hb hjob hk (hstatus ▸ hinv.legal) hsp hbi fun _ => howed
  | put h =>
    have hst := (Lzd.put_eq_next.mp h).2
    exact hwritten _ rfl (hk.put howed h).1 (by rw [hst])
  | copied h =>
    obtain ⟨-, hst, -⟩ := Lzd.copyBytes_eq_next h k.dstLen.isLt
    have hload : (k.loadCount k.copyCount).Filling := hk.with_cnt _
    exact hwritten _ rfl (hload.copyBytes (Lzd.copyCount_le hk.owed) h) (by rw [hst]; rfl)

/-- A turn of engine LZD keeps its invariant. -/
theorem lzd_inv_of_lzdTurn {s t : State} (hinv : s.lzd.Inv) (h : lzdTurn s = .next t) : t.lzd.Inv := by
  by_cases hb : s.lzd.status.state = .busy
  · obtain ⟨k, l, hk, hkl, rfl⟩ := lzdTurn_busy hb h
    exact Lzd.inv_of_element hinv hb hk hkl
  · rw [lzdTurn_idle hb] at h
    cases h
    exact hinv

/-- The invariant of an engine that is not BUSY speaks of its buffers and its STATUS alone. -/
theorem Lzd.inv_of_idle {l l' : Lzd} (hinv : l.Inv) (hb : l'.status.state ≠ .busy) (hst : l'.status = l.status)
    (hsrc : l'.src.wf = true ∧ l'.src.Fits l'.srcSize) (hdst : l'.dst.wf = true ∧ l'.dst.Fits l'.dstSize) : l'.Inv where
  srcWf := hsrc.1
  dstWf := hdst.1
  legal := hst ▸ hinv.legal
  srcFits := hsrc.2
  dstFits := hdst.2
  lengths h := absurd h hb
  running h := absurd h hb

/-- A START with true lengths keeps the invariant. -/
theorem Lzd.inv_operation {l : Lzd} (hinv : l.Inv) (hb : l.status.state ≠ .busy) (hlen : l.lengthsTrue = true) :
    l.operation.Inv := by
  rcases Lzd.operation_cases hb with ⟨-, h⟩ | ⟨hok, h⟩ <;> rw [h]
  · exact ⟨hinv.srcWf, hinv.dstWf, Status.legal_raised (by decide), hinv.srcFits, hinv.dstFits,
      fun h => (by cases h), fun h => (by cases h)⟩
  · simp only [decompressSizesOk, Bool.and_eq_true, decide_eq_true_eq] at hok
    refine ⟨by simpa using hinv.srcWf, by simpa using hinv.dstWf, ?_, by simpa using hinv.srcFits,
      by simpa using hinv.dstFits, fun _ => by simpa [Lzd.lengthsTrue] using hlen, fun hbusy => ?_⟩
    · rw [Lzd.exitEarly_status]
      split
      exacts [Status.legal_completed, Status.legal_started]
    · obtain ⟨howed, heq⟩ := Lzd.exitEarly_busy hbusy
      rw [heq]
      exact ⟨howed, by simp, by simpa using hok.2, by simp, by simp, by simp⟩

/-- A descriptor write leaves the buffers and STATUS, and changes nothing while BUSY (R48). -/
theorem Lzd.writeDescriptor_keeps (index : Nat) (v : Word) (l : Lzd) :
    (l.writeDescriptor index v).status = l.status ∧ (l.writeDescriptor index v).src = l.src ∧
      (l.writeDescriptor index v).dst = l.dst ∧ (l.writeDescriptor index v).srcSize = l.srcSize ∧
      (l.writeDescriptor index v).dstSize = l.dstSize := by
  unfold Lzd.writeDescriptor
  split
  · exact ⟨rfl, rfl, rfl, rfl, rfl⟩
  · split <;> exact ⟨rfl, rfl, rfl, rfl, rfl⟩

theorem Lzd.writeDescriptor_of_busy (index : Nat) (v : Word) {l : Lzd} (hb : l.status.state = .busy) :
    l.writeDescriptor index v = l := by
  simp [Lzd.writeDescriptor, Status.busy, hb]

theorem Lzd.inv_writeDescriptor {l : Lzd} (hinv : l.Inv) (index : Nat) (v : Word) : (l.writeDescriptor index v).Inv := by
  by_cases hb : l.status.state = .busy
  · rwa [Lzd.writeDescriptor_of_busy index v hb]
  · obtain ⟨hst, hsrc, hdst, hsrcSize, hdstSize⟩ := Lzd.writeDescriptor_keeps index v l
    refine Lzd.inv_of_idle hinv (hst ▸ hb) hst ?_ ?_
    · rw [hsrc, hsrcSize]; exact ⟨hinv.srcWf, hinv.srcFits⟩
    · rw [hdst, hdstSize]; exact ⟨hinv.dstWf, hinv.dstFits⟩

/-- A reset keeps the canonical buffers: at most the bytes of `DST` below its length are forgotten (R46, R47). -/
theorem Lzd.inv_resetMove {l : Lzd} (hinv : l.Inv) (unread : Bool) : (l.resetMove unread).Inv := by
  have hdst : (l.resetMove unread).dst.wf = true ∧ (l.resetMove unread).dst.Fits l.dstSize := by
    unfold Lzd.resetMove
    dsimp only
    split
    · exact ⟨Memory.wf_forget _ _ hinv.dstWf hinv.dstFits.1.le, Memory.fits_forget _ _ hinv.dstFits le_rfl⟩
    · exact ⟨hinv.dstWf, hinv.dstFits⟩
  exact ⟨hinv.srcWf, hdst.1, by simp [Lzd.resetMove, Status.afterReset, Status.Legal], hinv.srcFits, hdst.2,
    fun h => (by cases h), fun h => (by cases h)⟩

end Sys2Proof.Machine
end

section
/-! SUPPORT. The host's moves and the step: what START selects, which buffers a move may change, what an element in the
stream makes of a turn, and the invariant of the whole machine. -/

namespace Sys2Proof.Machine

/-! ### START (R26, R91, R121, R122) -/

/-- The operation that the two bits of `OP` select; none for the reserved code (R23, R91, R112). -/
theorem decode_operationCode {op : BitVec 2} {i : Instr} {rest : List Byte} :
    decode .commandBtd [op.zeroExtend 8] = .ok (i, rest) ↔
      rest = [] ∧ (op = 0 ∧ i = .decodeColorBlocks ∨ op = 1 ∧ i = .decodeIntensity8 ∨
        op = 2 ∧ i = .decodeIntensity4) := by
  have hop : op = 0 ∨ op = 1 ∨ op = 2 ∨ op = 3 := by revert op; decide
  rcases hop with rfl | rfl | rfl | rfl <;> simp [decode, decodeOperation_eq, eq_comm (b := i), and_comm]

/-- A START with bit 0 = 0, or while BUSY, does nothing (R26, R120). -/
theorem strobeBtd_ignored {v : Word} {s : State} (h : s.btd.status.state = .busy ∨ v.getLsbD 0 = false) :
    strobeBtd v s = .next s :=
  strobeBtd_eq_next.mpr (.inl ⟨h.symm.imp_right fun hb => by simp [Status.busy, hb], rfl⟩)

theorem strobeLzd_ignored {v : Word} {s : State} (h : s.lzd.status.state = .busy ∨ v.getLsbD 0 = false) :
    strobeLzd v s = .next s :=
  strobeLzd_eq_next.mpr (.inl ⟨h.symm.imp_right fun hb => by simp [Status.busy, hb], rfl⟩)

/-- An accepted START runs the selected operation if the lengths are true, and is refused otherwise (R121, R133). -/
theorem strobeBtd_accepted {v : Word} {s : State} {i : Instr} (hb : s.btd.status.state ≠ .busy)
    (hv : v.getLsbD 0 = true)
    (hi : s.btd.op = 0 ∧ i = .decodeColorBlocks ∨ s.btd.op = 1 ∧ i = .decodeIntensity8 ∨
      s.btd.op = 2 ∧ i = .decodeIntensity4) :
    strobeBtd v s =
      if s.btd.lengthsTrue then exec i { s with btdUnread := true } else .refused .lengthsUntrue := by
  have hidle : s.btd.status.busy = false := by simpa [Status.busy] using hb
  have hd := decode_operationCode.mpr ⟨rfl, hi⟩
  unfold strobeBtd
  rw [if_neg (by simp only [hv]; decide), if_neg (by simp [hidle]), hd]
  rfl

theorem strobeLzd_accepted {v : Word} {s : State} (hb : s.lzd.status.state ≠ .busy) (hv : v.getLsbD 0 = true) :
    strobeLzd v s =
      if s.lzd.lengthsTrue then exec .decompress { s with lzdUnread := true } else .refused .lengthsUntrue := by
  have hidle : s.lzd.status.busy = false := by simpa [Status.busy] using hb
  unfold strobeLzd
  rw [if_neg (by simp only [hv]; decide), if_neg (by simp [hidle])]
  rfl

/-! ### One step -/

theorem step_of_host {s : State} {m : HostMove} {rest : List Turn} (h : s.agenda = .host m :: rest) :
    step s = hostTurn m { s with agenda := rest } := by
  simp only [step, h]

theorem step_of_engine {s : State} {e : Engine} {rest : List Turn} (h : s.agenda = .engine e :: rest) :
    step s = engineTurn e { s with agenda := rest } := by
  simp only [step, h]

/-- With nothing scheduled a BUSY engine BTD goes on. -/
theorem step_of_nil_btd {s : State} (h : s.agenda = []) (hb : s.btd.status.state = .busy) : step s = btdTurn s := by
  simp [step, h, idleTurn, Status.busy, hb]

/-- With nothing scheduled and engine BTD at rest it is the turn of engine LZD. -/
theorem step_of_nil_lzd {s : State} (h : s.agenda = []) (hb : s.btd.status.state ≠ .busy) : step s = lzdTurn s := by
  simp [step, h, idleTurn, Status.busy, hb]

/-! ### The element at `SP` (R30, R90, R99) -/

/-- A fetch of bytes that are there, all of them below `len`. -/
theorem readSource_of_reads {m : Memory} {len a : Nat} {bs : List Byte}
    (hread : ∀ j, j < bs.length → m.read (a + j) = bs[j]?) (hlen : a + bs.length ≤ len) :
    readSource m len bs.length a = .ok bs := by
  induction bs generalizing a with
  | nil => rfl
  | cons b bs ih =>
    simp only [List.length_cons] at hlen
    have hb : m.read a = some b := by simpa using hread 0 (by simp)
    have htail : readSource m len bs.length (a + 1) = .ok bs :=
      ih (fun j hj => by simpa [Nat.add_assoc, Nat.add_comm 1 j] using hread (j + 1) (by simpa using hj)) (by omega)
    rw [List.length_cons, readSource, if_neg (by omega)]
    simp [hb, htail]

/-- A BTD element takes as many bytes as the format of the operation says. -/
theorem length_encode_of_format {b : Btd} {i : Instr} (h : b.format = some i.context) :
    formatLength i.context = (encode i).length := by
  rcases Btd.format_eq_some.mp h with ⟨-, hc⟩ | ⟨-, hc⟩ | ⟨-, hc⟩
  · match i, hc with
    | .cblkG .., _ | .cblkA .., _ => rfl
  · match i, hc with
    | .i8px _, _ => rfl
  · match i, hc with
    | .i4pp _ _, _ => rfl

/-- The bytes of the element due are what LZD fetches. -/
theorem Lzd.fetch_of_encode {l : Lzd} {i : Instr} (hi : i.WellFormed) (hdue : l.due = i.context)
    (hread : ∀ j, j < (encode i).length → l.src.read (l.sp.toNat + j) = (encode i)[j]?)
    (hlen : l.sp.toNat + (encode i).length ≤ l.srcLen.toNat) : l.fetch = .ok (encode i) := by
  have hsrc := readSource_of_reads hread hlen
  rcases l.due_cases with ⟨-, hc⟩ | ⟨-, hc | hc⟩
  · match i, hdue ▸ hc with
    | .ctrl f, _ => rw [Lzd.fetch, hc]; exact hsrc
  · match i, hdue ▸ hc with
    | .lit b, _ => rw [Lzd.fetch, hc]; exact hsrc
  · match i, hdue ▸ hc with
    | .ref n d, _ =>
      have hn : ¬ n = 0#4 := by simpa using (bne_iff_ne.mp hi : n ≠ 0)
      have hroom : ¬ l.srcLen.toNat ≤ l.sp.toNat + 1 := by simp [encode] at hlen; omega
      simp only [encode, List.length_cons, List.length_nil] at hsrc
      simp [Lzd.fetch, hc, hroom, hsrc, encode, extendedForm, hn]
    | .refx d e, _ =>
      have hroom : ¬ l.srcLen.toNat ≤ l.sp.toNat + 1 := by simp [encode] at hlen; omega
      have htoken : readSource l.src l.srcLen.toNat 2 l.sp.toNat =
          .ok [highByte (tokenOf 0 d), lowByte (tokenOf 0 d)] := by
        refine readSource_of_reads (bs := [_, _]) (fun j hj => ?_) (by simp; omega)
        have hj' : j < 2 := hj
        rw [hread j (by simp [encode]; omega)]
        match j, hj' with
        | 0, _ | 1, _ => rfl
      simp only [encode, List.length_cons, List.length_nil] at hsrc
      simp [Lzd.fetch, hc, hroom, htoken, hsrc, encode, extendedForm]

/-- A turn of BTD runs the well-formed element whose bytes stand at `SP`. -/
theorem btdTurn_of_encode {s : State} {i : Instr} (hb : s.btd.status.state = .busy) (hi : i.WellFormed)
    (hf : s.btd.format = some i.context)
    (hread : ∀ j, j < (encode i).length → s.btd.src.read (s.btd.sp.toNat + j) = (encode i)[j]?)
    (hlen : s.btd.sp.toNat + (encode i).length ≤ s.btd.srcLen.toNat) : btdTurn s = exec i s := by
  have hsrc := readSource_of_reads hread hlen
  rw [← length_encode_of_format hf] at hsrc
  have hd := decode_encode_append hi []
  rw [List.append_nil] at hd
  simp [btdTurn, Status.busy, hb, hf, hsrc, hd]

/-- A turn of LZD runs the well-formed element whose bytes stand at `SP`. -/
theorem lzdTurn_of_encode {s : State} {i : Instr} (hb : s.lzd.status.state = .busy) (hi : i.WellFormed)
    (hdue : s.lzd.due = i.context)
    (hread : ∀ j, j < (encode i).length → s.lzd.src.read (s.lzd.sp.toNat + j) = (encode i)[j]?)
    (hlen : s.lzd.sp.toNat + (encode i).length ≤ s.lzd.srcLen.toNat) : lzdTurn s = exec i s := by
  have hf := Lzd.fetch_of_encode hi hdue hread hlen
  have hd := decode_encode_append hi []
  rw [List.append_nil, ← hdue] at hd
  simp [lzdTurn, Status.busy, hb, hf, hd]

/-! ### Which buffers a move may change (R42, R72, R76, R264) -/

theorem State.engineBusy_iff (s : State) (e : Engine) : s.engineBusy e = true ↔ (s.engineStatus e).state = .busy := by
  cases e <;> exact Status.busy_iff _

/-- Replacing the contents is handing over a buffer of the same length. -/
theorem State.setBuffer_eq_handOver (s : State) (m : Memory) (e : Engine) (b : Buffer) :
    s.setBuffer m e b = s.handOver m (s.bufferSize e b) e b := by
  cases e <;> cases b <;> rfl

/-- The buffers of engine `e` hold the same bytes and have the same lengths. -/
def State.SameBuffers (e : Engine) (s t : State) : Prop :=
  ∀ b, t.buffer e b = s.buffer e b ∧ t.bufferSize e b = s.bufferSize e b

theorem State.SameBuffers.of_eq {s t : State} (e : Engine) (hbtd : t.btd = s.btd) (hlzd : t.lzd = s.lzd) :
    s.SameBuffers e t := by
  intro b
  cases e <;> cases b <;> simp [State.buffer, State.bufferSize, hbtd, hlzd]

theorem State.sameBuffers_handOver_ne (s : State) (m : Memory) (n : Nat) {e e' : Engine} (b : Buffer) (h : e' ≠ e) :
    s.SameBuffers e (s.handOver m n e' b) := by
  intro b'
  match e, e', h with
  | .btd, .lzd, _ | .lzd, .btd, _ => cases b <;> cases b' <;> exact ⟨rfl, rfl⟩

/-- A new engine BTD with the old buffers. -/
theorem State.sameBuffers_with_btd {s t : State} (e : Engine) (hlzd : t.lzd = s.lzd)
    (h : t.btd.src = s.btd.src ∧ t.btd.dst = s.btd.dst ∧ t.btd.srcSize = s.btd.srcSize ∧
      t.btd.dstSize = s.btd.dstSize) : s.SameBuffers e t := by
  obtain ⟨hsrc, hdst, hsrcSize, hdstSize⟩ := h
  intro b
  cases e <;> cases b <;> simp [State.buffer, State.bufferSize, *]

/-- A new engine LZD with the old buffers. -/
theorem State.sameBuffers_with_lzd {s t : State} (e : Engine) (hbtd : t.btd = s.btd)
    (h : t.lzd.src = s.lzd.src ∧ t.lzd.dst = s.lzd.dst ∧ t.lzd.srcSize = s.lzd.srcSize ∧
      t.lzd.dstSize = s.lzd.dstSize) : s.SameBuffers e t := by
  obtain ⟨hsrc, hdst, hsrcSize, hdstSize⟩ := h
  intro b
  cases e <;> cases b <;> simp [State.buffer, State.bufferSize, *]

/-- A register write, START among them, changes no buffer: an operation begins with the buffers untouched (R46). -/
theorem writeRegister_keeps_buffers {e e' : Engine} {index : Nat} {v : Word} {s t : State}
    (h : writeRegister e' index v s = .next t) : s.SameBuffers e t := by
  cases e' with
  | btd =>
    rw [writeRegister] at h
    split at h
    · rcases strobeBtd_eq_next.mp h with ⟨-, rfl⟩ | ⟨-, -, -, i, rest, hd, hx⟩
      · exact .of_eq e rfl rfl
      · obtain ⟨-, ⟨-, rfl⟩ | ⟨-, rfl⟩ | ⟨-, rfl⟩⟩ := decode_operationCode.mp hd <;> cases hx <;>
          exact State.sameBuffers_with_btd e rfl (Btd.operation_keeps _ _ _)
    · cases h
      exact State.sameBuffers_with_btd e rfl (Btd.writeDescriptor_keeps index v s.btd).2
  | lzd =>
    rw [writeRegister] at h
    split at h
    · rcases strobeLzd_eq_next.mp h with ⟨-, rfl⟩ | ⟨-, -, -, hx⟩
      · exact .of_eq e rfl rfl
      · cases hx
        exact State.sameBuffers_with_lzd e rfl (Lzd.operation_keeps _)
    · cases h
      exact State.sameBuffers_with_lzd e rfl (Lzd.writeDescriptor_keeps index v s.lzd).2

/-- No host move but a reset changes a buffer of an engine that is BUSY or whose end is unread (R264). -/
theorem hostTurn_keeps_buffers {m : HostMove} {s t : State} {e : Engine} (h : hostTurn m s = .next t)
    (hm : m ≠ .reset) (hown : s.engineBusy e = true ∨ s.endUnread e = true) : s.SameBuffers e t := by
  have hother : ∀ {e' : Engine} {b : Buffer}, s.barred e' b true = none → e' ≠ e := by
    rintro e' b hfree rfl
    obtain ⟨hbusy, hread⟩ := State.barred_eq_none.mp hfree
    have hend : s.endUnread e' = true := hown.resolve_left (by simp [hbusy])
    simp [hend] at hread
  have hbind : ∀ {e' : Engine} {b : Buffer} {mem : Memory} {size : Nat},
      hostBind e' b mem size s = .next t → s.SameBuffers e t := by
    intro e' b mem size hx
    obtain ⟨hfree, -, rfl⟩ := hostBind_eq_next.mp hx
    exact s.sameBuffers_handOver_ne _ _ b (hother hfree)
  cases m with
  | writeReg e' index v => exact writeRegister_keeps_buffers h
  | readReg e' index => cases h; exact .of_eq e (by simp) (by simp)
  | writeByte e' b a v =>
    obtain ⟨hfree, -, rfl⟩ := hostWrite_eq_next.mp h
    rw [State.setBuffer_eq_handOver]
    exact s.sameBuffers_handOver_ne _ _ b (hother hfree)
  | readByte e' b a =>
    obtain ⟨-, -, v, -, rfl⟩ := hostRead_eq_next.mp h
    exact .of_eq e rfl rfl
  | bind e' b bytes => exact hbind h
  | allocate e' b size => exact hbind h
  | reset => exact absurd rfl hm

/-- A turn of BTD keeps its descriptor, `SRC` and the lengths of its buffers (R76, R237). -/
theorem sameJob_of_btdTurn {s t : State} (h : btdTurn s = .next t) : s.btd.SameJob t.btd := by
  by_cases hb : s.btd.status.state = .busy
  · obtain ⟨k, b, hk, hkb, rfl⟩ := btdTurn_busy hb h
    exact hk.sameJob.trans hkb.sameJob
  · rw [btdTurn_idle hb] at h
    cases h
    constructor <;> rfl

/-- A turn of LZD keeps its descriptor, `SRC` and the lengths of its buffers (R76, R237). -/
theorem sameJob_of_lzdTurn {s t : State} (h : lzdTurn s = .next t) : s.lzd.SameJob t.lzd := by
  by_cases hb : s.lzd.status.state = .busy
  · obtain ⟨k, l, hk, hkl, rfl⟩ := lzdTurn_busy hb h
    exact hk.sameJob.trans hkl.frame.1
  · rw [lzdTurn_idle hb] at h
    cases h
    constructor <;> rfl

/-- What engine `e` finds its buffers to be after a turn of either engine. -/
structure State.Quiet (e : Engine) (s t : State) : Prop where
  src : t.buffer e .src = s.buffer e .src
  srcSize : t.bufferSize e .src = s.bufferSize e .src
  dstSize : t.bufferSize e .dst = s.bufferSize e .dst
  dst : (s.engineStatus e).state ≠ .busy → t.buffer e .dst = s.buffer e .dst

/-- An engine's turn changes the `DST` of that engine alone, and only while it is BUSY. -/
theorem engineTurn_quiet {e e' : Engine} {s t : State} (h : engineTurn e' s = .next t) : s.Quiet e t := by
  match e, e', h with
  | .btd, .btd, h =>
    have hjob := sameJob_of_btdTurn h
    refine ⟨hjob.src, hjob.srcSize, hjob.dstSize, fun hidle => ?_⟩
    cases (btdTurn_idle hidle).symm.trans h
    rfl
  | .lzd, .lzd, h =>
    have hjob := sameJob_of_lzdTurn h
    refine ⟨hjob.src, hjob.srcSize, hjob.dstSize, fun hidle => ?_⟩
    cases (lzdTurn_idle hidle).symm.trans h
    rfl
  | .lzd, .btd, h => rw [btdTurn_keeps_rest h]; exact ⟨rfl, rfl, rfl, fun _ => rfl⟩
  | .btd, .lzd, h => rw [lzdTurn_keeps_rest h]; exact ⟨rfl, rfl, rfl, fun _ => rfl⟩

/-- No step but a reset changes `SRC` or a length of an engine that is BUSY or whose end is unread, and a host move
changes its `DST` neither. -/
theorem step_quiet {s t : State} {e : Engine} (h : step s = .next t) (hreset : s.agenda.head? ≠ some (.host .reset))
    (hown : s.engineBusy e = true ∨ s.endUnread e = true) :
    s.Quiet e t ∧ ((∃ m, s.agenda.head? = some (.host m)) → t.buffer e .dst = s.buffer e .dst) := by
  rcases step_cases s with ⟨ha, -, hs⟩ | ⟨ha, -, hs⟩ | ⟨e', rest, ha, hs⟩ | ⟨m, rest, ha, hs⟩ <;> rw [hs] at h
  · exact ⟨engineTurn_quiet (e' := .btd) h, by simp [ha]⟩
  · exact ⟨engineTurn_quiet (e' := .lzd) h, by simp [ha]⟩
  · obtain ⟨hsrc, hsrcSize, hdstSize, hdst⟩ := engineTurn_quiet (e := e) h
    cases e <;> exact ⟨⟨hsrc, hsrcSize, hdstSize, hdst⟩, by simp [ha]⟩
  · have hm : m ≠ .reset := fun e => hreset (by rw [ha, e]; rfl)
    have hsame := hostTurn_keeps_buffers (e := e) h hm (by cases e <;> exact hown)
    cases e <;>
      exact ⟨⟨(hsame .src).1, (hsame .src).2, (hsame .dst).2, fun _ => (hsame .dst).1⟩, fun _ => (hsame .dst).1⟩

/-! ### The invariant of the machine -/

/-- The invariant says nothing of the moves to come. -/
theorem State.Inv.with_agenda {s : State} (h : s.Inv) (rest : List Turn) : State.Inv { s with agenda := rest } :=
  ⟨h.btd, h.lzd, h.btdUnread, h.lzdUnread⟩

theorem inv_of_btdTurn {s t : State} (hinv : s.Inv) (h : btdTurn s = .next t) : t.Inv := by
  have hbtd := btd_inv_of_btdTurn hinv.btd h
  have hunread : t.btd.status.state = .busy → s.btdUnread = true := fun hb => by
    by_cases hs : s.btd.status.state = .busy
    · exact hinv.btdUnread hs
    · cases (btdTurn_idle hs).symm.trans h
      exact absurd hb hs
  rw [btdTurn_keeps_rest h]
  exact ⟨hbtd, hinv.lzd, hunread, hinv.lzdUnread⟩

theorem inv_of_lzdTurn {s t : State} (hinv : s.Inv) (h : lzdTurn s = .next t) : t.Inv := by
  have hlzd := lzd_inv_of_lzdTurn hinv.lzd h
  have hunread : t.lzd.status.state = .busy → s.lzdUnread = true := fun hb => by
    by_cases hs : s.lzd.status.state = .busy
    · exact hinv.lzdUnread hs
    · cases (lzdTurn_idle hs).symm.trans h
      exact absurd hb hs
  rw [lzdTurn_keeps_rest h]
  exact ⟨hinv.btd, hlzd, hinv.btdUnread, hunread⟩

theorem inv_of_engineTurn {e : Engine} {s t : State} (hinv : s.Inv) (h : engineTurn e s = .next t) : t.Inv :=
  match e, h with
  | .btd, h => inv_of_btdTurn hinv h
  | .lzd, h => inv_of_lzdTurn hinv h

/-- An accepted START marks the end unread and leaves a running operation, or one that has ended. -/
theorem inv_of_strobeBtd {v : Word} {s t : State} (hinv : s.Inv) (h : strobeBtd v s = .next t) : t.Inv := by
  rcases strobeBtd_eq_next.mp h with ⟨-, rfl⟩ | ⟨-, hidle, hlen, i, rest, hd, hx⟩
  · exact hinv
  have hb : s.btd.status.state ≠ .busy := by simpa [Status.busy] using hidle
  obtain ⟨-, ⟨hop, rfl⟩ | ⟨hop, rfl⟩ | ⟨hop, rfl⟩⟩ := decode_operationCode.mp hd <;> cases hx
  · exact ⟨Btd.inv_decodeColorBlocks hinv.btd hb hlen hop, hinv.lzd, fun _ => rfl, hinv.lzdUnread⟩
  · exact ⟨Btd.inv_decodeIntensity8 hinv.btd hb hlen hop, hinv.lzd, fun _ => rfl, hinv.lzdUnread⟩
  · exact ⟨Btd.inv_decodeIntensity4 hinv.btd hb hlen hop, hinv.lzd, fun _ => rfl, hinv.lzdUnread⟩

theorem inv_of_strobeLzd {v : Word} {s t : State} (hinv : s.Inv) (h : strobeLzd v s = .next t) : t.Inv := by
  rcases strobeLzd_eq_next.mp h with ⟨-, rfl⟩ | ⟨-, hidle, hlen, hx⟩
  · exact hinv
  have hb : s.lzd.status.state ≠ .busy := by simpa [Status.busy] using hidle
  cases hx
  exact ⟨hinv.btd, Lzd.inv_operation hinv.lzd hb hlen, hinv.btdUnread, fun _ => rfl⟩

theorem inv_of_writeRegister {e : Engine} {index : Nat} {v : Word} {s t : State} (hinv : s.Inv)
    (h : writeRegister e index v s = .next t) : t.Inv := by
  cases e with
  | btd =>
    rw [writeRegister] at h
    split at h
    · exact inv_of_strobeBtd hinv h
    · cases h
      have hst := (Btd.writeDescriptor_keeps index v s.btd).1
      exact ⟨Btd.inv_writeDescriptor hinv.btd index v, hinv.lzd, fun hb => hinv.btdUnread (hst ▸ hb), hinv.lzdUnread⟩
  | lzd =>
    rw [writeRegister] at h
    split at h
    · exact inv_of_strobeLzd hinv h
    · cases h
      have hst := (Lzd.writeDescriptor_keeps index v s.lzd).1
      exact ⟨hinv.btd, Lzd.inv_writeDescriptor hinv.lzd index v, hinv.btdUnread, fun hb => hinv.lzdUnread (hst ▸ hb)⟩

/-- The end of an operation is marked read only once the engine shows DONE or ERROR, so not while it is BUSY. -/
theorem State.inv_observe {s : State} (hinv : s.Inv) (e : Engine) (index : Nat) : (s.observe e index).Inv := by
  unfold State.observe
  split
  · next h =>
    have hended : (s.engineStatus e).state ≠ .busy := fun hb => by simp [Status.ended, hb] at h
    cases e
    · exact ⟨hinv.btd, hinv.lzd, fun hb => absurd hb hended, hinv.lzdUnread⟩
    · exact ⟨hinv.btd, hinv.lzd, hinv.btdUnread, fun hb => absurd hb hended⟩
  · exact hinv

/-- A buffer handed over to an engine at rest, canonical and inside its length. -/
theorem State.inv_handOver {s : State} {e : Engine} {b : Buffer} {m : Memory} {size : Nat} (hinv : s.Inv)
    (hfree : s.barred e b true = none) (hwf : m.wf = true) (hfits : m.Fits size) : (s.handOver m size e b).Inv := by
  have hb : (s.engineStatus e).state ≠ .busy := fun hb => by
    have := (State.barred_eq_none.mp hfree).1
    rw [(s.engineBusy_iff e).mpr hb] at this
    cases this
  match e, b, hb with
  | .btd, .src, hb =>
    exact ⟨Btd.inv_of_idle hinv.btd hb rfl ⟨hwf, hfits⟩ ⟨hinv.btd.dstWf, hinv.btd.dstFits⟩, hinv.lzd, hinv.btdUnread,
      hinv.lzdUnread⟩
  | .btd, .dst, hb =>
    exact ⟨Btd.inv_of_idle hinv.btd hb rfl ⟨hinv.btd.srcWf, hinv.btd.srcFits⟩ ⟨hwf, hfits⟩, hinv.lzd, hinv.btdUnread,
      hinv.lzdUnread⟩
  | .lzd, .src, hb =>
    exact ⟨hinv.btd, Lzd.inv_of_idle hinv.lzd hb rfl ⟨hwf, hfits⟩ ⟨hinv.lzd.dstWf, hinv.lzd.dstFits⟩, hinv.btdUnread,
      hinv.lzdUnread⟩
  | .lzd, .dst, hb =>
    exact ⟨hinv.btd, Lzd.inv_of_idle hinv.lzd hb rfl ⟨hinv.lzd.srcWf, hinv.lzd.srcFits⟩ ⟨hwf, hfits⟩, hinv.btdUnread,
      hinv.lzdUnread⟩

/-- Every buffer is canonical and holds bytes at its own indices only. -/
theorem State.Inv.buffer {s : State} (hinv : s.Inv) (e : Engine) (b : Buffer) :
    (s.buffer e b).wf = true ∧ (s.buffer e b).Fits (s.bufferSize e b) :=
  match e, b with
  | .btd, .src => ⟨hinv.btd.srcWf, hinv.btd.srcFits⟩
  | .btd, .dst => ⟨hinv.btd.dstWf, hinv.btd.dstFits⟩
  | .lzd, .src => ⟨hinv.lzd.srcWf, hinv.lzd.srcFits⟩
  | .lzd, .dst => ⟨hinv.lzd.dstWf, hinv.lzd.dstFits⟩

theorem inv_of_hostTurn {m : HostMove} {s t : State} (hinv : s.Inv) (h : hostTurn m s = .next t) : t.Inv := by
  cases m with
  | writeReg e index v => exact inv_of_writeRegister hinv h
  | readReg e index =>
    cases h
    have hbus : State.Inv { s with bus := readRegister e index s } :=
      ⟨hinv.btd, hinv.lzd, hinv.btdUnread, hinv.lzdUnread⟩
    exact State.inv_observe hbus e index
  | writeByte e b a v =>
    obtain ⟨hfree, ha, rfl⟩ := hostWrite_eq_next.mp h
    obtain ⟨hwf, hfits⟩ := hinv.buffer e b
    rw [State.setBuffer_eq_handOver]
    exact State.inv_handOver hinv hfree (Memory.wf_write v hwf a.isLt) (Memory.fits_write v hfits ha)
  | readByte e b a =>
    obtain ⟨-, -, v, -, rfl⟩ := hostRead_eq_next.mp h
    exact ⟨hinv.btd, hinv.lzd, hinv.btdUnread, hinv.lzdUnread⟩
  | bind e b bytes =>
    obtain ⟨hfree, hsize, rfl⟩ := hostBind_eq_next.mp h
    exact State.inv_handOver hinv hfree (wfFrom_cellsFrom le_rfl (by omega)) (fits_cellsFrom hsize)
  | allocate e b size =>
    obtain ⟨hfree, hsize, rfl⟩ := hostBind_eq_next.mp h
    exact State.inv_handOver hinv hfree Memory.wf_nil (Memory.fits_nil hsize)
  | reset =>
    cases h
    exact ⟨Btd.inv_resetMove hinv.btd _, Lzd.inv_resetMove hinv.lzd _, fun h => (by cases h), fun h => (by cases h)⟩

end Sys2Proof.Machine
end

section
/-! SUPPORT. The statements of 10_state.md about the state and its steps, settled from the lemmas above. -/

namespace Sys2Proof.Machine

/-! ### Turns and steps -/

/-- Settles O50: a step is a turn of an engine or a move of the host, and each keeps the invariant. -/
theorem everyStepKeepsTheInvariant : Obligations.EveryStepKeepsTheInvariant := by
  intro s t hinv h
  rcases step_cases s with ⟨-, -, hs⟩ | ⟨-, -, hs⟩ | ⟨e, rest, -, hs⟩ | ⟨m, rest, -, hs⟩ <;> rw [hs] at h
  · exact inv_of_btdTurn hinv h
  · exact inv_of_lzdTurn hinv h
  · exact inv_of_engineTurn (hinv.with_agenda rest) h
  · exact inv_of_hostTurn (hinv.with_agenda rest) h

/-- Settles O36. -/
theorem engineTurnChangesOnlyItsEngine : Obligations.EngineTurnChangesOnlyItsEngine := by
  refine ⟨fun s t h => ?_, fun s t h => ?_⟩
  · have hjob := sameJob_of_btdTurn h
    exact ⟨btdTurn_keeps_rest h, hjob.op, hjob.width, hjob.height, hjob.srcLen, hjob.dstLen, hjob.src, hjob.srcSize,
      hjob.dstSize⟩
  · have hjob := sameJob_of_lzdTurn h
    exact ⟨lzdTurn_keeps_rest h, hjob.outSize, hjob.srcLen, hjob.dstLen, hjob.src, hjob.srcSize, hjob.dstSize⟩

/-- Settles O38: an element of BTD takes at least one byte, one of LZD may raise before it reads any. -/
theorem streamCursorNeverDecreases : Obligations.StreamCursorNeverDecreases := by
  refine ⟨fun s t hinv hb h => ?_, fun s t hinv hb h => ?_⟩
  · obtain ⟨k, b, hk, hkb, rfl⟩ := btdTurn_busy hb h
    obtain ⟨hup, hle, -⟩ := hkb.running (hk.running (hinv.running hb))
    obtain ⟨_, _, _, _, _, _, rfl⟩ := hk.frame
    exact ⟨hup, hle⟩
  · obtain ⟨k, l, hk, hkl, rfl⟩ := lzdTurn_busy hb h
    obtain ⟨-, hsp, -⟩ := hkl.frame
    exact hsp ▸ hk.cursor (hinv.running hb).cursor

/-- Settles O45: each engine finds its buffers quiet, by `step_quiet`. -/
theorem onlyTheEngineTouchesItsBuffers : Obligations.OnlyTheEngineTouchesItsBuffers := by
  refine fun s t h hreset => ⟨fun hown => ?_, fun hown => ?_⟩
  · obtain ⟨hquiet, hhost⟩ := step_quiet (e := .btd) h hreset (hown.imp_left (s.engineBusy_iff .btd).mpr)
    exact ⟨hquiet.src, hquiet.srcSize, hquiet.dstSize, fun hd => hd.elim hquiet.dst hhost⟩
  · obtain ⟨hquiet, hhost⟩ := step_quiet (e := .lzd) h hreset (hown.imp_left (s.engineBusy_iff .lzd).mpr)
    exact ⟨hquiet.src, hquiet.srcSize, hquiet.dstSize, fun hd => hd.elim hquiet.dst hhost⟩

/-- Settles O34. -/
theorem stepRunsTheDecodedElement : Obligations.StepRunsTheDecodedElement := by
  refine ⟨fun s i rest ha hb hi hf hread hlen => ?_, fun s i rest ha hb hi hdue hread hlen => ?_⟩
  · have hturn : btdTurn { s with agenda := rest } = exec i { s with agenda := rest } :=
      btdTurn_of_encode hb hi hf hread hlen
    rcases ha with ha | ⟨ha, rfl⟩
    · rw [step_of_engine ha]
      exact hturn
    · rw [← ha] at hturn ⊢
      rw [step_of_nil_btd ha hb]
      exact hturn
  · have hturn : lzdTurn { s with agenda := rest } = exec i { s with agenda := rest } :=
      lzdTurn_of_encode hb hi hdue hread hlen
    rcases ha with ha | ⟨ha, rfl, hidle⟩
    · rw [step_of_engine ha]
      exact hturn
    · rw [← ha] at hturn ⊢
      rw [step_of_nil_lzd ha hidle]
      exact hturn

/-! ### START -/

/-- What a START with sizes that pass the entry check makes of the machine, the registers R46 leaves open aside. -/
theorem exec_start_eq {s : State} {ok : Nat → Nat → Nat → Nat → Bool} {H : Nat} {i : Instr}
    (hi : exec i s = .next { s with btd := s.btd.operation ok H }) (hb : s.btd.status.state ≠ .busy)
    (hok : ok s.btd.width.toNat s.btd.height.toNat s.btd.srcLen.toNat s.btd.dstLen.toNat = true)
    (hw : s.btd.width.toNat % 8 = 0) (hh : s.btd.height.toNat % H = 0) :
    ∃ t, exec i s = .next t ∧
      t = { s with btd := { s.btd with
        status := if s.btd.width = 0 ∨ s.btd.height = 0 then ⟨.done, .none⟩ else ⟨.busy, .none⟩
        sp := 0, ty := 0, tx := 0, sb := 0, row := 0, col := 0
        c1 := t.btd.c1, c2 := t.btd.c2, bits := t.btd.bits, nib := t.btd.nib, ct := t.btd.ct
        draws := t.btd.draws } } := by
  rw [Btd.operation_of_sizesOk hb hok hw hh] at hi
  exact ⟨_, hi, rfl⟩

/-- Settles O16. -/
theorem decodeColorBlocksStarts : Obligations.DecodeColorBlocksStarts := by
  intro s hb hw hh hsrc hdst
  exact exec_start_eq (exec_decodeColorBlocks s) hb (by simp [colorBlocksSizesOk, hw, hh, hsrc, hdst]) hw hh

/-- Settles O17. -/
theorem decodeIntensity8Starts : Obligations.DecodeIntensity8Starts := by
  intro s hb hw hh hsrc hdst
  exact exec_start_eq (exec_decodeIntensity8 s) hb (by simp [intensity8SizesOk, hw, hh, hsrc, hdst]) hw hh

/-- Settles O18. -/
theorem decodeIntensity4Starts : Obligations.DecodeIntensity4Starts := by
  intro s hb hw hh hsrc hdst
  exact exec_start_eq (exec_decodeIntensity4 s) hb (by simp [intensity4SizesOk, hw, hh, hsrc, hdst]) hw hh

/-- Settles O19: the early exit at START is taken exactly when the output size is 0. -/
theorem decompressStarts : Obligations.DecompressStarts := by
  intro s hb hpos hdst
  have hok : decompressSizesOk s.lzd.outSize.toInt s.lzd.dstLen.toNat = true := by simp [decompressSizesOk, hpos, hdst]
  have hexhausted : s.lzd.start.exhausted = true ↔ s.lzd.outSize = 0 := by
    have hzero : s.lzd.outSize = 0 ↔ s.lzd.outSize.toInt = 0 := by
      rw [← BitVec.toInt_inj]; rfl
    rw [hzero, Lzd.exhausted, Lzd.start_rem, decide_eq_true_iff]
    omega
  have hstart : s.lzd.operation =
      { s.lzd.start with status := if s.lzd.outSize = 0 then ⟨.done, .none⟩ else ⟨.busy, .none⟩ } := by
    rcases Lzd.operation_cases hb with ⟨h, -⟩ | ⟨-, h⟩
    · rw [hok] at h; cases h
    · rw [h, Lzd.exitEarly]
      by_cases h0 : s.lzd.outSize = 0
      · rw [if_pos (hexhausted.mpr h0), if_pos h0]; rfl
      · rw [if_neg fun h => h0 (hexhausted.mp h), if_neg h0]; rfl
  exact ⟨_, by rw [exec_decompress, hstart], rfl⟩

/-- Settles O21. -/
theorem ignoredStartChangesNothing : Obligations.IgnoredStartChangesNothing := by
  refine ⟨fun s v rest ha h => ?_, fun s v rest ha h => ?_⟩
  · rw [step_of_host ha]
    exact strobeBtd_ignored h
  · rw [step_of_host ha]
    exact strobeLzd_ignored h

/-- Settles O22. -/
theorem startRunsTheSelectedOperation : Obligations.StartRunsTheSelectedOperation := by
  refine ⟨fun s v rest i ha hb hv hi => ?_, fun s v rest ha hb hv => ?_⟩
  · rw [step_of_host ha]
    refine (strobeBtd_accepted (s := { s with agenda := rest }) hb hv hi).trans ?_
    simp only [Btd.lengthsTrue, Bool.and_eq_true, decide_eq_true_eq]
  · rw [step_of_host ha]
    refine (strobeLzd_accepted (s := { s with agenda := rest }) hb hv).trans ?_
    simp only [Lzd.lengthsTrue, Bool.and_eq_true, decide_eq_true_eq]

/-! ### Registers -/

/-- Writing a descriptor register of BTD while not BUSY, by index. -/
theorem Btd.writeDescriptor_of_idle {b : Btd} (hb : b.status.state ≠ .busy) (v : Word) :
    b.writeDescriptor 0 v = { b with op := v.extractLsb' 0 2 } ∧ b.writeDescriptor 1 v = { b with width := v } ∧
      b.writeDescriptor 2 v = { b with height := v } ∧ b.writeDescriptor 3 v = { b with srcLen := v } ∧
      b.writeDescriptor 4 v = { b with dstLen := v } ∧ ∀ n, b.writeDescriptor (n + 5) v = b := by
  have hidle : b.status.busy = false := by simpa [Status.busy] using hb
  simp [Btd.writeDescriptor, hidle]

/-- Writing a descriptor register of LZD while not BUSY, by index. -/
theorem Lzd.writeDescriptor_of_idle {l : Lzd} (hb : l.status.state ≠ .busy) (v : Word) :
    l.writeDescriptor 0 v = { l with outSize := v } ∧ l.writeDescriptor 1 v = { l with srcLen := v } ∧
      l.writeDescriptor 2 v = { l with dstLen := v } ∧ ∀ n, l.writeDescriptor (n + 3) v = l := by
  have hidle : l.status.busy = false := by simpa [Status.busy] using hb
  simp [Lzd.writeDescriptor, hidle]

/-- A descriptor write leaves what every other index reads. -/
theorem Btd.readRegister_writeDescriptor_ne {index other : Nat} (h : other ≠ index) (v : Word) (b : Btd) :
    (b.writeDescriptor index v).readRegister other = b.readRegister other := by
  unfold Btd.writeDescriptor
  split
  · rfl
  · split <;> unfold Btd.readRegister <;> split <;> trivial

theorem Lzd.readRegister_writeDescriptor_ne {index other : Nat} (h : other ≠ index) (v : Word) (l : Lzd) :
    (l.writeDescriptor index v).readRegister other = l.readRegister other := by
  unfold Lzd.writeDescriptor
  split
  · rfl
  · split <;> unfold Lzd.readRegister <;> split <;> trivial

/-- Settles O39, register by register. -/
theorem descriptorWritesReadBack : Obligations.DescriptorWritesReadBack := by
  refine ⟨fun b index v hb => ⟨?_, fun other ho => b.readRegister_writeDescriptor_ne ho v, fun hi => ?_⟩,
    fun l index v hb => ⟨?_, fun other ho => l.readRegister_writeDescriptor_ne ho v, fun hi => ?_⟩,
    fun s index v hi => if_neg hi, fun s index v hi => if_neg hi⟩
  · have hop : (v.extractLsb' 0 2).zeroExtend 32 = BitVec.ofNat 32 (v.toNat % 4) := by
      apply BitVec.eq_of_toNat_eq
      simp [BitVec.extractLsb'_toNat]
    obtain ⟨h0, h1, h2, h3, h4, hrest⟩ := Btd.writeDescriptor_of_idle hb v
    match index with
    | 0 => rw [h0]; exact hop
    | 1 => rw [h1]; rfl
    | 2 => rw [h2]; rfl
    | 3 => rw [h3]; rfl
    | 4 => rw [h4]; rfl
    | 5 => rw [hrest 0]; rfl
    | 6 => rw [hrest 1]; rfl
    | n + 7 => rw [hrest (n + 2)]; simp [Btd.readRegister]
  · obtain ⟨n, rfl⟩ := Nat.exists_eq_add_of_le' hi
    obtain ⟨-, -, -, -, -, hrest⟩ := Btd.writeDescriptor_of_idle hb v
    exact hrest n
  · obtain ⟨h0, h1, h2, hrest⟩ := Lzd.writeDescriptor_of_idle hb v
    match index with
    | 0 => rw [h0]; rfl
    | 1 => rw [h1]; rfl
    | 2 => rw [h2]; rfl
    | 3 => rw [hrest 0]; rfl
    | 4 => rw [hrest 1]; rfl
    | n + 5 => rw [hrest (n + 2)]; simp [Lzd.readRegister]
  · obtain ⟨n, rfl⟩ := Nat.exists_eq_add_of_le' hi
    obtain ⟨-, -, -, hrest⟩ := Lzd.writeDescriptor_of_idle hb v
    exact hrest n

/-- Settles O40: START is ignored while BUSY, and so is every other register write. -/
theorem descriptorWritesWhileBusyAreIgnored : Obligations.DescriptorWritesWhileBusyAreIgnored := by
  intro s e index v hbusy
  have hb := (s.engineBusy_iff e).mp hbusy
  cases e with
  | btd =>
    rw [hostTurn, writeRegister]
    split
    · exact strobeBtd_ignored (.inl hb)
    · rw [Btd.writeDescriptor_of_busy index v hb]
  | lzd =>
    rw [hostTurn, writeRegister]
    split
    · exact strobeLzd_ignored (.inl hb)
    · rw [Lzd.writeDescriptor_of_busy index v hb]

/-- The two fields of STATUS do not overlap. -/
theorem Status.word_toNat (st : Status) : st.word.toNat = st.state.code.toNat + 4 * st.err.code.toNat := by
  have hstate := st.state.code.isLt
  rw [Status.word, BitVec.toNat_append, BitVec.toNat_append, ← Nat.shiftLeft_add_eq_or_of_lt hstate]
  simp only [BitVec.toNat_zero, Nat.shiftLeft_eq, Nat.zero_mul, Nat.zero_or]
  omega

/-- Settles O41. -/
theorem statusWordLayout : Obligations.StatusWordLayout := by
  intro st
  rw [Status.word_toNat]
  congr 1
  · cases st.state <;> rfl
  · cases st.err <;> rfl

theorem Status.ended_iff (st : Status) : st.ended = true ↔ st.state = .done ∨ st.state = .error := by
  simp [Status.ended]

/-- Settles O42. -/
theorem registerReadsHaveNoSideEffect : Obligations.RegisterReadsHaveNoSideEffect := by
  refine ⟨fun s index => ?_, fun s index => ?_⟩
  · have hread : hostTurn (.readReg .btd index) s = .next { s with
        bus := s.btd.readRegister index
        btdUnread := if index = 6 ∧ (s.btd.status.state = .done ∨ s.btd.status.state = .error) then false
          else s.btdUnread } := by
      simp only [hostTurn, State.observe, statusIndex, State.engineStatus, Status.ended_iff]
      split <;> rfl
    have hop : s.btd.op.zeroExtend 32 = BitVec.ofNat 32 s.btd.op.toNat := by simp
    rw [hread, ← hop]
    rfl
  · have hread : hostTurn (.readReg .lzd index) s = .next { s with
        bus := s.lzd.readRegister index
        lzdUnread := if index = 4 ∧ (s.lzd.status.state = .done ∨ s.lzd.status.state = .error) then false
          else s.lzdUnread } := by
      simp only [hostTurn, State.observe, statusIndex, State.engineStatus, Status.ended_iff]
      split <;> rfl
    rw [hread]
    rfl

/-! ### Buffers of an engine at rest -/

/-- Settles O43. -/
theorem buffersAreTheHostsMemory : Obligations.BuffersAreTheHostsMemory := by
  have hread : ∀ {s : State} {e : Engine} {b : Buffer} {a : Word} {v : Byte}, s.barred e b false = none →
      a.toNat < s.bufferSize e b → (s.buffer e b).read a.toNat = some v →
      hostTurn (.readByte e b a) s = .next { s with bus := BitVec.ofNat 32 v.toNat } := by
    intro s e b a v hfree ha hv
    refine hostRead_eq_next.mpr ⟨hfree, ha, v, hv, ?_⟩
    simp
  refine ⟨fun s e b hb hend => ⟨fun a v ha => ?_, fun bytes hlen => ?_, fun size hsize => ?_, fun a v => ?_⟩,
    fun s e a v hb => hread (State.barred_eq_none.mpr ⟨hb, .inr ⟨rfl, rfl⟩⟩)⟩
  · have hfree := State.barred_eq_none (b := b) (writes := true).mpr ⟨hb, .inl hend⟩
    exact ⟨_, hostWrite_eq_next.mpr ⟨hfree, ha, rfl⟩, fun x => by rw [State.buffer_setBuffer, Memory.read_write],
      by rw [State.buffer_setBuffer]⟩
  · have hfree := State.barred_eq_none (b := b) (writes := true).mpr ⟨hb, .inl hend⟩
    exact ⟨_, hostBind_eq_next.mpr ⟨hfree, hlen, rfl⟩, fun x => by simp [read_cellsFrom],
      by rw [State.buffer_handOver]⟩
  · have hfree := State.barred_eq_none (b := b) (writes := true).mpr ⟨hb, .inl hend⟩
    exact ⟨_, hostBind_eq_next.mpr ⟨hfree, hsize, rfl⟩, fun x => by simp, by rw [State.buffer_handOver]⟩
  · exact hread (State.barred_eq_none.mpr ⟨hb, .inl hend⟩)

/-! ### Reset -/

/-- A destination after a reset: untouched where the host had it, forgotten below its length otherwise (R46, R47, R74). -/
theorem Btd.resetMove_dst (unread : Bool) (b : Btd) :
    (b.status.state ≠ .busy → unread = false → (b.resetMove unread).dst = b.dst) ∧
      ∀ a, b.dstSize ≤ a → (b.resetMove unread).dst.read a = b.dst.read a := by
  unfold Btd.resetMove
  dsimp only
  split
  · next h =>
    refine ⟨fun hb hu => ?_, fun a ha => ?_⟩
    · simp [Status.busy, hb, hu] at h
    · rw [Memory.read_forget, if_neg (by omega)]
  · exact ⟨fun _ _ => rfl, fun _ _ => rfl⟩

theorem Lzd.resetMove_dst (unread : Bool) (l : Lzd) :
    (l.status.state ≠ .busy → unread = false → (l.resetMove unread).dst = l.dst) ∧
      ∀ a, l.dstSize ≤ a → (l.resetMove unread).dst.read a = l.dst.read a := by
  unfold Lzd.resetMove
  dsimp only
  split
  · next h =>
    refine ⟨fun hb hu => ?_, fun a ha => ?_⟩
    · simp [Status.busy, hb, hu] at h
    · rw [Memory.read_forget, if_neg (by omega)]
  · exact ⟨fun _ _ => rfl, fun _ _ => rfl⟩

/-- Settles O46. -/
theorem resetLeavesBothEnginesIdle : Obligations.ResetLeavesBothEnginesIdle := by
  intro s
  obtain ⟨hbtd, hbtdBeyond⟩ := Btd.resetMove_dst s.btdUnread s.btd
  obtain ⟨hlzd, hlzdBeyond⟩ := Lzd.resetMove_dst s.lzdUnread s.lzd
  exact ⟨hostReset s, rfl, rfl, rfl, rfl, rfl, rfl, rfl, rfl, rfl, hbtd, hlzd, hbtdBeyond, hlzdBeyond, rfl⟩

/-- Settles O47. -/
theorem resetStateWaitsForStart : Obligations.ResetStateWaitsForStart := by
  refine ⟨by decide, by decide, ?_⟩
  rw [step_of_nil_lzd rfl (by decide)]
  exact lzdTurn_idle (by decide)

/-- Settles O49: nothing is BUSY and the buffers are empty. -/
theorem invariantHoldsAtReset : Obligations.InvariantHoldsAtReset where
  btd := ⟨rfl, rfl, by decide, Memory.fits_nil (by decide), Memory.fits_nil (by decide), .inl rfl,
    fun h => (by cases h), fun h => (by cases h)⟩
  lzd := ⟨rfl, rfl, by decide, Memory.fits_nil (by decide), Memory.fits_nil (by decide), fun h => (by cases h),
    fun h => (by cases h)⟩
  btdUnread h := by cases h
  lzdUnread h := by cases h

end Sys2Proof.Machine
end

section
/-! SUPPORT. The statement of 20_memory.md about the time from START until the end is read, settled from the lemmas
above. -/

namespace Sys2Proof.Machine

/-! ### Accesses that are turned away (R77, R120, R264) -/

/-- Which refusal an access meets that falls in the time from START until the end is read: any access while BUSY, and
after it any but a read of `SRC`. -/
theorem State.barred_eq_some {s : State} {e : Engine} {b : Buffer} {writes : Bool}
    (hown : s.engineBusy e = true ∨ s.endUnread e = true)
    (haccess : s.engineBusy e = true ∨ writes = true ∨ b = .dst) :
    s.barred e b writes = some (if s.engineBusy e then .bufferBusy else .endUnread) := by
  unfold State.barred
  by_cases hbusy : s.engineBusy e = true
  · rw [if_pos hbusy, if_pos hbusy]
  · have hend : s.endUnread e = true := hown.resolve_left hbusy
    have hkind : writes = true ∨ b = .dst := haccess.resolve_left hbusy
    rw [if_neg hbusy, if_neg hbusy, if_pos (by simpa [hend] using hkind)]

theorem hostWrite_of_barred {s : State} {e : Engine} {b : Buffer} {r : Refusal} (h : s.barred e b true = some r)
    (a : Word) (v : Byte) : hostWrite e b a v s = .refused r := by
  rw [hostWrite, h]

theorem hostRead_of_barred {s : State} {e : Engine} {b : Buffer} {r : Refusal} (h : s.barred e b false = some r)
    (a : Word) : hostRead e b a s = .refused r := by
  rw [hostRead, h]

theorem hostBind_of_barred {s : State} {e : Engine} {b : Buffer} {r : Refusal} (h : s.barred e b true = some r)
    (m : Memory) (size : Nat) : hostBind e b m size s = .refused r := by
  rw [hostBind, h]

/-! ### What leaves the record of an unread end (log entry 25) -/

@[simp] theorem State.endUnread_with_btd (s : State) (b : Btd) (e : Engine) :
    State.endUnread { s with btd := b } e = s.endUnread e := by
  cases e <;> rfl

@[simp] theorem State.endUnread_with_lzd (s : State) (l : Lzd) (e : Engine) :
    State.endUnread { s with lzd := l } e = s.endUnread e := by
  cases e <;> rfl

@[simp] theorem State.endUnread_with_bus (s : State) (w : Word) (e : Engine) :
    State.endUnread { s with bus := w } e = s.endUnread e := by
  cases e <;> rfl

@[simp] theorem State.endUnread_with_agenda (s : State) (rest : List Turn) (e : Engine) :
    State.endUnread { s with agenda := rest } e = s.endUnread e := by
  cases e <;> rfl

@[simp] theorem State.endUnread_handOver (s : State) (m : Memory) (n : Nat) (e e' : Engine) (b : Buffer) :
    (s.handOver m n e' b).endUnread e = s.endUnread e := by
  cases e <;> simp [State.endUnread]

/-- Noting a START clears no record, of whichever engine. -/
theorem State.endUnread_setUnread_true {s : State} {e : Engine} (e' : Engine) (h : s.endUnread e = true) :
    (s.setUnread true e').endUnread e = true := by
  by_cases he : e = e'
  · rw [he, State.endUnread_setUnread]
  · rwa [State.endUnread_setUnread_ne _ _ he]

/-- An engine's turn touches neither record: the end of an operation is not yet the host's reading of it (R74). -/
theorem engineTurn_endUnread {e e' : Engine} {s t : State} (h : engineTurn e' s = .next t) :
    t.endUnread e = s.endUnread e := by
  cases e' with
  | btd => rw [btdTurn_keeps_rest h, State.endUnread_with_btd]
  | lzd => rw [lzdTurn_keeps_rest h, State.endUnread_with_lzd]

/-- A register write, START among them, clears no record. -/
theorem writeRegister_keeps_endUnread {e e' : Engine} {index : Nat} {v : Word} {s t : State}
    (h : writeRegister e' index v s = .next t) (hend : s.endUnread e = true) : t.endUnread e = true := by
  cases e' with
  | btd =>
    rw [writeRegister] at h
    split at h
    · rcases strobeBtd_eq_next.mp h with ⟨-, rfl⟩ | ⟨-, -, -, i, rest, hd, hx⟩
      · exact hend
      · obtain ⟨-, ⟨-, rfl⟩ | ⟨-, rfl⟩ | ⟨-, rfl⟩⟩ := decode_operationCode.mp hd <;> cases hx <;>
          exact (State.endUnread_with_btd _ _ e).trans (State.endUnread_setUnread_true .btd hend)
    · cases h
      rwa [State.endUnread_with_btd]
  | lzd =>
    rw [writeRegister] at h
    split at h
    · rcases strobeLzd_eq_next.mp h with ⟨-, rfl⟩ | ⟨-, -, -, hx⟩
      · exact hend
      · cases hx
        exact (State.endUnread_with_lzd _ _ e).trans (State.endUnread_setUnread_true .lzd hend)
    · cases h
      rwa [State.endUnread_with_lzd]

/-- The host's moves that end the time: a reset, or a read of that engine's STATUS showing DONE or ERROR (R74, R264). -/
theorem hostTurn_clears_endUnread {m : HostMove} {s t : State} {e : Engine} (h : hostTurn m s = .next t)
    (hend : s.endUnread e = true) (hread : t.endUnread e = false) :
    m = .reset ∨ m = .readReg e (statusIndex e) ∧ (s.engineStatus e).ended = true := by
  have hkept : t.endUnread e ≠ s.endUnread e := by simp [hend, hread]
  cases m with
  | writeReg e' index v => exact absurd (writeRegister_keeps_endUnread h hend) (by simp [hread])
  | readReg e' index =>
    cases h
    rw [State.endUnread_observe] at hread
    split at hread
    · next hobserved =>
      obtain ⟨rfl, rfl, hended⟩ := hobserved
      exact .inr ⟨rfl, by cases e <;> exact hended⟩
    · exact absurd hread (by simp [hend])
  | writeByte e' b a v =>
    obtain ⟨-, -, rfl⟩ := hostWrite_eq_next.mp h
    rw [State.setBuffer_eq_handOver] at hkept
    exact absurd (State.endUnread_handOver _ _ _ e e' b) hkept
  | readByte e' b a =>
    obtain ⟨-, -, v, -, rfl⟩ := hostRead_eq_next.mp h
    exact absurd (State.endUnread_with_bus _ _ e) hkept
  | bind e' b bytes =>
    obtain ⟨-, -, rfl⟩ := hostBind_eq_next.mp h
    exact absurd (State.endUnread_handOver _ _ _ e e' b) hkept
  | allocate e' b size =>
    obtain ⟨-, -, rfl⟩ := hostBind_eq_next.mp h
    exact absurd (State.endUnread_handOver _ _ _ e e' b) hkept
  | reset => exact .inl rfl

/-- A step that clears a record is a host move that ends the time; no turn of an engine does. -/
theorem step_clears_endUnread {s t : State} {e : Engine} (h : step s = .next t) (hend : s.endUnread e = true)
    (hread : t.endUnread e = false) :
    s.agenda.head? = some (.host .reset) ∨
      s.agenda.head? = some (.host (.readReg e (statusIndex e))) ∧ (s.engineStatus e).ended = true := by
  have hturn : ∀ {e' : Engine} {u : State}, u.endUnread e = s.endUnread e → engineTurn e' u ≠ .next t := by
    intro e' u hu hx
    rw [engineTurn_endUnread hx, hu, hend] at hread
    cases hread
  rcases step_cases s with ⟨-, -, hs⟩ | ⟨-, -, hs⟩ | ⟨e', rest, -, hs⟩ | ⟨m, rest, ha, hs⟩ <;> rw [hs] at h
  · exact absurd h (hturn (e' := .btd) rfl)
  · exact absurd h (hturn (e' := .lzd) rfl)
  · exact absurd h (hturn (State.endUnread_with_agenda s rest e))
  · rw [ha, List.head?_cons]
    rcases hostTurn_clears_endUnread h (by simpa using hend) hread with rfl | ⟨rfl, hended⟩
    · exact .inl rfl
    · exact .inr ⟨rfl, by cases e <;> exact hended⟩

/-- Settles O44: the refusals by `State.barred_eq_some`, the end of the time by `step_clears_endUnread`. -/
theorem hostWaitsUntilTheEndIsRead : Obligations.HostWaitsUntilTheEndIsRead := by
  refine ⟨fun s e hown r hr => ?_, fun s t e h hend hread => ?_⟩
  · subst hr
    have hwrite := fun b => State.barred_eq_some (b := b) (writes := true) hown (.inr (.inl rfl))
    have hreadDst := State.barred_eq_some (b := .dst) (writes := false) hown (.inr (.inr rfl))
    exact ⟨fun b a v => hostWrite_of_barred (hwrite b) a v, fun a => hostRead_of_barred hreadDst a,
      fun b bytes => hostBind_of_barred (hwrite b) _ _, fun b size => hostBind_of_barred (hwrite b) _ _,
      fun hbusy a => hostRead_of_barred (State.barred_eq_some hown (.inl hbusy)) a⟩
  · exact (step_clears_endUnread h hend hread).imp_right fun ⟨hmove, hended⟩ =>
      ⟨hmove, (Status.ended_iff _).mp hended⟩

end Sys2Proof.Machine
end

section
/-! SUPPORT. The statements of 30_encoding.md about the decoder and the encoder. -/

namespace Sys2Proof.Machine

/-! ### Encoding and decoding (R90 to R117) -/

/-- Settles O1. -/
theorem decodeEncodeRoundTrip : Obligations.DecodeEncodeRoundTrip :=
  fun _ rest hi => decode_encode_append hi rest

/-- Settles O2: the fields of each layout, put together again, are the bytes they were taken from. -/
theorem decodingDropsNoByte : Obligations.DecodingDropsNoByte := by
  intro c bytes rest i hc h
  have hctx := context_of_decode h
  cases c with
  | commandBtd => exact absurd rfl hc
  | commandLzd => cases h; exact ⟨rfl, hctx, rfl⟩
  | control => cases bytes <;> cases h; exact ⟨rfl, hctx, rfl⟩
  | literal => cases bytes <;> cases h; exact ⟨rfl, hctx, rfl⟩
  | reference =>
    obtain ⟨b0, b1, rfl, hn, rfl⟩ | ⟨b0, b1, e, rfl, hn, rfl⟩ := decodeReference_ok h
    · exact ⟨bne_iff_ne.mpr hn, rfl, by simp [encode]⟩
    · exact ⟨rfl, rfl, by simp [encode, ← hn]⟩
  | colorBlock =>
    obtain ⟨a0, a1, b0, b1, r0, r1, r2, r3, rfl, ⟨hmode, rfl⟩ | ⟨hmode, rfl⟩⟩ := decodeBlock_ok h
    · exact ⟨hmode, rfl, by simp [encode]⟩
    · refine ⟨?_, rfl, by simp [encode]⟩
      simpa [Instr.WellFormed, Instr.wellFormed, BitVec.ule_eq_decide, BitVec.ult_eq_decide] using hmode
  | intensity8 => cases bytes <;> cases h; exact ⟨rfl, hctx, rfl⟩
  | intensity4 => cases bytes <;> cases h; exact ⟨rfl, hctx, by simp [encode]⟩

theorem distanceOf_toNat (d : BitVec 12) : (distanceOf d).toNat = d.toNat + 1 := by
  simp [distanceOf]; omega

theorem shortLength_toNat (n : BitVec 4) : (shortLength n).toNat = n.toNat + 2 := by
  simp [shortLength]; omega

theorem extendedLength_toNat (e : Byte) : (extendedLength e).toNat = e.toNat + 18 := by
  simp [extendedLength]; omega

/-- What a back-reference stands for (R98): `REF` and `REFX` with their biases. -/
theorem backReferenceOperands_eq_some {i : Instr} {dist len : Nat} :
    backReferenceOperands i = some (dist, len) ↔
      (∃ n d, i = .ref n d ∧ dist = d.toNat + 1 ∧ len = n.toNat + 2) ∨
      (∃ d e, i = .refx d e ∧ dist = d.toNat + 1 ∧ len = e.toNat + 18) := by
  cases i <;>
    simp [backReferenceOperands, distanceOf_toNat, shortLength_toNat, extendedLength_toNat, eq_comm (b := dist),
      eq_comm (b := len)]

/-- A well-formed `REF` has a length code from 1 to 15 (R96). -/
theorem Instr.wellFormed_ref_iff {n : BitVec 4} {d : BitVec 12} : (Instr.ref n d).WellFormed ↔ 0 < n.toNat := by
  have hzero : n = 0 ↔ n.toNat = 0 := by rw [← BitVec.toNat_inj]; rfl
  rw [Instr.WellFormed, Instr.wellFormed, bne_iff_ne, Ne, hzero, Nat.pos_iff_ne_zero]

/-- Settles O3: the lengths up to 17 are those of `REF`, the lengths from 18 on those of `REFX`, and the operands give
the fields back. -/
theorem everyDistanceAndLengthHasOneEncoding : Obligations.EveryDistanceAndLengthHasOneEncoding := by
  refine ⟨distanceOf_toNat, shortLength_toNat, extendedLength_toNat, fun i dist len hi h => ?_,
    fun dist len hd hd' hl hl' => ?_⟩
  · obtain ⟨n, d, rfl, rfl, rfl⟩ | ⟨d, e, rfl, rfl, rfl⟩ := backReferenceOperands_eq_some.mp h
    · have hn := Instr.wellFormed_ref_iff.mp hi
      omega
    · omega
  · have hdist : (BitVec.ofNat 12 (dist - 1)).toNat = dist - 1 := by simp; omega
    by_cases hshort : len ≤ 17
    · have hlen : (BitVec.ofNat 4 (len - 2)).toNat = len - 2 := by simp; omega
      refine ⟨.ref (BitVec.ofNat 4 (len - 2)) (BitVec.ofNat 12 (dist - 1)),
        ⟨Instr.wellFormed_ref_iff.mpr (by omega),
          backReferenceOperands_eq_some.mpr (.inl ⟨_, _, rfl, by omega, by omega⟩)⟩, fun j hj h => ?_⟩
      obtain ⟨n, d, rfl, rfl, rfl⟩ | ⟨d, e, rfl, rfl, rfl⟩ := backReferenceOperands_eq_some.mp h
      · exact congrArg₂ Instr.ref (BitVec.eq_of_toNat_eq (by omega)) (BitVec.eq_of_toNat_eq (by omega))
      · omega
    · have hlen : (BitVec.ofNat 8 (len - 18)).toNat = len - 18 := by simp; omega
      refine ⟨.refx (BitVec.ofNat 12 (dist - 1)) (BitVec.ofNat 8 (len - 18)),
        ⟨rfl, backReferenceOperands_eq_some.mpr (.inr ⟨_, _, rfl, by omega, by omega⟩)⟩, fun j hj h => ?_⟩
      obtain ⟨n, d, rfl, rfl, rfl⟩ | ⟨d, e, rfl, rfl, rfl⟩ := backReferenceOperands_eq_some.mp h
      · omega
      · exact congrArg₂ Instr.refx (BitVec.eq_of_toNat_eq (by omega)) (BitVec.eq_of_toNat_eq (by omega))

/-- Settles O4: no format is longer than eight bytes, and none rejects a byte value. -/
theorem everyStreamByteValueDecodes : Obligations.EveryStreamByteValueDecodes := by
  intro c bytes hc hlen
  match bytes, hlen with
  | b0 :: b1 :: b2 :: b3 :: b4 :: b5 :: b6 :: b7 :: rest, _ =>
    cases c with
    | commandBtd => exact absurd rfl hc
    | reference => simp only [decode, decodeReference]; split <;> exact ⟨_, _, rfl⟩
    | colorBlock => simp only [decode, decodeBlock]; split <;> exact ⟨_, _, rfl⟩
    | commandLzd | control | literal | intensity8 | intensity4 => exact ⟨_, _, rfl⟩

/-- Settles O8: each word is the encoding of its element, which O1 decodes. -/
theorem writtenOutWordsDecode : Obligations.WrittenOutWordsDecode :=
  ⟨decodeEncodeRoundTrip (.ctrl 0xA0#8) [] rfl, decodeEncodeRoundTrip (.lit 0xAB#8) [] rfl,
    decodeEncodeRoundTrip (.ref 3 0) [] rfl, decodeEncodeRoundTrip (.ref 1 0xFFF#12) [] rfl,
    decodeEncodeRoundTrip (.refx 0x102#12 0x0C#8) [] rfl,
    decodeEncodeRoundTrip (.cblkG 0xF800#16 0x001F#16 0x1B#8 0x1B#8 0x1B#8 0xE4#8) [] rfl,
    decodeEncodeRoundTrip (.cblkA 0x1234#16 0x1234#16 0x00#8 0x55#8 0xAA#8 0xFF#8) [] rfl,
    decodeEncodeRoundTrip (.i8px 0x7F#8) [] rfl, decodeEncodeRoundTrip (.i4pp 0xA#4 0x3#4) [] rfl⟩

/-! ### Index rows (R102, R148) -/

/-- After `k` shifts the index on top is that of the row byte moved `2k` places up. -/
theorem indexAt_eq_nextIndex (row : Byte) (k : Nat) : indexAt row k = nextIndex (row <<< (2 * k)) := by
  induction k generalizing row with
  | zero => simp [indexAt]
  | succ k ih => rw [indexAt, ih, shiftBits, ← BitVec.shiftLeft_add, Nat.mul_succ, Nat.add_comm]

/-- The index of column `k` is bits [7-2k : 6-2k] of the row byte. -/
theorem indexAt_eq_extractLsb' (row : Byte) {k : Nat} (hk : k < 4) :
    indexAt row k = row.extractLsb' (6 - 2 * k) 2 := by
  rw [indexAt_eq_nextIndex, nextIndex]
  apply BitVec.eq_of_getLsbD_eq
  intro i hi
  have hbit : 6 + i < 8 ∧ ¬ 6 + i < 2 * k ∧ 6 + i - 2 * k = 6 - 2 * k + i := by omega
  simp only [BitVec.getLsbD_extractLsb', BitVec.getLsbD_shiftLeft, hi, hbit, decide_true, decide_false, Bool.not_false,
    Bool.true_and]

/-- Settles O15: four shifts by two bits move all eight out of the register. -/
theorem indexRowsAreReadFromTheTop : Obligations.IndexRowsAreReadFromTheTop := by
  refine fun row => ⟨fun k => indexAt_eq_extractLsb' row k.isLt, ?_⟩
  simp only [drainedBits, shiftBits, ← BitVec.shiftLeft_add]
  exact BitVec.shiftLeft_eq_zero (by decide)

/-! ### The reserved operation code (R112, U8) -/

/-- Settles O23: no instruction stands for `OP` = 3, so the START write has nothing to run. -/
theorem reservedOperationIsRefused : Obligations.ReservedOperationIsRefused := by
  intro s v rest ha hb hv hop
  have hd : decode .commandBtd [s.btd.op.zeroExtend 8] = .error .reservedOperation := by rw [hop]; rfl
  have hidle : s.btd.status.busy = false := by simpa [Status.busy] using hb
  rw [step_of_host ha]
  change strobeBtd v { s with agenda := rest } = _
  simp [strobeBtd, hv, hidle, hd]

end Sys2Proof.Machine
end

section
/-! SUPPORT. The picture an operation of engine BTD decodes: writing whole pixels, the run of an operation element by
element, and the arithmetic of tiles. -/

namespace Sys2Proof.Machine

/-! ### Writing whole pixels (R64, R65) -/

/-- The cells of the pixels `ps`, one pixel after the other, each with the four bytes that `rgba` gives it. -/
def imageCells (width : Nat) (rgba : Nat → Nat → Fin 4 → Byte) (ps : List (Nat × Nat)) : List Host.Cell :=
  ps.flatMap fun p => pixelCells width p.1 p.2 (List.ofFn (rgba p.1 p.2))

theorem mem_cellsFrom_iff {a : Nat} {bs : List Byte} {c : Host.Cell} :
    c ∈ cellsFrom a bs ↔ ∃ i, c.1 = a + i ∧ bs[i]? = some c.2 := by
  induction bs generalizing a with
  | nil => simp
  | cons b bs ih =>
    rw [cellsFrom_cons, List.mem_cons, ih]
    constructor
    · rintro (rfl | ⟨i, hi, hb⟩)
      · exact ⟨0, rfl, rfl⟩
      · exact ⟨i + 1, by omega, by simpa using hb⟩
    · rintro ⟨i, hi, hb⟩
      cases i with
      | zero => exact .inl (Prod.ext hi (by simpa using hb.symm))
      | succ i => exact .inr ⟨i, by omega, by simpa using hb⟩

theorem mem_imageCells {width : Nat} {rgba : Nat → Nat → Fin 4 → Byte} {ps : List (Nat × Nat)} {c : Host.Cell} :
    c ∈ imageCells width rgba ps ↔
      ∃ x y, ∃ ch : Fin 4, (x, y) ∈ ps ∧ c = (pix width x y + ch.val, rgba x y ch) := by
  simp only [imageCells, pixelCells, List.mem_flatMap, mem_cellsFrom_iff, List.getElem?_ofFn,
    Option.dite_none_right_eq_some, Option.some.injEq, Prod.exists]
  constructor
  · rintro ⟨x, y, hp, i, hc, hi, hv⟩
    exact ⟨x, y, ⟨i, hi⟩, hp, Prod.ext hc hv.symm⟩
  · rintro ⟨x, y, ch, hp, rfl⟩
    exact ⟨x, y, hp, ch.val, rfl, ch.isLt, rfl⟩

/-- A pixel's bytes lie inside the image. -/
theorem pix_add_lt {width height x y : Nat} (ch : Fin 4) (hx : x < width) (hy : y < height) :
    pix width x y + ch.val < width * height * 4 := by
  have hch := ch.isLt
  have hrow : y * width + x + 1 ≤ width * height := by
    calc y * width + x + 1 ≤ y * width + width := by omega
      _ = width * (y + 1) := by ring
      _ ≤ width * height := Nat.mul_le_mul_left _ hy
  simp only [pix]
  omega

/-- Two numbers written in rows of `n` are equal only if row and column are. -/
theorem row_col_inj {n a b c d : Nat} (hb : b < n) (hd : d < n) (h : a * n + b = c * n + d) : a = c ∧ b = d := by
  have hn := Nat.zero_lt_of_lt hb
  have hab := (Nat.div_mod_unique (a := a * n + b) (d := a) hn).mpr ⟨by ring, hb⟩
  have hcd := (Nat.div_mod_unique (a := c * n + d) (d := c) hn).mpr ⟨by ring, hd⟩
  rw [h] at hab
  exact ⟨hab.1.symm.trans hcd.1, hab.2.symm.trans hcd.2⟩

/-- No two channels of an image share an address. -/
theorem pix_add_inj {width x y x' y' : Nat} {ch ch' : Fin 4} (hx : x < width) (hx' : x' < width)
    (h : pix width x y + ch.val = pix width x' y' + ch'.val) : x = x' ∧ y = y' ∧ ch = ch' := by
  have hch := ch.isLt
  have hch' := ch'.isLt
  simp only [pix] at h
  obtain ⟨rfl, rfl⟩ := row_col_inj (a := y) (c := y') hx hx' (by omega)
  exact ⟨rfl, rfl, Fin.ext (by omega)⟩

/-- Writing pixels: theirs are the bytes read afterwards, every other pixel is as before. -/
theorem Memory.read_writeAll_imageCells (m : Memory) {width x y : Nat} {rgba : Nat → Nat → Fin 4 → Byte}
    {ps : List (Nat × Nat)} (ch : Fin 4) (hps : ∀ p ∈ ps, p.1 < width) (hx : x < width) :
    (m.writeAll (imageCells width rgba ps)).read (pix width x y + ch.val) =
      if (x, y) ∈ ps then some (rgba x y ch) else m.read (pix width x y + ch.val) := by
  have hown : ∀ c ∈ imageCells width rgba ps, c.1 = pix width x y + ch.val → (x, y) ∈ ps ∧ c.2 = rgba x y ch := by
    intro c hc hat
    obtain ⟨x', y', ch', hp, rfl⟩ := mem_imageCells.mp hc
    obtain ⟨rfl, rfl, rfl⟩ := pix_add_inj (hps _ hp) hx hat
    exact ⟨hp, rfl⟩
  split
  · next hp =>
    exact Memory.read_writeAll_of_mem _ _ _ _ (mem_imageCells.mpr ⟨x, y, ch, hp, rfl⟩)
      fun c hc hat => (hown c hc hat).2
  · next hp => exact Memory.read_writeAll_of_not_mem _ _ _ fun c hc hat => hp (hown c hc hat).1

/-- The cells of pixels of the image lie below its size. -/
theorem imageCells_lt {width height : Nat} {rgba : Nat → Nat → Fin 4 → Byte} {ps : List (Nat × Nat)}
    (hps : ∀ p ∈ ps, p.1 < width ∧ p.2 < height) : ∀ c ∈ imageCells width rgba ps, c.1 < width * height * 4 := by
  intro c hc
  obtain ⟨x, y, ch, hp, rfl⟩ := mem_imageCells.mp hc
  exact pix_add_lt ch (hps _ hp).1 (hps _ hp).2

/-! ### The end of an operation (R128, R152, R170, R173) -/

/-- An operation is done once its position is past the last tile. -/
theorem Btd.tiles_le_of_finished {m : Btd} {H : Nat} (hm : m.status.state = .busy)
    (hdone : (m.finishTiles H).status.state ≠ .busy) : m.tilesPerRow * (m.height.toNat / H) ≤ m.tileIndex := by
  rw [Btd.finishTiles_status] at hdone
  split at hdone
  · next hty =>
    calc m.tilesPerRow * (m.height.toNat / H) ≤ m.tilesPerRow * m.ty.toNat := Nat.mul_le_mul_left _ hty
      _ = m.ty.toNat * m.tilesPerRow := Nat.mul_comm _ _
      _ ≤ m.tileIndex := Nat.le_add_right _ _
  · exact absurd hm hdone

theorem Btd.cursor_of_colorBlocks_done {b : Btd} (hr : b.RunsColorBlocks) (hb : b.status.state = .busy)
    (hdone : ((b.advance 8).nextBlock.finishTiles 8).status.state ≠ .busy) : b.srcLen.toNat ≤ b.sp.toNat + 8 := by
  obtain ⟨hok, hin, -, -, hsp⟩ := hr
  have hsrc := Btd.srcLen_of_colorBlocks hok
  obtain ⟨-, -, hidx⟩ := Btd.nextBlock_moves (b := b.advance 8) hin
  have hlast := Btd.tiles_le_of_finished (by simpa using hb) hdone
  simp only [Btd.tilesPerRow, Btd.nextBlock_width, Btd.nextBlock_height, Btd.advance_width, Btd.advance_height] at hlast
  rw [show (b.advance 8).tileIndex = b.tileIndex from rfl, Btd.advance_sb] at hidx
  simp only [Btd.tilesPerRow] at hsrc
  omega

theorem Btd.intensity8_height_lt {b : Btd} (hr : b.RunsIntensity8) : b.height.toNat / 4 < 2 ^ 29 := by
  obtain ⟨hok, hin, -, -, -⟩ := hr
  have hsrc := Btd.srcLen_of_intensity8 hok
  have hle := Nat.le_mul_of_pos_left (b.height.toNat / 4) (Nat.zero_lt_of_lt hin.1)
  have hlt := b.srcLen.isLt
  omega

theorem Btd.cursor_of_intensity8_done {b : Btd} (hr : b.RunsIntensity8) (hb : b.status.state = .busy)
    (hdone : (((b.advance 1).nextPixel 1 4).finishTiles 4).status.state ≠ .busy) :
    b.srcLen.toNat ≤ b.sp.toNat + 1 := by
  have hty := Btd.intensity8_height_lt hr
  obtain ⟨hok, hin, -, hrow, hsp⟩ := hr
  have hsrc := Btd.srcLen_of_intensity8 hok
  have hcol := b.col.isLt
  obtain ⟨-, -, -, -, hidx⟩ :=
    Btd.nextPixel_moves (b := b.advance 1) (stride := 1) hin hty hrow (by omega) (by simp; omega)
  have hlast := Btd.tiles_le_of_finished (by simpa using hb) hdone
  simp only [Btd.tilesPerRow, Btd.nextPixel_width, Btd.nextPixel_height, Btd.advance_width, Btd.advance_height] at hlast
  rw [show (b.advance 1).tileIndex = b.tileIndex from rfl, Btd.advance_row, Btd.advance_col] at hidx
  simp only [Btd.tilesPerRow] at hsrc
  omega

theorem Btd.cursor_of_intensity4_done {b : Btd} (hr : b.RunsIntensity4) (hb : b.status.state = .busy)
    (hdone : (((b.advance 1).nextPixel 2 8).finishTiles 8).status.state ≠ .busy) :
    b.srcLen.toNat ≤ b.sp.toNat + 1 := by
  obtain ⟨hok, hin, -, heven, hsp⟩ := hr
  have hsrc := Btd.srcLen_of_intensity4 hok
  have hcol := b.col.isLt
  have hrow := b.row.isLt
  have hh := b.height.isLt
  obtain ⟨-, -, -, -, hidx⟩ :=
    Btd.nextPixel_moves (b := b.advance 1) (stride := 2) hin (by simp; omega) (by simpa using hrow) (by omega)
      (by simp; omega)
  have hlast := Btd.tiles_le_of_finished (by simpa using hb) hdone
  simp only [Btd.tilesPerRow, Btd.nextPixel_width, Btd.nextPixel_height, Btd.advance_width, Btd.advance_height] at hlast
  rw [show (b.advance 1).tileIndex = b.tileIndex from rfl, Btd.advance_row, Btd.advance_col] at hidx
  simp only [Btd.tilesPerRow] at hsrc
  omega

/-- An element of a running operation takes eight bytes of the source in `decodeColorBlocks`, one otherwise (R90). -/
theorem Btd.Advances.cursor {k b : Btd} (h : k.Advances b) (hr : k.Running) :
    b.sp.toNat = k.sp.toNat + if k.op = 0 then 8 else 1 := by
  cases h with
  | block hop =>
    have hr : k.RunsColorBlocks := by simpa [Btd.Running, hop] using hr
    simpa [hop] using toNat_add_ofNat (Btd.runsColorBlocks_next hr).1
  | pixel hop =>
    have hr : k.RunsIntensity8 := by simpa [Btd.Running, hop] using hr
    simpa [hop] using toNat_add_ofNat (Btd.runsIntensity8_next hr).1
  | pair hop =>
    have hr : k.RunsIntensity4 := by simpa [Btd.Running, hop] using hr
    simpa [hop] using toNat_add_ofNat (Btd.runsIntensity4_next hr).1

/-- An operation that ends with an element has used its source to the last byte. -/
theorem Btd.Advances.cursor_of_done {k b : Btd} (h : k.Advances b) (hr : k.Running) (hk : k.status.state = .busy)
    (hdone : b.status.state ≠ .busy) : b.sp = k.srcLen := by
  obtain ⟨-, hle, -⟩ := h.running hr
  refine BitVec.eq_of_toNat_eq (Nat.le_antisymm hle ?_)
  rw [h.cursor hr]
  cases h with
  | block hop =>
    have hr : k.RunsColorBlocks := by simpa [Btd.Running, hop] using hr
    simpa [hop] using Btd.cursor_of_colorBlocks_done hr hk hdone
  | pixel hop =>
    have hr : k.RunsIntensity8 := by simpa [Btd.Running, hop] using hr
    simpa [hop] using Btd.cursor_of_intensity8_done hr hk hdone
  | pair hop =>
    have hr : k.RunsIntensity4 := by simpa [Btd.Running, hop] using hr
    simpa [hop] using Btd.cursor_of_intensity4_done hr hk hdone

/-! ### Storing the cells of an element (R65, R238) -/

/-- Storing the cells of an element, and nothing else. -/
theorem Btd.stores_writeAll {b : Btd} {cells : List Host.Cell} (hfit : ∀ c ∈ cells, c.1 < b.dstLen.toNat) :
    b.Stores { b with dst := b.dst.writeAll cells } :=
  ⟨⟨_, _, _, _, _, _, rfl⟩, cells, hfit, rfl⟩

theorem Btd.Stores.sp {b k : Btd} (h : b.Stores k) : k.sp = b.sp := by
  obtain ⟨_, _, _, _, _, _, rfl⟩ := h.frame
  rfl

/-- Loading a pair after its cells are stored. -/
theorem Btd.stores_loadPair (v : Byte) {b : Btd} {cells : List Host.Cell}
    (hfit : ∀ c ∈ cells, c.1 < b.dstLen.toNat) :
    b.Stores (Btd.loadPair v { b with dst := b.dst.writeAll cells }) :=
  ⟨⟨_, _, _, _, v, _, rfl⟩, cells, hfit, rfl⟩

/-! ### The picture of an operation (R103, R104, R105, R106) -/

/-- What an operation makes of a stream: for each pixel the place in the stream of the element that holds it, and its
four bytes. -/
structure Picture where
  place : Nat → Nat → Nat
  rgba : Nat → Nat → Fin 4 → Byte

/-- `b'` is `b` after an element that writes the pixels `ps` as the picture has them and then advances: pixels of the
image, and all of those whose place the cursor passes. -/
structure Btd.Element (pic : Picture) (ps : List (Nat × Nat)) (b k b' : Btd) : Prop where
  stores : b.Stores k
  advances : k.Advances b'
  written : k.dst = b.dst.writeAll (imageCells b.width.toNat pic.rgba ps)
  inside : ∀ p ∈ ps, p.1 < b.width.toNat ∧ p.2 < b.height.toNat
  complete : ∀ x y, x < b.width.toNat → y < b.height.toNat → b.sp.toNat ≤ pic.place x y →
    pic.place x y < b'.sp.toNat → (x, y) ∈ ps

/-- The turn of engine BTD in `u` is an element that writes the picture's pixels and takes `len` bytes of the source. -/
def Picture.PaintedByTurn (pic : Picture) (len : Nat) (u : State) : Prop :=
  ∃ ps k b, u.btd.Element pic ps k b ∧ b.sp.toNat = u.btd.sp.toNat + len ∧ btdTurn u = .next { u with btd := b }

/-- How far an operation started on `b0` has come in `b`: it runs, or is done with its source used up; the pixels placed
below the cursor are those of the picture; beyond `DST_LEN` nothing has changed. -/
structure Btd.Progress (pic : Picture) (b0 b : Btd) : Prop where
  job : b0.SameJob b
  going : b.status.state = .busy ∧ b.Running ∨ b.status = .completed ∧ b.sp = b.srcLen
  painted : ∀ x y, ∀ ch : Fin 4, x < b0.width.toNat → y < b0.height.toNat → pic.place x y < b.sp.toNat →
    b.dst.read (pix b0.width.toNat x y + ch.val) = some (pic.rgba x y ch)
  outside : ∀ a, b0.dstLen.toNat ≤ a → b.dst.read a = b0.dst.read a

/-- A running operation has source bytes left. -/
theorem Btd.Running.cursor_lt {b : Btd} (hr : b.Running) : b.sp.toNat < b.srcLen.toNat := by
  rcases hr with ⟨-, hr⟩ | ⟨-, hr⟩ | ⟨-, hr⟩
  · have := (Btd.runsColorBlocks_next hr).1
    omega
  · exact (Btd.runsIntensity8_next hr).1
  · exact (Btd.runsIntensity4_next hr).1

/-- An element that writes the picture's pixels is progress. -/
theorem Btd.Progress.next {pic : Picture} {b0 b k b' : Btd} {ps : List (Nat × Nat)} (hp : b0.Progress pic b)
    (hb : b.status.state = .busy) (hr : b.Running) (he : b.Element pic ps k b') : b0.Progress pic b' := by
  have hk := he.stores.running hr
  have hjob := he.stores.sameJob
  have hbusy : k.status = b.status := by
    obtain ⟨_, _, _, _, _, _, rfl⟩ := he.stores.frame
    rfl
  refine ⟨hp.job.trans (hjob.trans he.advances.sameJob), ?_, fun x y ch hx hy hplace => ?_, fun a ha => ?_⟩
  · by_cases hgoes : b'.status.state = .busy
    · exact .inl ⟨hgoes, (he.advances.running hk).2.2 hgoes⟩
    · refine .inr ⟨he.advances.status.resolve_right fun h => hgoes (by rw [h, hbusy, hb]), ?_⟩
      rw [he.advances.cursor_of_done hk (by rw [hbusy, hb]) hgoes, he.advances.sameJob.srcLen]
  · rw [he.advances.dst, he.written, hp.job.width,
      Memory.read_writeAll_imageCells _ ch (fun p h => hp.job.width ▸ (he.inside p h).1) hx]
    split
    · rfl
    · next hnew =>
      refine hp.painted x y ch hx hy (Nat.lt_of_not_le fun hle => hnew ?_)
      exact he.complete x y (hp.job.width ▸ hx) (hp.job.height ▸ hy) hle hplace
  · obtain ⟨cells, hfit, hdst⟩ := he.stores.cells
    rw [he.advances.dst, hdst, Memory.read_writeAll_of_not_mem, hp.outside a ha]
    intro c hc hat
    have := hfit c hc
    rw [hp.job.dstLen] at this
    omega

/-- A run of `n` elements, if `n` elements are what the source still holds, uses the source up. -/
theorem Btd.Progress.turns {pic : Picture} {b0 : Btd} {len n : Nat} {s : State} (hlen : 0 < len)
    (hturn : ∀ u : State, b0.SameJob u.btd → u.btd.status.state = .busy → u.btd.Running → pic.PaintedByTurn len u)
    (hp : b0.Progress pic s.btd) (hn : s.btd.sp.toNat + len * n = b0.srcLen.toNat) :
    ∃ u, turns .btd n s = .next u ∧ b0.Progress pic u.btd ∧ u.btd.sp = b0.srcLen := by
  induction n generalizing s with
  | zero => exact ⟨s, rfl, hp, BitVec.eq_of_toNat_eq hn⟩
  | succ n ih =>
    rw [Nat.mul_succ] at hn
    obtain ⟨hb, hr⟩ : s.btd.status.state = .busy ∧ s.btd.Running := by
      refine hp.going.resolve_right fun ⟨_, hend⟩ => ?_
      rw [hend, hp.job.srcLen] at hn
      omega
    obtain ⟨ps, k, b, he, hsp, hnext⟩ := hturn s hp.job hb hr
    obtain ⟨u, hu, hup, hend⟩ := ih (s := { s with btd := b }) (hp.next hb hr he) (by rw [hsp]; omega)
    exact ⟨u, turns_succ_eq_next.mpr ⟨_, hnext, hu⟩, hup, hend⟩

/-- START is the beginning of progress: nothing is painted yet, and an image without a pixel has an empty source. -/
theorem Btd.progress_operation (pic : Picture) {b : Btd} {ok : Nat → Nat → Nat → Nat → Bool} {H : Nat}
    (hb : b.status.state ≠ .busy) (hok : ok b.width.toNat b.height.toNat b.srcLen.toNat b.dstLen.toNat = true)
    (hsrc : b.srcLen.toNat = 32 * (b.tilesPerRow * (b.height.toNat / H)))
    (hrun : 0 < b.width.toNat / 8 → 0 < b.height.toNat / H → b.start.Running) :
    b.Progress pic (b.operation ok H) ∧ (b.operation ok H).sp = 0 := by
  rcases Btd.operation_cases ok H hb with ⟨h, -⟩ | ⟨-, hempty, h⟩ | ⟨-, hw, hh, h⟩
  · rw [hok] at h; cases h
  · have hzero : b.srcLen = 0 := by
      apply BitVec.eq_of_toNat_eq
      rcases hempty with he | he <;> simp [hsrc, Btd.tilesPerRow, he]
    rw [h]
    exact ⟨⟨⟨rfl, rfl, rfl, rfl, rfl, rfl, rfl, rfl⟩, .inr ⟨rfl, hzero.symm⟩,
      fun _ _ _ _ _ hplace => absurd hplace (Nat.not_lt_zero _), fun _ _ => rfl⟩, rfl⟩
  · rw [h]
    exact ⟨⟨⟨rfl, rfl, rfl, rfl, rfl, rfl, rfl, rfl⟩, .inl ⟨rfl, hrun hw hh⟩,
      fun _ _ _ _ _ hplace => absurd hplace (Nat.not_lt_zero _), fun _ _ => rfl⟩, rfl⟩

/-- Once its source is used up, an operation is DONE and every pixel of the image is the picture's. -/
theorem Btd.Progress.result {pic : Picture} {b0 b : Btd} (hp : b0.Progress pic b) (hend : b.sp = b0.srcLen)
    (hplace : ∀ x y, x < b0.width.toNat → y < b0.height.toNat → pic.place x y < b0.srcLen.toNat) :
    b.status = ⟨.done, .none⟩ ∧
      ∀ x y, ∀ ch : Fin 4, x < b0.width.toNat → y < b0.height.toNat →
        b.dst.read (pix b0.width.toNat x y + ch.val) = some (pic.rgba x y ch) := by
  refine ⟨?_, fun x y ch hx hy => hp.painted x y ch hx hy (hend ▸ hplace x y hx hy)⟩
  refine (hp.going.resolve_left fun ⟨_, hr⟩ => ?_).1
  have := hr.cursor_lt
  rw [hend, hp.job.srcLen] at this
  omega

/-! ### Tiles (R103) -/

/-- The number of the tile that holds pixel (`x`, `y`), row-major across the image, the tiles being 8 wide and `h`
tall. -/
def tileAt (width h x y : Nat) : Nat := y / h * (width / 8) + x / 8

/-- A pixel of the image lies in one of its tiles. -/
theorem tileAt_lt {width height h x y : Nat} (hw : width % 8 = 0) (hh : height % h = 0) (hx : x < width)
    (hy : y < height) : tileAt width h x y < width / 8 * (height / h) := by
  have hcol : x / 8 < width / 8 := by omega
  have hrow : y / h < height / h := Nat.div_lt_div_of_lt_of_dvd (Nat.dvd_of_mod_eq_zero hh) hy
  calc y / h * (width / 8) + x / 8 < y / h * (width / 8) + width / 8 := by omega
    _ = width / 8 * (y / h + 1) := by ring
    _ ≤ width / 8 * (height / h) := Nat.mul_le_mul_left _ hrow

/-- A pixel lies in the current tile exactly if the position registers say so. -/
theorem Btd.tileAt_eq_tileIndex {b : Btd} {H x y : Nat} (hw : b.width.toNat % 8 = 0) (hin : b.TileInside H)
    (hx : x < b.width.toNat) :
    tileAt b.width.toNat H x y = b.tileIndex ↔ y / H = b.ty.toNat ∧ x / 8 = b.tx.toNat := by
  refine ⟨fun h => row_col_inj (n := b.width.toNat / 8) (by omega) hin.1 h, fun ⟨hy, hx⟩ => ?_⟩
  rw [tileAt, hy, hx]
  rfl

end Sys2Proof.Machine
end

section
/-! SUPPORT. The three operations of engine BTD as pictures: what each element writes, and the statements about the
whole operations. -/

namespace Sys2Proof.Machine

/-! ### From the elements to the whole operation -/

/-- An operation whose elements write the picture, `len` bytes of the source each, leaves the picture in `DST`. -/
theorem exec_turns_of_picture {pic : Picture} {ok : Nat → Nat → Nat → Nat → Bool} {H len n : Nat} {i : Instr}
    {s : State} (hi : exec i s = .next { s with btd := s.btd.operation ok H }) (hb : s.btd.status.state ≠ .busy)
    (hok : ok s.btd.width.toNat s.btd.height.toNat s.btd.srcLen.toNat s.btd.dstLen.toNat = true)
    (hsrc : s.btd.srcLen.toNat = 32 * (s.btd.tilesPerRow * (s.btd.height.toNat / H)))
    (hrun : 0 < s.btd.width.toNat / 8 → 0 < s.btd.height.toNat / H → s.btd.start.Running)
    (hplace : ∀ x y, x < s.btd.width.toNat → y < s.btd.height.toNat → pic.place x y < s.btd.srcLen.toNat)
    (hlen : 0 < len) (hn : len * n = s.btd.srcLen.toNat)
    (hturn : ∀ u : State, s.btd.SameJob u.btd → u.btd.status.state = .busy → u.btd.Running →
      pic.PaintedByTurn len u) :
    ∃ t u, exec i s = .next t ∧ turns .btd n t = .next u ∧
      u.btd.status = ⟨.done, .none⟩ ∧ u.btd.sp = s.btd.srcLen ∧
      (∀ x y, ∀ ch : Fin 4, x < s.btd.width.toNat → y < s.btd.height.toNat →
        u.btd.dst.read (pix s.btd.width.toNat x y + ch.val) = some (pic.rgba x y ch)) ∧
      (∀ a : Nat, s.btd.dstLen.toNat ≤ a → u.btd.dst.read a = s.btd.dst.read a) := by
  obtain ⟨hp, hsp⟩ := Btd.progress_operation pic hb hok hsrc hrun
  obtain ⟨u, hu, hup, hend⟩ :=
    Btd.Progress.turns (s := { s with btd := s.btd.operation ok H }) (n := n) hlen hturn hp (by simp [hsp, hn])
  obtain ⟨hstatus, hpixels⟩ := hup.result hend hplace
  exact ⟨_, u, hi, hu, hstatus, hend, hpixels, hup.outside⟩

/-! ### `decodeIntensity8` (R104, R170 to R172) -/

/-- Where the byte of a pixel stands in the stream: row by row inside a tile of 8 by 4. -/
def intensity8Place (width x y : Nat) : Nat := 32 * tileAt width 4 x y + 8 * (y % 4) + x % 8

/-- What `decodeIntensity8` makes of a stream: a byte for each pixel, in all four channels. -/
def intensity8Picture (src : Nat → Byte) (width : Nat) : Picture where
  place := intensity8Place width
  rgba x y _ := src (intensity8Place width x y)

/-- The entry check of `decodeIntensity8`, equation by equation (R124). -/
theorem intensity8SizesOk_iff {w h srcLen dstLen : Nat} :
    intensity8SizesOk w h srcLen dstLen = true ↔
      w % 8 = 0 ∧ h % 4 = 0 ∧ srcLen = w * h ∧ dstLen = w * h * 4 := by
  simp only [intensity8SizesOk, Bool.and_eq_true, decide_eq_true_eq, and_assoc]

/-- The pixel placed at the cursor is the one the position registers name. -/
theorem Btd.intensity8Place_eq_sp {b : Btd} (hr : b.RunsIntensity8) {x y : Nat} (hx : x < b.width.toNat) :
    intensity8Place b.width.toNat x y = b.sp.toNat ↔ x = b.pixelX ∧ y = b.pixelY 4 := by
  obtain ⟨hok, hin, -, hrow, hsp⟩ := hr
  obtain ⟨hw, -⟩ := intensity8SizesOk_iff.mp hok
  have htile := Btd.tileAt_eq_tileIndex (y := y) hw hin hx
  have hcol := b.col.isLt
  simp only [intensity8Place, Btd.pixelX, Btd.pixelY]
  omega

/-- The current pixel lies in the image. -/
theorem Btd.intensity8_pixel_inside {b : Btd} (hr : b.RunsIntensity8) :
    b.pixelX < b.width.toNat ∧ b.pixelY 4 < b.height.toNat := by
  obtain ⟨-, ⟨htx, hty⟩, -, hrow, -⟩ := hr
  have hcol := b.col.isLt
  simp only [Btd.pixelX, Btd.pixelY, Btd.tilesPerRow] at htx ⊢
  omega

theorem Btd.dstLen_of_intensity8 {b : Btd} (hr : b.RunsIntensity8) :
    b.dstLen.toNat = b.width.toNat * b.height.toNat * 4 := by
  obtain ⟨hok, -⟩ := hr
  obtain ⟨-, -, -, hdst⟩ := intensity8SizesOk_iff.mp hok
  exact hdst

/-- The cells of a pixel are those of the picture. -/
theorem Btd.i8Cells_eq_picture {b : Btd} (src : Nat → Byte) (hr : b.RunsIntensity8) :
    b.i8Cells (src b.sp.toNat) =
      imageCells b.width.toNat (intensity8Picture src b.width.toNat).rgba [(b.pixelX, b.pixelY 4)] := by
  have hplace := (Btd.intensity8Place_eq_sp hr (Btd.intensity8_pixel_inside hr).1).mpr ⟨rfl, rfl⟩
  simp [imageCells, Btd.i8Cells, grayCells, intensity8Picture, hplace, List.ofFn_succ]

/-- A turn of `decodeIntensity8` writes the pixel placed at the cursor. -/
theorem btdTurn_intensity8 {u : State} {src : Nat → Byte} (hop : u.btd.op = 1) (hb : u.btd.status.state = .busy)
    (hr : u.btd.RunsIntensity8) (hread : ∀ a, a < u.btd.srcLen.toNat → u.btd.src.read a = some (src a)) :
    (intensity8Picture src u.btd.width.toNat).PaintedByTurn 1 u := by
  have hroom := (Btd.runsIntensity8_next hr).1
  have hcells := Btd.i8Cells_eq_picture src hr
  have hps : ∀ p ∈ [(u.btd.pixelX, u.btd.pixelY 4)], p.1 < u.btd.width.toNat ∧ p.2 < u.btd.height.toNat := by
    simpa using Btd.intensity8_pixel_inside hr
  have hfit : ∀ c ∈ u.btd.i8Cells (src u.btd.sp.toNat), c.1 < u.btd.dstLen.toNat := by
    rw [hcells, Btd.dstLen_of_intensity8 hr]
    exact imageCells_lt hps
  have hturn : btdTurn u = exec (.i8px (src u.btd.sp.toNat)) u := by
    refine btdTurn_of_encode hb rfl (Btd.format_eq_some.mpr (.inr (.inl ⟨hop, rfl⟩))) (fun j hj => ?_) hroom
    obtain rfl : j = 0 := Nat.lt_one_iff.mp hj
    exact hread _ hroom
  have hsp : (u.btd.sp + 1).toNat = u.btd.sp.toNat + 1 := toNat_add_ofNat hroom
  refine ⟨_, _, _, ⟨Btd.stores_writeAll hfit, .pixel hop, congrArg u.btd.dst.writeAll hcells, hps,
    fun x y hx _ hle hlt => ?_⟩, by simpa using hsp, hturn.trans (execI8px_eq_next.mpr ⟨hfit, rfl⟩)⟩
  simp only [intensity8Picture, Btd.finishTiles_sp, Btd.nextPixel_sp, Btd.advance_sp, hsp] at hle hlt
  simpa using (Btd.intensity8Place_eq_sp (y := y) hr hx).mp (by omega)

/-- Settles O58: each of the `W*H` elements writes the pixel placed at the cursor. -/
theorem decodeIntensity8Result : Obligations.DecodeIntensity8Result := by
  intro s src hb hop hw hh hsrc hdst hread
  have hok := intensity8SizesOk_iff.mpr ⟨hw, hh, hsrc, hdst⟩
  have htiles := Btd.srcLen_of_intensity8 hok
  obtain ⟨t, u, ht, hu, hstatus, hsp, hpixels, houtside⟩ :=
    exec_turns_of_picture (pic := intensity8Picture src s.btd.width.toNat) (len := 1) (exec_decodeIntensity8 s) hb hok
      htiles (fun h8 h4 => .inr (.inl ⟨hop, hok, ⟨h8, h4⟩, rfl, by simp, by simp [Btd.start_tileIndex]⟩))
      (fun x y hx hy => by
        have := tileAt_lt hw hh hx hy
        simp only [intensity8Picture, intensity8Place, Btd.tilesPerRow] at htiles ⊢
        omega)
      (by decide) (by rw [Nat.one_mul, hsrc])
      (fun u hjob hbusy hr => by
        rw [← hjob.width]
        refine btdTurn_intensity8 (hjob.op.trans hop) hbusy ?_ (by rwa [hjob.src, hjob.srcLen])
        simpa [Btd.Running, hjob.op, hop] using hr)
  exact ⟨t, u, ht, hu, hstatus, hsp, fun x y ch hx hy hch => hpixels x y ⟨ch, hch⟩ hx hy, houtside⟩

/-! ### `decodeIntensity4` (R105, R173 to R175) -/

/-- Where the byte of a pixel pair stands in the stream: row by row inside a tile of 8 by 8. -/
def intensity4Place (width x y : Nat) : Nat := 32 * tileAt width 8 x y + 4 * (y % 8) + x % 8 / 2

/-- What `decodeIntensity4` makes of a stream: a byte for each pair of pixels, the high nibble for the left one. -/
def intensity4Picture (src : Nat → Byte) (width : Nat) : Picture where
  place := intensity4Place width
  rgba x y _ :=
    let v := src (intensity4Place width x y)
    exp4 (if x % 2 = 0 then highNibble v else lowNibble v)

/-- The entry check of `decodeIntensity4`, equation by equation (R125). -/
theorem intensity4SizesOk_iff {w h srcLen dstLen : Nat} :
    intensity4SizesOk w h srcLen dstLen = true ↔
      w % 8 = 0 ∧ h % 8 = 0 ∧ srcLen = w * h / 2 ∧ dstLen = w * h * 4 := by
  simp only [intensity4SizesOk, Bool.and_eq_true, decide_eq_true_eq, and_assoc]

/-- The pixels placed at the cursor are the one the position registers name and its right neighbour. -/
theorem Btd.intensity4Place_eq_sp {b : Btd} (hr : b.RunsIntensity4) {x y : Nat} (hx : x < b.width.toNat) :
    intensity4Place b.width.toNat x y = b.sp.toNat ↔ (x = b.pixelX ∨ x = b.pixelX + 1) ∧ y = b.pixelY 8 := by
  obtain ⟨hok, hin, -, heven, hsp⟩ := hr
  obtain ⟨hw, -⟩ := intensity4SizesOk_iff.mp hok
  have htile := Btd.tileAt_eq_tileIndex (y := y) hw hin hx
  have hcol := b.col.isLt
  have hrow := b.row.isLt
  simp only [intensity4Place, Btd.pixelX, Btd.pixelY]
  omega

/-- The current pair lies in the image, and begins at an even column. -/
theorem Btd.intensity4_pair_inside {b : Btd} (hr : b.RunsIntensity4) :
    b.pixelX % 2 = 0 ∧ b.pixelX + 1 < b.width.toNat ∧ b.pixelY 8 < b.height.toNat := by
  obtain ⟨-, ⟨htx, hty⟩, -, heven, -⟩ := hr
  have hcol := b.col.isLt
  have hrow := b.row.isLt
  simp only [Btd.pixelX, Btd.pixelY, Btd.tilesPerRow] at htx ⊢
  omega

theorem Btd.dstLen_of_intensity4 {b : Btd} (hr : b.RunsIntensity4) :
    b.dstLen.toNat = b.width.toNat * b.height.toNat * 4 := by
  obtain ⟨hok, -⟩ := hr
  obtain ⟨-, -, -, hdst⟩ := intensity4SizesOk_iff.mp hok
  exact hdst

/-- The cells of a pair are those of the picture, at its two pixels. -/
theorem Btd.i4Cells_eq_picture {b : Btd} (src : Nat → Byte) (hr : b.RunsIntensity4) :
    b.i4Cells (highNibble (src b.sp.toNat)) (lowNibble (src b.sp.toNat)) =
      imageCells b.width.toNat (intensity4Picture src b.width.toNat).rgba
        [(b.pixelX, b.pixelY 8), (b.pixelX + 1, b.pixelY 8)] := by
  obtain ⟨heven, hright, -⟩ := Btd.intensity4_pair_inside hr
  have hodd : (b.pixelX + 1) % 2 ≠ 0 := by omega
  have hleft := (Btd.intensity4Place_eq_sp hr (Nat.lt_of_succ_lt hright)).mpr ⟨.inl rfl, rfl⟩
  have hright := (Btd.intensity4Place_eq_sp hr hright).mpr ⟨.inr rfl, rfl⟩
  simp [imageCells, Btd.i4Cells, grayCells, intensity4Picture, hleft, hright, heven, hodd, List.ofFn_succ]

/-- A turn of `decodeIntensity4` writes the two pixels placed at the cursor. -/
theorem btdTurn_intensity4 {u : State} {src : Nat → Byte} (hop : u.btd.op = 2) (hb : u.btd.status.state = .busy)
    (hr : u.btd.RunsIntensity4) (hread : ∀ a, a < u.btd.srcLen.toNat → u.btd.src.read a = some (src a)) :
    (intensity4Picture src u.btd.width.toNat).PaintedByTurn 1 u := by
  have hroom := (Btd.runsIntensity4_next hr).1
  have hcells := Btd.i4Cells_eq_picture src hr
  have hps : ∀ p ∈ [(u.btd.pixelX, u.btd.pixelY 8), (u.btd.pixelX + 1, u.btd.pixelY 8)],
      p.1 < u.btd.width.toNat ∧ p.2 < u.btd.height.toNat := by
    obtain ⟨-, hright, hy⟩ := Btd.intensity4_pair_inside hr
    simp [hright, hy, Nat.lt_of_succ_lt hright]
  have hfit : ∀ c ∈ u.btd.i4Cells (highNibble (src u.btd.sp.toNat)) (lowNibble (src u.btd.sp.toNat)),
      c.1 < u.btd.dstLen.toNat := by
    rw [hcells, Btd.dstLen_of_intensity4 hr]
    exact imageCells_lt hps
  have hturn : btdTurn u = exec (.i4pp (highNibble (src u.btd.sp.toNat)) (lowNibble (src u.btd.sp.toNat))) u := by
    refine btdTurn_of_encode hb rfl (Btd.format_eq_some.mpr (.inr (.inr ⟨hop, rfl⟩))) (fun j hj => ?_) hroom
    obtain rfl : j = 0 := Nat.lt_one_iff.mp hj
    simpa [encode] using hread _ hroom
  have hsp : (u.btd.sp + 1).toNat = u.btd.sp.toNat + 1 := toNat_add_ofNat hroom
  refine ⟨_, _, _, ⟨Btd.stores_loadPair _ hfit, .pair hop, congrArg u.btd.dst.writeAll hcells, hps,
    fun x y hx _ hle hlt => ?_⟩, by simpa using hsp, hturn.trans (execI4pp_eq_next.mpr ⟨hfit, rfl⟩)⟩
  simp only [intensity4Picture, Btd.finishTiles_sp, Btd.nextPixel_sp, Btd.advance_sp, Btd.loadPair_sp, hsp] at hle hlt
  simpa [← or_and_right] using (Btd.intensity4Place_eq_sp (y := y) hr hx).mp (by omega)

/-- Settles O59: each of the `W*H/2` elements writes the two pixels placed at the cursor. -/
theorem decodeIntensity4Result : Obligations.DecodeIntensity4Result := by
  intro s src hb hop hw hh hsrc hdst hread
  have hok := intensity4SizesOk_iff.mpr ⟨hw, hh, hsrc, hdst⟩
  have htiles := Btd.srcLen_of_intensity4 hok
  obtain ⟨t, u, ht, hu, hstatus, hsp, hpixels, houtside⟩ :=
    exec_turns_of_picture (pic := intensity4Picture src s.btd.width.toNat) (len := 1) (exec_decodeIntensity4 s) hb hok
      htiles (fun h8 h8' => .inr (.inr ⟨hop, hok, ⟨h8, h8'⟩, rfl, by simp, by simp [Btd.start_tileIndex]⟩))
      (fun x y hx hy => by
        have := tileAt_lt hw hh hx hy
        simp only [intensity4Picture, intensity4Place, Btd.tilesPerRow] at htiles ⊢
        omega)
      (by decide) (by rw [Nat.one_mul, hsrc])
      (fun u hjob hbusy hr => by
        rw [← hjob.width]
        refine btdTurn_intensity4 (hjob.op.trans hop) hbusy ?_ (by rwa [hjob.src, hjob.srcLen])
        simpa [Btd.Running, hjob.op, hop] using hr)
  exact ⟨t, u, ht, hu, hstatus, hsp, fun x y ch hx hy hch => hpixels x y ⟨ch, hch⟩ hx hy, houtside⟩

/-! ### `decodeColorBlocks` (R100, R106, R148 to R154) -/

/-- The table of a block, in the mode that the raw comparison of its colours selects (R145). -/
def blockTable (c1 c2 : Half) : ColorTable := if c1.toNat > c2.toNat then gradientTable c1 c2 else averageTable c1 c2

/-- The block with these colours and rows, `CBLK.G` or `CBLK.A` by the raw comparison (R100). -/
def blockOf (c1 c2 : Half) (r0 r1 r2 r3 : Byte) : Instr :=
  if c1.toNat > c2.toNat then .cblkG c1 c2 r0 r1 r2 r3 else .cblkA c1 c2 r0 r1 r2 r3

theorem blockOf_wellFormed (c1 c2 : Half) (r0 r1 r2 r3 : Byte) : (blockOf c1 c2 r0 r1 r2 r3).WellFormed := by
  unfold blockOf
  split
  · next h => simpa [Instr.WellFormed, Instr.wellFormed, BitVec.ult_eq_decide] using h
  · next h => simpa [Instr.WellFormed, Instr.wellFormed, BitVec.ule_eq_decide] using h

theorem blockOf_context (c1 c2 : Half) (r0 r1 r2 r3 : Byte) : (blockOf c1 c2 r0 r1 r2 r3).context = .colorBlock := by
  unfold blockOf; split <;> rfl

theorem encode_blockOf (c1 c2 : Half) (r0 r1 r2 r3 : Byte) :
    encode (blockOf c1 c2 r0 r1 r2 r3) = [highByte c1, lowByte c1, highByte c2, lowByte c2, r0, r1, r2, r3] := by
  unfold blockOf; split <;> rfl

theorem exec_blockOf (c1 c2 : Half) (r0 r1 r2 r3 : Byte) (s : State) :
    exec (blockOf c1 c2 r0 r1 r2 r3) s = onBtd s (s.btd.block (blockTable c1 c2) c1 c2 r0 r1 r2 r3) := by
  unfold blockOf blockTable; split <;> rfl

/-- The table of the block whose eight bytes stand at `p` in the stream. -/
def tableAt (src : Nat → Byte) (p : Nat) : ColorTable :=
  blockTable (be16 (src p) (src (p + 1))) (be16 (src (p + 2)) (src (p + 3)))

/-- The block whose eight bytes stand at `p` in the stream. -/
def blockAt (src : Nat → Byte) (p : Nat) : Instr :=
  blockOf (be16 (src p) (src (p + 1))) (be16 (src (p + 2)) (src (p + 3)))
    (src (p + 4)) (src (p + 5)) (src (p + 6)) (src (p + 7))

/-- The cells that block writes with its top-left pixel at (`x`, `y`). -/
def blockCellsAt (src : Nat → Byte) (p width x y : Nat) : List Host.Cell :=
  blockCells width x y (tableAt src p) (src (p + 4)) (src (p + 5)) (src (p + 6)) (src (p + 7))

theorem encode_blockAt (src : Nat → Byte) (p : Nat) :
    encode (blockAt src p) = (List.range 8).map fun j => src (p + j) := by
  simp [blockAt, encode_blockOf, List.range_succ]

theorem tableEntry_eq_ofFn (ct : ColorTable) (idx : BitVec 2) : tableEntry ct idx = List.ofFn (tableByte ct idx) := by
  simp [tableEntry, List.ofFn_succ]

/-- The sixteen pixels of the block whose top-left pixel is (`x`, `y`), row by row. -/
def blockPixels (x y : Nat) : List (Nat × Nat) :=
  (List.range 4).flatMap fun j => (List.range 4).map fun i => (x + i, y + j)

theorem mem_blockPixels {x y : Nat} {p : Nat × Nat} :
    p ∈ blockPixels x y ↔ x ≤ p.1 ∧ p.1 < x + 4 ∧ y ≤ p.2 ∧ p.2 < y + 4 := by
  simp only [blockPixels, List.mem_flatMap, List.mem_map, List.mem_range]
  constructor
  · rintro ⟨j, hj, i, hi, rfl⟩
    simp [hi, hj]
  · rintro ⟨hx, hx', hy, hy'⟩
    exact ⟨p.2 - y, by omega, p.1 - x, by omega, Prod.ext (by simp; omega) (by simp; omega)⟩

/-- The cells of a block are those of its sixteen pixels, each the table entry that its two index bits select. -/
theorem blockCells_eq_imageCells {width x y : Nat} {ct : ColorTable} {row : Nat → Byte}
    {rgba : Nat → Nat → Fin 4 → Byte}
    (h : ∀ i j, i < 4 → j < 4 → rgba (x + i) (y + j) = tableByte ct ((row j).extractLsb' (6 - 2 * i) 2)) :
    blockCells width x y ct (row 0) (row 1) (row 2) (row 3) = imageCells width rgba (blockPixels x y) := by
  have hpixel : ∀ i j, i < 4 → j < 4 →
      tableEntry ct (indexAt (row j) i) = List.ofFn (rgba (x + i) (y + j)) := fun i j hi hj => by
    rw [h i j hi hj, tableEntry_eq_ofFn, indexAt_eq_extractLsb' _ hi]
  have hrow : ∀ j, j < 4 → rowCells width x (y + j) ct (row j) =
      imageCells width rgba ((List.range 4).map fun i => (x + i, y + j)) := fun j hj => by
    simp [rowCells, imageCells, List.range_succ, hpixel 0 j (by decide) hj, hpixel 1 j (by decide) hj,
      hpixel 2 j (by decide) hj, hpixel 3 j (by decide) hj]
  calc blockCells width x y ct (row 0) (row 1) (row 2) (row 3)
      = (List.range 4).flatMap fun j => rowCells width x (y + j) ct (row j) := by
        simp [blockCells, List.range_succ]
    _ = (List.range 4).flatMap fun j => imageCells width rgba ((List.range 4).map fun i => (x + i, y + j)) :=
        List.flatMap_congr fun j hj => hrow j (List.mem_range.mp hj)
    _ = imageCells width rgba (blockPixels x y) := by rw [imageCells, blockPixels, List.flatMap_assoc]; rfl

/-- Where the block of a pixel stands in the stream: eight bytes for each 4 by 4 pixels, four blocks to a tile of 8 by
8. -/
def colorBlocksPlace (width x y : Nat) : Nat := 32 * tileAt width 8 x y + 8 * (2 * (y % 8 / 4) + x % 8 / 4)

/-- What `decodeColorBlocks` makes of a stream: each pixel is the entry that its index selects in the table of its
block. -/
def colorBlocksPicture (src : Nat → Byte) (width : Nat) : Picture where
  place := colorBlocksPlace width
  rgba x y :=
    let p := colorBlocksPlace width x y
    tableByte (tableAt src p) ((src (p + 4 + y % 4)).extractLsb' (6 - 2 * (x % 4)) 2)

/-- The entry check of `decodeColorBlocks`, equation by equation (R123). -/
theorem colorBlocksSizesOk_iff {w h srcLen dstLen : Nat} :
    colorBlocksSizesOk w h srcLen dstLen = true ↔
      w % 8 = 0 ∧ h % 8 = 0 ∧ srcLen = w / 8 * (h / 8) * 32 ∧ dstLen = w * h * 4 := by
  simp only [colorBlocksSizesOk, Bool.and_eq_true, decide_eq_true_eq, and_assoc]

/-- `SB` is the column and the row of the block in its tile, `SB[0]` and `SB[1]` (R106). -/
theorem subBlock_bits (sb : BitVec 2) :
    (sb.getLsbD 0).toNat = sb.toNat % 2 ∧ (sb.getLsbD 1).toNat = sb.toNat / 2 := by
  revert sb; decide

/-- The pixels placed at the cursor are those of the current block. -/
theorem Btd.colorBlocksPlace_eq_sp {b : Btd} (hr : b.RunsColorBlocks) {x y : Nat} (hx : x < b.width.toNat) :
    colorBlocksPlace b.width.toNat x y = b.sp.toNat ↔ (x, y) ∈ blockPixels b.blockX b.blockY := by
  obtain ⟨hok, hin, -, -, hsp⟩ := hr
  obtain ⟨hw, -⟩ := colorBlocksSizesOk_iff.mp hok
  have htile := Btd.tileAt_eq_tileIndex (y := y) hw hin hx
  have hsb := b.sb.isLt
  obtain ⟨hsb0, hsb1⟩ := subBlock_bits b.sb
  simp only [colorBlocksPlace, mem_blockPixels, Btd.blockX, Btd.blockY, hsb0, hsb1]
  omega

/-- The current block lies in the image, and begins at a multiple of 4 both ways. -/
theorem Btd.colorBlocks_block_inside {b : Btd} (hr : b.RunsColorBlocks) :
    b.blockX % 4 = 0 ∧ b.blockY % 4 = 0 ∧ b.blockX + 4 ≤ b.width.toNat ∧ b.blockY + 4 ≤ b.height.toNat := by
  obtain ⟨-, ⟨htx, hty⟩, -, -, -⟩ := hr
  have hsb := b.sb.isLt
  obtain ⟨hsb0, hsb1⟩ := subBlock_bits b.sb
  simp only [Btd.blockX, Btd.blockY, Btd.tilesPerRow, hsb0, hsb1] at htx ⊢
  omega

theorem Btd.dstLen_of_colorBlocks {b : Btd} (hr : b.RunsColorBlocks) :
    b.dstLen.toNat = b.width.toNat * b.height.toNat * 4 := by
  obtain ⟨hok, -⟩ := hr
  obtain ⟨-, -, -, hdst⟩ := colorBlocksSizesOk_iff.mp hok
  exact hdst

/-- The cells of the block at the cursor are those of the picture. -/
theorem Btd.blockCells_eq_picture {b : Btd} (src : Nat → Byte) (hr : b.RunsColorBlocks) :
    blockCellsAt src b.sp.toNat b.width.toNat b.blockX b.blockY =
      imageCells b.width.toNat (colorBlocksPicture src b.width.toNat).rgba (blockPixels b.blockX b.blockY) := by
  obtain ⟨hx4, hy4, hwidth, -⟩ := Btd.colorBlocks_block_inside hr
  refine blockCells_eq_imageCells (row := fun j => src (b.sp.toNat + 4 + j)) fun i j hi hj => ?_
  have hplace := (Btd.colorBlocksPlace_eq_sp (x := b.blockX + i) (y := b.blockY + j) hr (by omega)).mpr
    (mem_blockPixels.mpr (by simp [hi, hj]))
  simp only [colorBlocksPicture]
  rw [hplace, show (b.blockX + i) % 4 = i by omega, show (b.blockY + j) % 4 = j by omega]

/-- Running the block at `p`: its cells are stored, then the position advances. -/
theorem exec_blockAt {s : State} {src : Nat → Byte} {p : Nat}
    (hfit : ∀ c ∈ blockCellsAt src p s.btd.width.toNat s.btd.blockX s.btd.blockY, c.1 < s.btd.dstLen.toNat) :
    ∃ k, s.btd.Stores k ∧
      k.dst = s.btd.dst.writeAll (blockCellsAt src p s.btd.width.toNat s.btd.blockX s.btd.blockY) ∧
      exec (blockAt src p) s = .next { s with btd := (k.advance 8).nextBlock.finishTiles 8 } := by
  refine ⟨_, Btd.stores_loadColors (tableAt src p) (be16 (src p) (src (p + 1))) (be16 (src (p + 2)) (src (p + 3)))
    (src (p + 7)) hfit, by simp only [Btd.loadColors_dst], ?_⟩
  rw [blockAt, exec_blockOf, onBtd_eq_next]
  exact ⟨_, Btd.block_eq_next.mpr ⟨hfit, rfl⟩, rfl⟩

/-- A turn of `decodeColorBlocks` writes the sixteen pixels placed at the cursor. -/
theorem btdTurn_colorBlocks {u : State} {src : Nat → Byte} (hop : u.btd.op = 0) (hb : u.btd.status.state = .busy)
    (hr : u.btd.RunsColorBlocks) (hread : ∀ a, a < u.btd.srcLen.toNat → u.btd.src.read a = some (src a)) :
    (colorBlocksPicture src u.btd.width.toNat).PaintedByTurn 8 u := by
  have hroom := (Btd.runsColorBlocks_next hr).1
  have hcells := Btd.blockCells_eq_picture src hr
  have hps : ∀ p ∈ blockPixels u.btd.blockX u.btd.blockY, p.1 < u.btd.width.toNat ∧ p.2 < u.btd.height.toNat := by
    intro p hp
    have hin := Btd.colorBlocks_block_inside hr
    have hmem := mem_blockPixels.mp hp
    omega
  have hturn : btdTurn u = exec (blockAt src u.btd.sp.toNat) u := by
    refine btdTurn_of_encode hb (blockOf_wellFormed ..) (Btd.format_eq_some.mpr (.inl ⟨hop, blockOf_context ..⟩))
      (fun j hj => ?_) (by simpa [encode_blockAt] using hroom)
    rw [encode_blockAt, List.length_map, List.length_range] at hj
    simp [encode_blockAt, hj, hread (u.btd.sp.toNat + j) (by omega)]
  have hfit := imageCells_lt (rgba := (colorBlocksPicture src u.btd.width.toNat).rgba) hps
  rw [← hcells, ← Btd.dstLen_of_colorBlocks hr] at hfit
  obtain ⟨k, hstores, hdst, hexec⟩ := exec_blockAt hfit
  have hkop : k.op = 0 := hstores.sameJob.op.trans hop
  have hadvance := Btd.Advances.block hkop
  have hsp : ((k.advance 8).nextBlock.finishTiles 8).sp.toNat = u.btd.sp.toNat + 8 := by
    rw [hadvance.cursor (hstores.running (.inl ⟨hop, hr⟩)), if_pos hkop, hstores.sp]
  refine ⟨_, k, _, ⟨hstores, hadvance, hcells ▸ hdst, hps, fun x y hx _ hle hlt => ?_⟩, hsp, hturn.trans hexec⟩
  have hblock : u.btd.sp.toNat % 8 = 0 := by
    obtain ⟨-, -, -, -, hsp⟩ := hr
    omega
  simp only [colorBlocksPicture, hsp] at hle hlt
  refine (Btd.colorBlocksPlace_eq_sp hr hx).mp ?_
  simp only [colorBlocksPlace] at hle hlt ⊢
  omega

/-- Settles O60: each of the `W*H/16` elements writes the sixteen pixels placed at the cursor. -/
theorem decodeColorBlocksResult : Obligations.DecodeColorBlocksResult := by
  intro s src hb hop hw hh hsrc hdst hread
  have hok := colorBlocksSizesOk_iff.mpr ⟨hw, hh, hsrc, hdst⟩
  have htiles := Btd.srcLen_of_colorBlocks hok
  exact exec_turns_of_picture (pic := colorBlocksPicture src s.btd.width.toNat) (len := 8) (exec_decodeColorBlocks s) hb
    hok htiles (fun h8 h8' => .inl ⟨hop, hok, ⟨h8, h8'⟩, rfl, rfl, by simp [Btd.start_tileIndex]⟩)
    (fun x y hx hy => by
      have := tileAt_lt hw hh hx hy
      simp only [colorBlocksPicture, colorBlocksPlace, Btd.tilesPerRow] at htiles ⊢
      omega)
    (by decide) (by omega)
    (fun u hjob hbusy hr => by
      rw [← hjob.width]
      refine btdTurn_colorBlocks (hjob.op.trans hop) hbusy ?_ (by rwa [hjob.src, hjob.srcLen])
      simpa [Btd.Running, hjob.op, hop] using hr)

end Sys2Proof.Machine
end

section
/-! SUPPORT. Engine LZD runs on: with its source filled, a turn answers, and unless it ends the operation it has loaded
eight flags or has used one of them and put a byte that was owed. -/

namespace Sys2Proof.Machine

/-! ### Putting and copying what is owed (R37, R38, R41, R200) -/

/-- While a byte is owed there is room for it. -/
theorem Lzd.Filling.dp_lt {l : Lzd} (hl : l.Filling) (howed : 0 < l.rem.toInt) : l.dp.toNat < l.dstLen.toNat := by
  have hsum := hl.sum
  have hlen := hl.dstLen
  omega

/-- A copy of no more bytes than are owed, from inside the window, goes through: `DIST` stays, so each byte is read
behind the one that is put. -/
theorem Lzd.Filling.exists_copyBytes {n : Nat} {l : Lzd} (hl : l.Filling) (hn : (n : Int) ≤ l.rem.toInt)
    (hdist : 0 < l.dist.toNat) (hwin : l.dist.toNat ≤ l.dp.toNat) :
    ∃ m, l.copyBytes n = .next m ∧ m.bi = l.bi ∧ m.rem.toInt = l.rem.toInt - n := by
  induction n generalizing l with
  | zero => exact ⟨l, rfl, rfl, by simp⟩
  | succ n ih =>
    have howed : 0 < l.rem.toInt := by omega
    have hroom := hl.dp_lt howed
    obtain ⟨v, hv⟩ := Option.isSome_iff_exists.mp (hl.window (l.dp.toNat - l.dist.toNat) (by omega))
    obtain ⟨hput, hrem⟩ := hl.put (v := v) howed (Lzd.put_eq_next.mpr ⟨hroom, rfl⟩)
    have hdp : (l.dp + 1).toNat = l.dp.toNat + 1 := toNat_add_ofNat hroom
    simp only at hrem
    obtain ⟨m, hm, hbi, hmrem⟩ := ih (hput.with_cnt (l.cnt - 1)) (by simp only; omega) hdist (by simp only; omega)
    exact ⟨m, Lzd.copyBytes_succ_eq_next.mpr ⟨v, hv, hroom, hm⟩, hbi, by simp only at hmrem; omega⟩

/-- A copy is of at least one byte if one is owed and `LEN` is not 0 (R200, R204). -/
theorem Lzd.copyCount_pos {l : Lzd} (howed : 0 < l.rem.toInt) (hlen : 0 < l.len.toNat) : 0 < l.copyCount := by
  unfold Lzd.copyCount
  omega

/-! ### What an element delivers (R190, R205) -/

/-- The outcome of an element begun with the engine at `l`, its flag already used: a next state, and unless that ends
the operation, less is owed than before. -/
def Lzd.Delivers (l : Lzd) (o : Host.Outcome Lzd Fault Refusal) : Prop :=
  ∃ m, o = .next m ∧ (m.status.state = .busy → m.bi = l.bi ∧ m.rem.toInt < l.rem.toInt)

/-- An error ends the operation. -/
theorem Lzd.delivers_raise (l k : Lzd) (code : ErrCode) : l.Delivers (.next (k.raise code)) :=
  ⟨_, rfl, fun hbusy => (by cases hbusy)⟩

/-- The early exit after an element tests what is owed and leaves it, and the flags, as they are. -/
theorem Lzd.delivers_exitEarly {l m : Lzd} (hbi : m.bi = l.bi) (hrem : m.rem.toInt < l.rem.toInt) :
    l.Delivers (.next m.exitEarly) :=
  ⟨_, rfl, fun _ => ⟨by rw [Lzd.exitEarly_bi, hbi], by rwa [Lzd.exitEarly_rem]⟩⟩

theorem Lzd.delivers_literal {l : Lzd} (hl : l.Filling) (howed : 0 < l.rem.toInt) (b : Byte) :
    l.Delivers (l.literal b) := by
  by_cases hsp : l.srcLen.toNat ≤ l.sp.toNat
  · rw [Lzd.literal_eq_next.mpr (.inl ⟨hsp, rfl⟩)]
    exact l.delivers_raise l _
  · have hput : l.readByte.put b = .next _ := Lzd.put_eq_next.mpr ⟨hl.dp_lt howed, rfl⟩
    rw [Lzd.literal_eq_next.mpr (.inr ⟨Nat.not_le.mp hsp, _, hput, rfl⟩)]
    have hrem := toInt_sub_one howed
    exact Lzd.delivers_exitEarly rfl (by simp only [Lzd.readByte_rem]; omega)

/-- A back-reference raises, or copies at least one byte. -/
theorem Lzd.delivers_backReference {l : Lzd} (hl : l.Filling) (howed : 0 < l.rem.toInt) (hdist : 0 < l.dist.toNat)
    (hlen : 0 < l.len.toNat) : l.Delivers l.backReference := by
  by_cases hwin : l.dp.toNat < l.dist.toNat
  · rw [Lzd.backReference_eq_next.mpr (.inl ⟨hwin, rfl⟩)]
    exact l.delivers_raise l _
  · have hload : (l.loadCount l.copyCount).Filling := hl.with_cnt _
    have hbehind := Nat.not_lt.mp hwin
    obtain ⟨m, hm, hbi, hrem⟩ :=
      hload.exists_copyBytes (n := l.copyCount) (Lzd.copyCount_le hl.owed) hdist hbehind
    rw [Lzd.backReference_eq_next.mpr (.inr ⟨hbehind, m, hm, rfl⟩)]
    have hcount := Lzd.copyCount_pos howed hlen
    exact Lzd.delivers_exitEarly hbi (by rw [hrem, Lzd.loadCount_rem]; omega)

/-- The registers of the token are not part of the destination side. -/
theorem Lzd.Filling.with_token {l : Lzd} (hl : l.Filling) (t : Half) (sp : Word) (dist : BitVec 13) (len : BitVec 9) :
    Lzd.Filling { l with t := t, sp := sp, dist := dist, len := len } :=
  ⟨hl.wf, hl.fits, hl.owed, hl.sum, hl.dstLen, hl.window⟩

theorem Lzd.delivers_shortReference {l : Lzd} (hl : l.Filling) (howed : 0 < l.rem.toInt) (n : BitVec 4)
    (d : BitVec 12) : l.Delivers (l.shortReference n d) := by
  unfold Lzd.shortReference
  split
  · exact l.delivers_raise l _
  · exact Lzd.delivers_backReference (l := (l.loadToken (tokenOf n d)).loadLength (shortLength n))
      (hl.with_token _ _ _ _) howed (by simp [distanceOf_toNat]) (by simp [shortLength_toNat])

theorem Lzd.delivers_extendedReference {l : Lzd} (hl : l.Filling) (howed : 0 < l.rem.toInt) (d : BitVec 12)
    (e : Byte) : l.Delivers (l.extendedReference d e) := by
  unfold Lzd.extendedReference
  split_ifs
  · exact l.delivers_raise l _
  · exact l.delivers_raise (l.loadToken (tokenOf 0 d)) _
  · exact Lzd.delivers_backReference (l := (l.loadToken (tokenOf 0 d)).loadExtra e)
      (hl.with_token _ _ _ _) howed (by simp [distanceOf_toNat]) (by simp [extendedLength_toNat])

/-! ### A turn while BUSY -/

/-- With the source filled, the bytes of the element due can be fetched. -/
theorem Lzd.exists_fetch {l : Lzd} (hf : SourceFilled l.src l.srcLen.toNat) : ∃ bytes, l.fetch = .ok bytes := by
  have hread := fun n => readSource_filled hf n l.sp.toNat
  unfold Lzd.fetch
  split
  · split
    · exact ⟨[], rfl⟩
    · obtain ⟨bytes, hbytes⟩ := hread 2
      rw [hbytes]
      split
      · next h => cases h
      · split
        · exact hread 3
        · exact ⟨_, rfl⟩
      · exact ⟨_, rfl⟩
  · exact hread 1

/-- What a turn leaves to do, unless it ends the operation: a `CTRL` spends nothing and gives eight flags, any other
element spends one flag and at least one byte owed. -/
def Lzd.Spends (l m : Lzd) : Prop :=
  l.bi = 0 ∧ m.bi = 8 ∧ m.rem = l.rem ∨ l.bi ≠ 0 ∧ m.bi = l.bi - 1 ∧ m.rem.toInt < l.rem.toInt

/-- `CTRL` loads eight flags, or finds no byte and ends the operation. -/
theorem execCtrl_spends {s : State} (hbi : s.lzd.bi = 0) (flags : Byte) :
    ∃ m, execCtrl flags s = .next { s with lzd := m } ∧ (m.status.state = .busy → s.lzd.Spends m) := by
  unfold execCtrl
  split
  · exact ⟨_, rfl, fun hbusy => (by cases hbusy)⟩
  · exact ⟨_, rfl, fun _ => .inl ⟨hbi, rfl, rfl⟩⟩

/-- An element that delivers, its flag used before it, spends that flag and what it delivers. -/
theorem Lzd.Delivers.spends {s : State} {o : Host.Outcome Lzd Fault Refusal} (ho : s.lzd.takeFlag.Delivers o)
    (hbi : s.lzd.bi ≠ 0) :
    ∃ m, onLzd s o = .next { s with lzd := m } ∧ (m.status.state = .busy → s.lzd.Spends m) := by
  obtain ⟨m, rfl, hm⟩ := ho
  exact ⟨m, rfl, fun hbusy => .inr ⟨hbi, hm hbusy⟩⟩

/-- An element whose bytes are not all there ends the operation. -/
theorem Lzd.starve_ends (bytes : List Byte) (l : Lzd) : (l.starve bytes).status.state = .error := by
  unfold Lzd.starve
  split <;> rfl

/-- The meaning of the element due goes through: a `CTRL` without a flag left, else the element of the flag. -/
theorem exec_due_spends {s : State} {i : Instr} (hinv : s.lzd.Inv) (hb : s.lzd.status.state = .busy)
    (hi : i.context = s.lzd.due) :
    ∃ m, exec i s = .next { s with lzd := m } ∧ (m.status.state = .busy → s.lzd.Spends m) := by
  rcases s.lzd.due_cases with ⟨hbi, hdue⟩ | ⟨hbi, hdue⟩
  · rw [hdue] at hi
    match i, hi with
    | .ctrl flags, _ => exact execCtrl_spends hbi flags
  · obtain ⟨hl, howed⟩ := (Lzd.reads_takeFlag hbi).filling hinv hb
    rcases hdue with hdue | hdue <;> rw [hdue] at hi
    · match i, hi with
      | .lit b, _ => exact (Lzd.delivers_literal hl howed b).spends hbi
    · match i, hi with
      | .ref n d, _ => exact (Lzd.delivers_shortReference hl howed n d).spends hbi
      | .refx d e, _ => exact (Lzd.delivers_extendedReference hl howed d e).spends hbi

/-- A turn of a BUSY engine whose source is filled answers, and spends what its element takes or ends the operation. -/
theorem lzdTurn_spends {s : State} (hinv : s.lzd.Inv) (hb : s.lzd.status.state = .busy)
    (hf : SourceFilled s.lzd.src s.lzd.srcLen.toNat) :
    ∃ m, lzdTurn s = .next { s with lzd := m } ∧ (m.status.state = .busy → s.lzd.Spends m) := by
  have hbusy := (Status.busy_iff _).mpr hb
  obtain ⟨bytes, hbytes⟩ := Lzd.exists_fetch hf
  cases hd : decode s.lzd.due bytes with
  | ok p =>
    obtain ⟨m, hm, hspends⟩ := exec_due_spends hinv hb (context_of_decode hd)
    exact ⟨m, lzdTurn_eq_next.mpr (.inr ⟨hbusy, bytes, hbytes, .inl ⟨p.1, p.2, hd, hm⟩⟩), hspends⟩
  | error r =>
    refine ⟨s.lzd.starve bytes, lzdTurn_eq_next.mpr (.inr ⟨hbusy, bytes, hbytes, .inr ⟨r, hd, rfl⟩⟩), fun hgoes => ?_⟩
    rw [Lzd.starve_ends] at hgoes
    cases hgoes

/-! ### The bound on the turns (R208) -/

/-- How many turns a running `decompress` can still take: an element for each byte owed, and the control bytes for
those that the flags left do not cover. -/
def Lzd.turnsLeft (l : Lzd) : Nat := l.rem.toNat + (l.rem.toNat + 7 - l.bi.toNat) / 8

theorem toNat_of_toInt_pos {x : Word} (h : 0 < x.toInt) : (x.toNat : Int) = x.toInt := by
  rw [BitVec.toInt_eq_toNat_cond] at h ⊢
  omega

theorem Lzd.Running.turnsLeft_pos {l : Lzd} (hl : l.Running) : 0 < l.turnsLeft := by
  have howed := hl.owed
  have hrem := toNat_of_toInt_pos howed
  unfold Lzd.turnsLeft
  omega

/-- A turn that does not end the operation leaves fewer turns: a `CTRL` is one of the control bytes, and any other
element is one of the bytes owed and moves on by one flag. -/
theorem Lzd.Spends.turnsLeft_lt {l m : Lzd} (h : l.Spends m) (hl : l.Running) (hm : m.Running) :
    m.turnsLeft < l.turnsLeft := by
  have hlrem := toNat_of_toInt_pos hl.owed
  have hmrem := toNat_of_toInt_pos hm.owed
  have howed := hm.owed
  have hflags := hl.flags
  unfold Lzd.turnsLeft
  rcases h with ⟨hl0, hm8, hrem⟩ | ⟨hbi, hbi', hrem⟩
  · rw [hl0, hm8, ← hrem]
    simp
    omega
  · have hne : l.bi.toNat ≠ 0 := fun e => hbi (BitVec.eq_of_toNat_eq e)
    have hsub : m.bi.toNat = l.bi.toNat - 1 := by
      rw [hbi', BitVec.toNat_sub]
      simp
      omega
    omega

/-- A running `decompress` whose source is filled ends within the turns it has left. -/
theorem lzdTurns_end {n : Nat} {s : State} (hinv : s.lzd.Inv) (hb : s.lzd.status.state = .busy)
    (hf : SourceFilled s.lzd.src s.lzd.srcLen.toNat) (hn : s.lzd.turnsLeft ≤ n) :
    ∃ k t, k ≤ n ∧ turns .lzd k s = .next t ∧ t.lzd.status.state ≠ .busy := by
  induction n generalizing s with
  | zero => exact absurd (hinv.running hb).turnsLeft_pos (by omega)
  | succ n ih =>
    obtain ⟨m, hturn, hspends⟩ := lzdTurn_spends hinv hb hf
    by_cases hm : m.status.state = .busy
    · have hinv' : m.Inv := lzd_inv_of_lzdTurn hinv hturn
      have hjob : s.lzd.SameJob m := sameJob_of_lzdTurn hturn
      have hleft := (hspends hm).turnsLeft_lt (hinv.running hb) (hinv'.running hm)
      obtain ⟨k, t, hk, ht, hend⟩ :=
        ih (s := { s with lzd := m }) hinv' hm (by rwa [hjob.src, hjob.srcLen]) (by simp only; omega)
      exact ⟨k + 1, t, by omega, turns_succ_eq_next.mpr ⟨_, hturn, ht⟩, hend⟩
    · exact ⟨1, _, by omega, turns_succ_eq_next.mpr ⟨_, hturn, rfl⟩, hm⟩

end Sys2Proof.Machine
end

section
/-! SUPPORT. The statements of 40_host_operations.md about the end of an operation, settled from the lemmas above. -/

namespace Sys2Proof.Machine

/-- Settles O52: the bound of R208 is `Lzd.turnsLeft`, and every turn that does not end the operation lowers it. -/
theorem decompressEnds : Obligations.DecompressEnds := by
  intro s hinv hb hf
  exact lzdTurns_end hinv hb hf le_rfl

/-! ### Entry errors (R123 to R126, R232) -/

/-- A START of engine BTD with sizes that fail the entry check raises `InvalidBufferSize`. -/
theorem exec_start_of_wrongSizes {s : State} {ok : Nat → Nat → Nat → Nat → Bool} {H : Nat} {i : Instr}
    (hi : exec i s = .next { s with btd := s.btd.operation ok H }) (hb : s.btd.status.state ≠ .busy)
    (hwrong : ¬ ok s.btd.width.toNat s.btd.height.toNat s.btd.srcLen.toNat s.btd.dstLen.toNat = true) :
    exec i s = .next { s with btd := s.btd.start.raise .invalidBufferSize } := by
  rcases Btd.operation_cases ok H hb with ⟨-, h⟩ | ⟨hok, -⟩ | ⟨hok, -⟩
  · rw [hi, h]
  · exact absurd hok hwrong
  · exact absurd hok hwrong

/-- The entry check of `decompress`, cause by cause (R126). -/
theorem decompressSizesOk_eq_false_iff {outSize : Int} {dstLen : Nat} :
    decompressSizesOk outSize dstLen = false ↔ outSize < 0 ∨ (dstLen : Int) ≠ outSize := by
  simp only [decompressSizesOk, Bool.and_eq_false_iff, decide_eq_false_iff_not, not_le, ne_eq]

/-- A START of engine LZD with sizes that fail the entry check raises `InvalidBufferSize`. -/
theorem exec_decompress_of_wrongSizes {s : State} (hb : s.lzd.status.state ≠ .busy)
    (hwrong : decompressSizesOk s.lzd.outSize.toInt s.lzd.dstLen.toNat = false) :
    exec .decompress s = .next { s with lzd := s.lzd.start.raise .invalidBufferSize } := by
  rcases Lzd.operation_cases hb with ⟨-, h⟩ | ⟨hok, -⟩
  · rw [exec_decompress, h]
  · rw [hwrong] at hok
    cases hok

/-- Settles O20: the causes are those of the entry checks, and an entry error touches STATUS and working registers
only. -/
theorem wrongSizesRaiseInvalidBufferSize : Obligations.WrongSizesRaiseInvalidBufferSize := by
  refine ⟨fun s i hb hcause => ?_, fun s hb hcause => ?_⟩
  · have hraise : exec i s = .next { s with btd := s.btd.start.raise .invalidBufferSize } := by
      rcases hcause with ⟨rfl, hwrong⟩ | ⟨rfl, hwrong⟩ | ⟨rfl, hwrong⟩
      · exact exec_start_of_wrongSizes (exec_decodeColorBlocks s) hb fun hok => hwrong (colorBlocksSizesOk_iff.mp hok)
      · exact exec_start_of_wrongSizes (exec_decodeIntensity8 s) hb fun hok => hwrong (intensity8SizesOk_iff.mp hok)
      · exact exec_start_of_wrongSizes (exec_decodeIntensity4 s) hb fun hok => hwrong (intensity4SizesOk_iff.mp hok)
    exact ⟨_, hraise, rfl, rfl, rfl, rfl, rfl, rfl, rfl, rfl, rfl, rfl, rfl⟩
  · have hraise := exec_decompress_of_wrongSizes hb (decompressSizesOk_eq_false_iff.mpr hcause)
    exact ⟨_, hraise, rfl, rfl, rfl, rfl, rfl, rfl, rfl, rfl, rfl⟩

end Sys2Proof.Machine
end

section
/-! SUPPORT. Colours and their tables (41_color_block.md R140 to R147): the widening helpers on integers, the fields of
a packed colour, and the entries of a table channel by channel. -/

namespace Sys2Proof

/-- Two bit strings put together, as an integer. -/
theorem toNat_append_eq {m n : Nat} (x : BitVec m) (y : BitVec n) : (x ++ y).toNat = 2 ^ n * x.toNat + y.toNat := by
  rw [BitVec.toNat_append, ← Nat.shiftLeft_add_eq_or_of_lt y.isLt, Nat.shiftLeft_eq, Nat.mul_comm]

end Sys2Proof

namespace Sys2Proof.Machine

/-! ### The widening helpers (R140, R141) -/

/-- Where the lower term of an `|` fills only the bits that the shift of the upper one has left free, the terms add
up. -/
theorem toNat_shiftLeft_or {x y : Byte} {k : Nat} (hx : 2 ^ k * x.toNat < 2 ^ 8) (hy : y.toNat < 2 ^ k) :
    (x <<< k ||| y).toNat = 2 ^ k * x.toNat + y.toNat := by
  have hfit : x.toNat <<< k < 2 ^ 8 := by rwa [Nat.shiftLeft_eq, Nat.mul_comm]
  rw [BitVec.toNat_or, BitVec.toNat_shiftLeft, Nat.mod_eq_of_lt hfit, ← Nat.shiftLeft_add_eq_or_of_lt hy,
    Nat.shiftLeft_eq, Nat.mul_comm]

/-- A term shifted down loses its low bits. -/
theorem toNat_zeroExtend_shiftRight {w : Nat} (n : BitVec w) (hw : w ≤ 8) (j : Nat) :
    (n.zeroExtend 8 >>> j).toNat = n.toNat / 2 ^ j := by
  rw [BitVec.toNat_ushiftRight, BitVec.zeroExtend_eq_setWidth, BitVec.toNat_setWidth_of_le hw,
    Nat.shiftRight_eq_div_pow]

theorem exp3_toNat (n : BitVec 3) : (exp3 n).toNat = 32 * n.toNat + 4 * n.toNat + n.toNat / 2 := by
  have hn := n.isLt
  have hlow := toNat_zeroExtend_shiftRight n (by decide) 1
  have hwide : (n.zeroExtend 8).toNat = n.toNat := BitVec.toNat_setWidth_of_le (by decide)
  have hmid := toNat_shiftLeft_or (x := n.zeroExtend 8) (y := n.zeroExtend 8 >>> 1) (k := 2) (by omega) (by omega)
  rw [exp3, BitVec.or_assoc, toNat_shiftLeft_or (by omega) (by omega), hmid, hwide, hlow]
  omega

theorem exp4_toNat (n : BitVec 4) : (exp4 n).toNat = 16 * n.toNat + n.toNat := by
  have hn := n.isLt
  have hwide : (n.zeroExtend 8).toNat = n.toNat := BitVec.toNat_setWidth_of_le (by decide)
  rw [exp4, toNat_shiftLeft_or (by omega) (by omega), hwide]
  omega

theorem exp5_toNat (n : BitVec 5) : (exp5 n).toNat = 8 * n.toNat + n.toNat / 4 := by
  have hn := n.isLt
  have hlow := toNat_zeroExtend_shiftRight n (by decide) 2
  have hwide : (n.zeroExtend 8).toNat = n.toNat := BitVec.toNat_setWidth_of_le (by decide)
  rw [exp5, toNat_shiftLeft_or (by omega) (by omega), hwide, hlow]
  omega

theorem exp6_toNat (n : BitVec 6) : (exp6 n).toNat = 4 * n.toNat + n.toNat / 16 := by
  have hn := n.isLt
  have hlow := toNat_zeroExtend_shiftRight n (by decide) 4
  have hwide : (n.zeroExtend 8).toNat = n.toNat := BitVec.toNat_setWidth_of_le (by decide)
  rw [exp6, toNat_shiftLeft_or (by omega) (by omega), hwide, hlow]
  omega

/-- Settles O9. -/
theorem expansionsReplicateBits : Obligations.ExpansionsReplicateBits :=
  ⟨exp5_toNat, exp6_toNat, exp3_toNat, exp4_toNat⟩

theorem exp5_truncated (n : BitVec 5) : (exp5 n).toNat / 2 ^ 3 = n.toNat := by
  have hn := n.isLt
  rw [exp5_toNat]
  omega

theorem exp6_truncated (n : BitVec 6) : (exp6 n).toNat / 2 ^ 2 = n.toNat := by
  have hn := n.isLt
  rw [exp6_toNat]
  omega

/-- Settles O10: the tables are finite, and the lower terms of an expansion never carry into the bits of its
argument. -/
theorem expansionsInvertTruncation : Obligations.ExpansionsInvertTruncation := by
  refine ⟨by decide, by decide, by decide, by decide, fun n => ?_, fun n => ?_, exp5_truncated, exp6_truncated⟩
  · have hn := n.isLt
    rw [exp3_toNat]
    omega
  · rw [exp4_toNat]
    omega

/-! ### Unpacking (R101, R142, R153) -/

theorem exp5_injective : Function.Injective exp5 := fun m n h =>
  BitVec.eq_of_toNat_eq (by rw [← exp5_truncated m, h, exp5_truncated])

theorem exp6_injective : Function.Injective exp6 := fun m n h =>
  BitVec.eq_of_toNat_eq (by rw [← exp6_truncated m, h, exp6_truncated])

/-- A packed colour is its three fields side by side. -/
theorem toNat_eq_fields (c : Half) :
    c.toNat = 2 ^ 11 * (redField c).toNat + 2 ^ 5 * (greenField c).toNat + (blueField c).toNat := by
  have hc := c.isLt
  simp only [redField, greenField, blueField, BitVec.extractLsb'_toNat, Nat.shiftRight_eq_div_pow]
  omega

/-- Settles O14: the expansions are injective, so equal channels come from equal fields. -/
theorem unpackIsInjective : Obligations.UnpackIsInjective := by
  intro c c' h
  obtain ⟨hred, hgreen, hblue⟩ := Rgb.mk.inj h
  apply BitVec.eq_of_toNat_eq
  rw [toNat_eq_fields c, toNat_eq_fields c', exp5_injective hred, exp6_injective hgreen, exp5_injective hblue]

/-! ### The colour table, entry by entry (R36, R144, R146, R147) -/

/-- The bytes of a table entry with these colour channels and this alpha. -/
def Rgb.channel (p : Rgb) (alpha : Byte) (ch : Fin 4) : Byte := #v[p.r, p.g, p.b, alpha][ch]

theorem tableByte_tableOf (e0 e1 e2 e3 : Rgb) (alpha3 : Byte) (ch : Fin 4) :
    tableByte (tableOf e0 e1 e2 e3 alpha3) 0 ch = e0.channel 0xFF#8 ch ∧
    tableByte (tableOf e0 e1 e2 e3 alpha3) 1 ch = e1.channel 0xFF#8 ch ∧
    tableByte (tableOf e0 e1 e2 e3 alpha3) 2 ch = e2.channel 0xFF#8 ch ∧
    tableByte (tableOf e0 e1 e2 e3 alpha3) 3 ch = e3.channel alpha3 ch := by
  fin_cases ch <;> exact ⟨rfl, rfl, rfl, rfl⟩

/-- Entries 0 and 1 of a table are its first two colours, opaque. -/
theorem tableEntry_tableOf (e0 e1 e2 e3 : Rgb) (alpha3 : Byte) :
    tableEntry (tableOf e0 e1 e2 e3 alpha3) 0 = [e0.r, e0.g, e0.b, 0xFF#8] ∧
    tableEntry (tableOf e0 e1 e2 e3 alpha3) 1 = [e1.r, e1.g, e1.b, 0xFF#8] := ⟨rfl, rfl⟩

/-- A channel function works on each colour channel alone. -/
theorem Rgb.channel_map2 (f : Byte → Byte → Byte) (p q : Rgb) (alpha alpha' : Byte) {ch : Fin 4}
    (hch : ch.val < 3) :
    (Rgb.map2 f p q).channel alpha ch = f (p.channel alpha' ch) (q.channel alpha' ch) :=
  match ch, hch with
  | 0, _ | 1, _ | 2, _ => rfl

/-- `BLEND` on integers: the result fits a byte (R146). -/
theorem blend_toNat (a b : Byte) : (blend a b).toNat = (3 * a.toNat + 5 * b.toNat) / 8 := by
  have ha := a.isLt
  have hb := b.isLt
  simp only [blend, BitVec.toNat_ofNat, Nat.shiftRight_eq_div_pow]
  omega

/-- `AVG` on integers: the result fits a byte (R147). -/
theorem average_toNat (a b : Byte) : (average a b).toNat = (a.toNat + b.toNat) / 2 := by
  have ha := a.isLt
  have hb := b.isLt
  simp only [average, BitVec.toNat_ofNat, Nat.shiftRight_eq_div_pow]
  omega

/-- Settles O11: both tables begin with the two unpacked colours. -/
theorem colorsFillTheFirstTwoEntries : Obligations.ColorsFillTheFirstTwoEntries := by
  rintro c1 c2 ct (rfl | rfl)
  · exact tableEntry_tableOf (unpack c1) (unpack c2) _ _ _
  · exact tableEntry_tableOf (unpack c1) (unpack c2) _ _ _

/-- Settles O12: entries 2 and 3 are blended channel by channel. -/
theorem gradientTableEntries : Obligations.GradientTableEntries := by
  intro c1 c2
  obtain ⟨hfirst, hsecond⟩ := colorsFillTheFirstTwoEntries c1 c2 _ (.inl rfl)
  refine ⟨hfirst, hsecond, fun ch hch => ?_, rfl, rfl⟩
  obtain ⟨h0, h1, h2, h3⟩ := tableByte_tableOf (unpack c1) (unpack c2)
    (Rgb.map2 blend (unpack c2) (unpack c1)) (Rgb.map2 blend (unpack c1) (unpack c2)) 0xFF#8 ch
  rw [gradientTable, h0, h1, h2, h3, Rgb.channel_map2 _ _ _ _ 0xFF#8 hch, Rgb.channel_map2 _ _ _ _ 0xFF#8 hch]
  exact ⟨blend_toNat _ _, blend_toNat _ _⟩

/-- Settles O13: entries 2 and 3 are averaged channel by channel, and differ in alpha alone. -/
theorem averageTableEntries : Obligations.AverageTableEntries := by
  intro c1 c2
  obtain ⟨hfirst, hsecond⟩ := colorsFillTheFirstTwoEntries c1 c2 _ (.inr rfl)
  refine ⟨hfirst, hsecond, fun ch hch => ?_, rfl, rfl⟩
  obtain ⟨h0, h1, h2, h3⟩ := tableByte_tableOf (unpack c1) (unpack c2)
    (Rgb.map2 average (unpack c1) (unpack c2)) (Rgb.map2 average (unpack c1) (unpack c2)) 0x00#8 ch
  rw [averageTable, h0, h1, h2, h3, Rgb.channel_map2 _ _ _ 0xFF#8 0xFF#8 hch,
    Rgb.channel_map2 _ _ _ 0x00#8 0xFF#8 hch]
  exact ⟨average_toNat _ _, rfl⟩

end Sys2Proof.Machine
end

section
/-! SUPPORT. The colour block as an element (41_color_block.md R148 to R154): which mode its bytes select, what it
writes and how it moves on. -/

namespace Sys2Proof.Machine

/-! ### The mode of a block (R100, R145, R268) -/

/-- A big-endian value as an integer (R66). -/
theorem be16_toNat (b0 b1 : Byte) : (be16 b0 b1).toNat = 256 * b0.toNat + b1.toNat := toNat_append_eq b0 b1

/-- Settles O6. -/
theorem blockModeIsTheRawComparison : Obligations.BlockModeIsTheRawComparison := by
  intro a0 a1 b0 b1 r0 r1 r2 r3 rest
  rw [← be16_toNat, ← be16_toNat]
  simp only [decode, decodeBlock, BitVec.ult_eq_decide, decide_eq_true_eq]
  rfl

/-! ### What a block writes (R148, R149) -/

/-- The bytes a block with these row bytes and its top-left pixel at (`x0`, `y0`) gives pixel (`x`, `y`): the table
entry that the index of its column in its row selects. -/
def blockRgba (ct : ColorTable) (rows : Vector Byte 4) (x0 y0 x y : Nat) : Fin 4 → Byte :=
  tableByte ct ((rows[y - y0]?.getD 0).extractLsb' (6 - 2 * (x - x0)) 2)

theorem blockRgba_add (ct : ColorTable) (rows : Vector Byte 4) (x0 y0 k : Nat) (r : Fin 4) :
    blockRgba ct rows x0 y0 (x0 + k) (y0 + r.val) = tableByte ct (rows[r].extractLsb' (6 - 2 * k) 2) := by
  simp [blockRgba]

/-- The cells of a block are those of its sixteen pixels. -/
theorem blockCells_eq_blockRgba (width x0 y0 : Nat) (ct : ColorTable) (r0 r1 r2 r3 : Byte) :
    blockCells width x0 y0 ct r0 r1 r2 r3 =
      imageCells width (blockRgba ct #v[r0, r1, r2, r3] x0 y0) (blockPixels x0 y0) :=
  blockCells_eq_imageCells (row := fun j => #v[r0, r1, r2, r3][j]?.getD 0) fun i j _ _ => by simp [blockRgba]

/-- The pixels of the current block lie in the image. -/
theorem Btd.blockPixels_inside {b : Btd} (hr : b.RunsColorBlocks) :
    ∀ p ∈ blockPixels b.blockX b.blockY, p.1 < b.width.toNat ∧ p.2 < b.height.toNat := by
  intro p hp
  have hin := Btd.colorBlocks_block_inside hr
  have hmem := mem_blockPixels.mp hp
  omega

/-- In a running operation a block answers, and its sixteen pixels are what it writes. -/
theorem Btd.exists_block {b : Btd} (hr : b.RunsColorBlocks) (ct : ColorTable) (c1 c2 : Half) (r0 r1 r2 r3 : Byte) :
    ∃ b', b.block ct c1 c2 r0 r1 r2 r3 = .next b' ∧
      b'.dst = b.dst.writeAll (imageCells b.width.toNat (blockRgba ct #v[r0, r1, r2, r3] b.blockX b.blockY)
        (blockPixels b.blockX b.blockY)) := by
  have hfit := imageCells_lt (rgba := blockRgba ct #v[r0, r1, r2, r3] b.blockX b.blockY) (Btd.blockPixels_inside hr)
  rw [← blockCells_eq_blockRgba, ← Btd.dstLen_of_colorBlocks hr] at hfit
  exact ⟨_, Btd.block_eq_next.mpr ⟨hfit, rfl⟩, by simp [blockCells_eq_blockRgba]⟩

/-- The left column and the top row of the current block, `SB` as a number (R106, R149). -/
theorem Btd.blockX_eq (b : Btd) : b.blockX = 8 * b.tx.toNat + 4 * (b.sb.toNat % 2) := by
  rw [Btd.blockX, (subBlock_bits b.sb).1]

theorem Btd.blockY_eq (b : Btd) : b.blockY = 8 * b.ty.toNat + 4 * (b.sb.toNat / 2) := by
  rw [Btd.blockY, (subBlock_bits b.sb).2]

/-! ### How a block moves on (R128, R150, R151, R152) -/

/-- The next block changes the position alone. -/
theorem Btd.nextBlock_frame (b : Btd) :
    b.nextBlock = { b with sb := b.nextBlock.sb, tx := b.nextBlock.tx, ty := b.nextBlock.ty } := by
  unfold Btd.nextBlock Btd.nextTile
  split_ifs <;> rfl

/-- A position inside its row of tiles is past the last row exactly if its tile number is past the last tile. -/
theorem Btd.tiles_le_tileIndex_iff {b : Btd} {H : Nat} (htx : b.tx.toNat < b.tilesPerRow) :
    b.tilesPerRow * (b.height.toNat / H) ≤ b.tileIndex ↔ b.height.toNat / H ≤ b.ty.toNat := by
  constructor
  · intro h
    by_contra hty
    have := Btd.tileIndex_lt (b := b) ⟨htx, Nat.lt_of_not_le hty⟩
    omega
  · intro h
    calc b.tilesPerRow * (b.height.toNat / H) ≤ b.tilesPerRow * b.ty.toNat := Nat.mul_le_mul_left _ h
      _ = b.ty.toNat * b.tilesPerRow := Nat.mul_comm _ _
      _ ≤ b.tileIndex := Nat.le_add_right _ _

/-- The end of an element changes STATUS alone. -/
theorem Btd.finishTiles_frame (b : Btd) (H : Nat) :
    b.finishTiles H = { b with status := (b.finishTiles H).status } := by
  unfold Btd.finishTiles
  split <;> rfl

/-- A block takes the position of a running operation to the next block, and the operation is `done` after the last
one. -/
theorem Btd.runsColorBlocks_moves {b : Btd} (hr : b.RunsColorBlocks) :
    ((b.advance 8).nextBlock.finishTiles 8).status =
        (if 4 * b.tileIndex + b.sb.toNat + 1 = 4 * (b.tilesPerRow * (b.height.toNat / 8)) then .completed
        else b.status) ∧
      4 * ((b.advance 8).nextBlock.finishTiles 8).tileIndex + ((b.advance 8).nextBlock.finishTiles 8).sb.toNat =
        4 * b.tileIndex + b.sb.toNat + 1 := by
  obtain ⟨-, hin, -, -, -⟩ := hr
  obtain ⟨htx, -, hidx⟩ := Btd.nextBlock_moves (b := b.advance 8) hin
  have htpr : (b.advance 8).nextBlock.tilesPerRow = b.tilesPerRow := by simp [Btd.tilesPerRow]
  have hend := Btd.tiles_le_tileIndex_iff (H := 8) (htpr ▸ htx)
  have hlt := Btd.tileIndex_lt hin
  have hsb := b.sb.isLt
  have hsb' := (b.advance 8).nextBlock.sb.isLt
  rw [show (b.advance 8).tileIndex = b.tileIndex from rfl, Btd.advance_sb] at hidx
  simp only [htpr, Btd.nextBlock_height, Btd.advance_height] at hend
  refine ⟨?_, by simpa using hidx⟩
  rw [Btd.finishTiles_status, Btd.nextBlock_status, Btd.advance_status, Btd.nextBlock_height, Btd.advance_height]
  exact if_congr (hend.symm.trans (by omega)) rfl rfl

/-- What a block of a running operation changes: `DST`, the cursor, the position, STATUS after the last block, and the
registers that hold its colours (R32, R33, R36). -/
theorem Btd.block_changes {b b' : Btd} {ct : ColorTable} {c1 c2 : Half} {r0 r1 r2 r3 : Byte} (hr : b.RunsColorBlocks)
    (h : b.block ct c1 c2 r0 r1 r2 r3 = .next b') :
    b' = { b with
      dst := b'.dst, c1 := c1, c2 := c2, ct := ct, bits := 0, sp := b.sp + 8, sb := b'.sb, tx := b'.tx, ty := b'.ty
      status := if 4 * b.tileIndex + b.sb.toNat + 1 = 4 * (b.tilesPerRow * (b.height.toNat / 8)) then .completed
        else b.status } ∧
    4 * b'.tileIndex + b'.sb.toNat = 4 * b.tileIndex + b.sb.toNat + 1 := by
  obtain ⟨-, rfl⟩ := Btd.block_eq_next.mp h
  obtain ⟨hstatus, hidx⟩ := Btd.runsColorBlocks_moves (b := Btd.loadColors ct c1 c2 r3 { b with
    dst := b.dst.writeAll (blockCells b.width.toNat b.blockX b.blockY ct r0 r1 r2 r3) }) hr
  refine ⟨?_, hidx⟩
  rw [Btd.finishTiles_frame, hstatus, Btd.nextBlock_frame]
  simp only [Btd.loadColors, (indexRowsAreReadFromTheTop r3).2]
  rfl

/-! ### The two elements -/

theorem exec_cblkG (c1 c2 : Half) (r0 r1 r2 r3 : Byte) (s : State) :
    exec (.cblkG c1 c2 r0 r1 r2 r3) s = onBtd s (s.btd.block (gradientTable c1 c2) c1 c2 r0 r1 r2 r3) := rfl

theorem exec_cblkA (c1 c2 : Half) (r0 r1 r2 r3 : Byte) (s : State) :
    exec (.cblkA c1 c2 r0 r1 r2 r3) s = onBtd s (s.btd.block (averageTable c1 c2) c1 c2 r0 r1 r2 r3) := rfl

/-- Settles O24: the cells are those of the block's sixteen pixels, and the position moves as
`Btd.runsColorBlocks_moves` says. -/
theorem colorBlocksWriteTheirPixels : Obligations.ColorBlocksWriteTheirPixels := by
  intro s i c1 c2 r0 r1 r2 r3 ct _ hr _ hi
  have hexec : exec i s = onBtd s (s.btd.block ct c1 c2 r0 r1 r2 r3) := by
    rcases hi with ⟨rfl, rfl⟩ | ⟨rfl, rfl⟩
    · exact exec_cblkG c1 c2 r0 r1 r2 r3 s
    · exact exec_cblkA c1 c2 r0 r1 r2 r3 s
  obtain ⟨b, hblock, hdst⟩ := Btd.exists_block hr ct c1 c2 r0 r1 r2 r3
  obtain ⟨hb, hidx⟩ := Btd.block_changes hr hblock
  have hinside := Btd.blockPixels_inside hr
  simp only [← Btd.blockX_eq, ← Btd.blockY_eq]
  refine ⟨{ s with btd := b }, by rw [hexec, hblock, onBtd_next], fun r k ch => ?_, fun a ha => ?_,
    congrArg (fun b => { s with btd := b }) hb, hidx⟩
  · have hmem : (s.btd.blockX + k.val, s.btd.blockY + r.val) ∈ blockPixels s.btd.blockX s.btd.blockY :=
      mem_blockPixels.mpr (by simp)
    rw [hdst, Memory.read_writeAll_imageCells _ ch (fun p hp => (hinside p hp).1) (hinside _ hmem).1, if_pos hmem,
      blockRgba_add]
  · rw [hdst, Memory.read_writeAll_of_not_mem]
    rintro c hc rfl
    obtain ⟨x, y, ch, hp, rfl⟩ := mem_imageCells.mp hc
    obtain ⟨hx, hx', hy, hy'⟩ := mem_blockPixels.mp hp
    obtain ⟨k, rfl⟩ := Nat.exists_eq_add_of_le hx
    obtain ⟨r, rfl⟩ := Nat.exists_eq_add_of_le hy
    exact ha ⟨r, Nat.lt_of_add_lt_add_left hy'⟩ ⟨k, Nat.lt_of_add_lt_add_left hx'⟩ ch rfl

end Sys2Proof.Machine
end

section
/-! SUPPORT. The intensity elements (42_intensity.md R170 to R176): what a gray pixel writes, how the position moves
from pixel to pixel, and what an element changes. -/

namespace Sys2Proof.Machine

/-! ### What a gray pixel writes (R64, R65, R171, R174) -/

theorem mem_grayCells {width x y : Nat} {v : Byte} {c : Host.Cell} :
    c ∈ grayCells width x y v ↔ (pix width x y ≤ c.1 ∧ c.1 < pix width x y + 4) ∧ c.2 = v := by
  have hbyte : ∀ i, [v, v, v, v][i]? = some c.2 ↔ i < 4 ∧ c.2 = v := fun i => by
    rw [show [v, v, v, v] = List.replicate 4 v from rfl, List.getElem?_replicate]
    simp [eq_comm]
  simp only [grayCells, pixelCells, mem_cellsFrom_iff, hbyte]
  constructor
  · rintro ⟨i, hc, hi, hv⟩
    exact ⟨by omega, hv⟩
  · rintro ⟨hc, hv⟩
    exact ⟨c.1 - pix width x y, by omega, by omega, hv⟩

/-- The four bytes of a gray pixel are the ones read afterwards, every other byte is as before. -/
theorem Memory.read_writeAll_grayCells (m : Memory) (width x y a : Nat) (v : Byte) :
    (m.writeAll (grayCells width x y v)).read a =
      if pix width x y ≤ a ∧ a < pix width x y + 4 then some v else m.read a := by
  split
  · next ha =>
    exact Memory.read_writeAll_of_mem _ _ _ _ (mem_grayCells.mpr ⟨ha, rfl⟩) fun c hc _ => (mem_grayCells.mp hc).2
  · next ha =>
    refine Memory.read_writeAll_of_not_mem _ _ _ ?_
    rintro c hc rfl
    exact ha (mem_grayCells.mp hc).1

/-- The cells of a gray pixel of the image lie below its size. -/
theorem grayCells_lt {width height x y : Nat} (v : Byte) (hx : x < width) (hy : y < height) :
    ∀ c ∈ grayCells width x y v, c.1 < width * height * 4 := by
  intro c hc
  obtain ⟨⟨-, hlt⟩, -⟩ := mem_grayCells.mp hc
  have hlast : pix width x y + 3 < width * height * 4 := pix_add_lt 3 hx hy
  omega

/-- The pixel to the right stands in the next four bytes. -/
theorem pix_succ (width x y : Nat) : pix width (x + 1) y = pix width x y + 4 := rfl

/-! ### How the position moves (R128, R170, R172, R173, R175) -/

/-- The next pixel changes the position alone. -/
theorem Btd.nextPixel_frame (stride H : Nat) (b : Btd) :
    b.nextPixel stride H = { b with
      row := (b.nextPixel stride H).row, col := (b.nextPixel stride H).col
      tx := (b.nextPixel stride H).tx, ty := (b.nextPixel stride H).ty } := by
  unfold Btd.nextPixel Btd.nextRow Btd.nextTile
  split_ifs <;> rfl

/-- Columns counted through the tiles of the image, `8*H` to a tile: the count is at the end of the image exactly if the
tile number is past the last tile. -/
theorem count_eq_end_iff {count H tiles index row col : Nat} (hrow : row < H) (hcol : col < 8)
    (hcount : 8 * H * index + 8 * row + col = count) (hle : count ≤ 8 * H * tiles) :
    count = 8 * H * tiles ↔ tiles ≤ index := by
  constructor
  · intro hend
    by_contra hlt
    have hnext : 8 * H * (index + 1) ≤ 8 * H * tiles := Nat.mul_le_mul_left _ (Nat.lt_of_not_le hlt)
    rw [Nat.mul_succ] at hnext
    omega
  · intro hlast
    have := Nat.mul_le_mul_left (8 * H) hlast
    omega

/-- `stride` columns on from a pixel of the image, the operation is `done` if these were the last ones, and nothing but
the position and STATUS has changed. Past the last pixel the position is that of log entry 11. -/
theorem Btd.nextPixel_changes {b b' : Btd} {stride H : Nat} (hin : b.TileInside H) (hty : b.height.toNat / H < 2 ^ 29)
    (hrow : b.row.toNat < H) (hH : H ≤ 8) (hcol : b.col.toNat + stride ≤ 8)
    (hb' : b' = (b.nextPixel stride H).finishTiles H) :
    b' = { b with row := b'.row, col := b'.col, tx := b'.tx, ty := b'.ty, status := b'.status } ∧
    b'.status = (if 8 * H * b.tileIndex + 8 * b.row.toNat + b.col.toNat + stride =
      8 * H * (b.tilesPerRow * (b.height.toNat / H)) then .completed else b.status) ∧
    8 * H * b'.tileIndex + 8 * b'.row.toNat + b'.col.toNat =
      8 * H * b.tileIndex + 8 * b.row.toNat + b.col.toNat + stride := by
  obtain ⟨htx, -, hrow', -, hidx⟩ := Btd.nextPixel_moves hin hty hrow hH hcol
  have htpr : (b.nextPixel stride H).tilesPerRow = b.tilesPerRow := by simp [Btd.tilesPerRow]
  have hend := Btd.tiles_le_tileIndex_iff (H := H) (htpr ▸ htx)
  rw [htpr, Btd.nextPixel_height] at hend
  have hlast : 8 * H * (b.tileIndex + 1) ≤ 8 * H * (b.tilesPerRow * (b.height.toNat / H)) :=
    Nat.mul_le_mul_left _ (Btd.tileIndex_lt hin)
  rw [Nat.mul_succ] at hlast
  have hcount := count_eq_end_iff hrow' (b.nextPixel stride H).col.isLt hidx
    (tiles := b.tilesPerRow * (b.height.toNat / H)) (by omega)
  subst hb'
  refine ⟨?_, ?_, by simpa using hidx⟩
  · rw [Btd.finishTiles_frame, Btd.nextPixel_frame]
  · rw [Btd.finishTiles_status, Btd.nextPixel_status, Btd.nextPixel_height]
    exact if_congr (hcount.trans hend).symm rfl rfl

/-- Two columns on is one pair on: pairs begin at even columns, 4 to a row and 32 to a tile of 8 by 8. -/
theorem pairCount_of_columnCount {index row col index' row' col' : Nat} (heven : col % 2 = 0)
    (hcount : 8 * 8 * index' + 8 * row' + col' = 8 * 8 * index + 8 * row + col + 2) :
    32 * index' + 4 * row' + col' / 2 = 32 * index + 4 * row + col / 2 + 1 := by
  omega

/-! ### The two elements -/

theorem exec_i8px (v : Byte) (s : State) : exec (.i8px v) s = execI8px v s := rfl

theorem exec_i4pp (hi lo : BitVec 4) (s : State) : exec (.i4pp hi lo) s = execI4pp hi lo s := rfl

/-- The cells of an `I8PX` lie inside `DST`. -/
theorem Btd.i8Cells_lt {b : Btd} (hr : b.RunsIntensity8) (v : Byte) : ∀ c ∈ b.i8Cells v, c.1 < b.dstLen.toNat := by
  obtain ⟨hx, hy⟩ := Btd.intensity8_pixel_inside hr
  rw [Btd.dstLen_of_intensity8 hr]
  exact grayCells_lt v hx hy

/-- The cells of an `I4PP` lie inside `DST`. -/
theorem Btd.i4Cells_lt {b : Btd} (hr : b.RunsIntensity4) (hi lo : BitVec 4) :
    ∀ c ∈ b.i4Cells hi lo, c.1 < b.dstLen.toNat := by
  obtain ⟨-, hright, hy⟩ := Btd.intensity4_pair_inside hr
  rw [Btd.dstLen_of_intensity4 hr]
  exact List.forall_mem_append.mpr
    ⟨grayCells_lt (exp4 hi) (Nat.lt_of_succ_lt hright) hy, grayCells_lt (exp4 lo) hright hy⟩

/-- The bytes of the pair's left pixel are the expanded high nibble, those of its right pixel the expanded low one. -/
theorem Btd.read_writeAll_i4Cells (b : Btd) (m : Memory) (hi lo : BitVec 4) (a : Nat) :
    (m.writeAll (b.i4Cells hi lo)).read a =
      if pix b.width.toNat b.pixelX (b.pixelY 8) ≤ a ∧ a < pix b.width.toNat b.pixelX (b.pixelY 8) + 4 then
        some (exp4 hi)
      else if pix b.width.toNat (b.pixelX + 1) (b.pixelY 8) ≤ a ∧
          a < pix b.width.toNat (b.pixelX + 1) (b.pixelY 8) + 4 then some (exp4 lo)
      else m.read a := by
  rw [Btd.i4Cells, Memory.writeAll_append, Memory.read_writeAll_grayCells, Memory.read_writeAll_grayCells, pix_succ]
  split_ifs
  · omega
  all_goals rfl

/-- What an `I8PX` of a running operation changes: `DST`, the cursor, the position, and STATUS after the last pixel. -/
theorem execI8px_changes {v : Byte} {s t : State} (hr : s.btd.RunsIntensity8) (h : execI8px v s = .next t) :
    t = { s with btd := { s.btd with
      dst := t.btd.dst, sp := s.btd.sp + 1, row := t.btd.row, col := t.btd.col, tx := t.btd.tx, ty := t.btd.ty
      status := if 32 * s.btd.tileIndex + 8 * s.btd.row.toNat + s.btd.col.toNat + 1 =
        32 * (s.btd.tilesPerRow * (s.btd.height.toNat / 4)) then .completed else s.btd.status } } ∧
    32 * t.btd.tileIndex + 8 * t.btd.row.toNat + t.btd.col.toNat =
      32 * s.btd.tileIndex + 8 * s.btd.row.toNat + s.btd.col.toNat + 1 := by
  have hty := Btd.intensity8_height_lt hr
  obtain ⟨-, hin, -, hrow, -⟩ := hr
  obtain ⟨-, rfl⟩ := execI8px_eq_next.mp h
  obtain ⟨hb, hstatus, hidx⟩ := Btd.nextPixel_changes (stride := 1)
    (b := Btd.advance 1 { s.btd with dst := s.btd.dst.writeAll (s.btd.i8Cells v) })
    hin hty hrow (by decide) s.btd.col.isLt rfl
  refine ⟨congrArg (fun b => { s with btd := b }) (hb.trans ?_), hidx⟩
  rw [hstatus, Btd.finishTiles_dst, Btd.nextPixel_dst]
  rfl

/-- What an `I4PP` of a running operation changes: `DST`, `NIB`, the cursor, the position, and STATUS after the last
pair. -/
theorem execI4pp_changes {hi lo : BitVec 4} {s t : State} (hr : s.btd.RunsIntensity4)
    (h : execI4pp hi lo s = .next t) :
    t = { s with btd := { s.btd with
      dst := t.btd.dst, nib := hi ++ lo, sp := s.btd.sp + 1
      row := t.btd.row, col := t.btd.col, tx := t.btd.tx, ty := t.btd.ty
      status := if 32 * s.btd.tileIndex + 4 * s.btd.row.toNat + s.btd.col.toNat / 2 + 1 =
        32 * (s.btd.tilesPerRow * (s.btd.height.toNat / 8)) then .completed else s.btd.status } } ∧
    32 * t.btd.tileIndex + 4 * t.btd.row.toNat + t.btd.col.toNat / 2 =
      32 * s.btd.tileIndex + 4 * s.btd.row.toNat + s.btd.col.toNat / 2 + 1 := by
  have hh := s.btd.height.isLt
  have hroom : s.btd.col.toNat + 2 ≤ 8 := by have := s.btd.col.isLt; omega
  obtain ⟨-, hin, -, heven, -⟩ := hr
  obtain ⟨-, rfl⟩ := execI4pp_eq_next.mp h
  obtain ⟨hb, hstatus, hidx⟩ := Btd.nextPixel_changes (stride := 2)
    (b := (Btd.loadPair (hi ++ lo) { s.btd with dst := s.btd.dst.writeAll (s.btd.i4Cells hi lo) }).advance 1)
    hin (by simp; omega) s.btd.row.isLt (by decide) hroom rfl
  have hend : 8 * 8 * s.btd.tileIndex + 8 * s.btd.row.toNat + s.btd.col.toNat + 2 =
        8 * 8 * (s.btd.tilesPerRow * (s.btd.height.toNat / 8)) ↔
      32 * s.btd.tileIndex + 4 * s.btd.row.toNat + s.btd.col.toNat / 2 + 1 =
        32 * (s.btd.tilesPerRow * (s.btd.height.toNat / 8)) := by omega
  refine ⟨congrArg (fun b => { s with btd := b }) (hb.trans ?_), ?_⟩
  · rw [hstatus.trans (if_congr hend rfl rfl), Btd.finishTiles_dst, Btd.nextPixel_dst]
    rfl
  · exact pairCount_of_columnCount heven hidx

/-- Settles O25: the four bytes written are `Memory.read_writeAll_grayCells`, the rest of the machine is
`execI8px_changes`. -/
theorem i8pxWritesOnePixel : Obligations.I8pxWritesOnePixel := by
  intro s v _ hr
  have hexec := execI8px_eq_next.mpr ⟨Btd.i8Cells_lt hr v, rfl⟩
  refine ⟨_, (exec_i8px v s).trans hexec, fun a => ?_, execI8px_changes hr hexec⟩
  rw [Btd.finishTiles_dst, Btd.nextPixel_dst]
  exact Memory.read_writeAll_grayCells s.btd.dst _ _ _ a v

/-- Settles O26: the eight bytes written are `Btd.read_writeAll_i4Cells`, the rest of the machine is
`execI4pp_changes`. -/
theorem i4ppWritesTwoPixels : Obligations.I4ppWritesTwoPixels := by
  intro s hi lo _ hr
  have hexec := execI4pp_eq_next.mpr ⟨Btd.i4Cells_lt hr hi lo, rfl⟩
  refine ⟨_, (exec_i4pp hi lo s).trans hexec, fun a => ?_, execI4pp_changes hr hexec⟩
  rw [Btd.finishTiles_dst, Btd.nextPixel_dst]
  exact Btd.read_writeAll_i4Cells s.btd s.btd.dst hi lo a

end Sys2Proof.Machine
end

section
/-! SUPPORT. The elements of engine LZD (43_lz_stream.md R190 to R204): the arms of `exec`, the element due, and what an
element raises. -/

namespace Sys2Proof.Machine

/-! ### The four elements -/

theorem exec_ctrl (flags : Byte) (s : State) : exec (.ctrl flags) s = execCtrl flags s := rfl

theorem exec_lit (b : Byte) (s : State) : exec (.lit b) s = onLzd s (s.lzd.takeFlag.literal b) := rfl

theorem exec_ref (n : BitVec 4) (d : BitVec 12) (s : State) :
    exec (.ref n d) s = onLzd s (s.lzd.takeFlag.shortReference n d) := rfl

theorem exec_refx (d : BitVec 12) (e : Byte) (s : State) :
    exec (.refx d e) s = onLzd s (s.lzd.takeFlag.extendedReference d e) := rfl

/-- `CTRL` with its byte there. -/
theorem execCtrl_of_lt {s : State} (h : s.lzd.sp.toNat < s.lzd.srcLen.toNat) (flags : Byte) :
    execCtrl flags s = .next { s with lzd := s.lzd.readByte.loadFlags flags } := by
  unfold execCtrl
  rw [if_neg (Nat.not_le.mpr h)]
  rfl

/-- `CTRL` without its byte. -/
theorem execCtrl_of_le {s : State} (h : s.lzd.srcLen.toNat ≤ s.lzd.sp.toNat) (flags : Byte) :
    execCtrl flags s = .next { s with lzd := s.lzd.raise .truncatedSource } := by
  unfold execCtrl
  rw [if_pos h]
  rfl

/-! ### Flags (R39, R190, R193) -/

theorem repeat_takeFlag_ctl (k : Nat) (l : Lzd) : (Nat.repeat Lzd.takeFlag k l).ctl = l.ctl := by
  induction k with
  | zero => rfl
  | succ k ih => rw [Nat.repeat, Lzd.takeFlag_ctl, ih]

theorem repeat_takeFlag_bi {k : Nat} {l : Lzd} (hk : k ≤ l.bi.toNat) :
    (Nat.repeat Lzd.takeFlag k l).bi.toNat = l.bi.toNat - k := by
  induction k with
  | zero => rfl
  | succ k ih =>
    have hbi := ih (by omega)
    rw [Nat.repeat, Lzd.takeFlag_bi, BitVec.toNat_sub, hbi]
    simp
    omega

/-- With no flag left a `CTRL` is due, else bit `BI - 1` of `CTL` tells. -/
theorem Lzd.due_eq (l : Lzd) :
    l.due = if l.bi.toNat = 0 then .control
      else if l.ctl.toNat / 2 ^ (l.bi.toNat - 1) % 2 = 1 then .literal else .reference := by
  have hzero : l.bi = 0 ↔ l.bi.toNat = 0 := by rw [← BitVec.toNat_inj]; rfl
  have hflag : l.flag = true ↔ l.ctl.toNat / 2 ^ (l.bi.toNat - 1) % 2 = 1 := by
    rw [Lzd.flag, ← BitVec.testBit_toNat, Nat.testBit_eq_decide_div_mod_eq, decide_eq_true_eq]
  simp only [Lzd.due, hzero, hflag]

/-- Settles O7: `k` used flags leave `BI` at `8 - k`. -/
theorem elementDueFollowsTheFlags : Obligations.ElementDueFollowsTheFlags := by
  refine ⟨fun l flags k hk => ?_, fun l _ => l.due_eq⟩
  have hbi : (Nat.repeat Lzd.takeFlag k (l.loadFlags flags)).bi.toNat = 8 - k := repeat_takeFlag_bi hk
  rw [Lzd.due_eq, hbi, repeat_takeFlag_ctl, Lzd.loadFlags_ctl]
  have hlast : 8 - k = 0 ↔ k = 8 := by omega
  have hbit : 8 - k - 1 = 7 - k := by omega
  simp only [hlast, hbit]

/-! ### Errors inside the stream (R233, R234, R236, R237) -/

/-- The outcome is an error of the stream: STATUS says which, and but for engine LZD and its `DST` below `DST_LEN`
nothing that the host sees has changed. -/
def RaisesInStream (o : Host.Outcome State Fault Refusal) (s : State) (code : ErrCode) : Prop :=
  ∃ t, o = .next t ∧ t.lzd.status = ⟨.error, code⟩ ∧ t.lzd.src = s.lzd.src ∧
    (∀ a : Nat, s.lzd.dstLen.toNat ≤ a → t.lzd.dst.read a = s.lzd.dst.read a) ∧ t = { s with lzd := t.lzd }

/-- An error raised once the flag and the bytes of an element are taken, which leaves the buffers alone. -/
theorem raisesInStream_of_raise {s : State} {k : Lzd} {code : ErrCode} {o : Host.Outcome State Fault Refusal}
    (ho : o = .next { s with lzd := k.raise code }) (hcode : code = .truncatedSource ∨ code = .invalidBackReference)
    (hsrc : k.src = s.lzd.src) (hdst : k.dst = s.lzd.dst) (hlen : k.dstLen = s.lzd.dstLen) :
    RaisesInStream o s code := by
  refine ⟨_, ho, rfl, hsrc, fun a ha => ?_, rfl⟩
  change (k.dstAfterError code).read a = _
  rw [Lzd.read_dstAfterError k a hcode, if_neg (by rw [hlen]; omega), hdst]

/-- Settles O27. -/
theorem ctrlLoadsTheFlags : Obligations.CtrlLoadsTheFlags := by
  refine fun s flags => ⟨execCtrl_of_lt (flags := flags), fun h => ?_⟩
  exact ⟨_, execCtrl_of_le h flags, rfl, rfl, rfl⟩

/-- A back-reference behind the window raises before it copies (R202). -/
theorem raisesInStream_of_backReference {s : State} {k : Lzd} {o : Host.Outcome State Fault Refusal}
    (ho : o = onLzd s k.backReference) (hbad : k.dp.toNat < k.dist.toNat) (hsrc : k.src = s.lzd.src)
    (hdst : k.dst = s.lzd.dst) (hlen : k.dstLen = s.lzd.dstLen) : RaisesInStream o s .invalidBackReference := by
  have hraise : k.backReference = .next (k.raise .invalidBackReference) :=
    Lzd.backReference_eq_next.mpr (.inl ⟨hbad, rfl⟩)
  exact raisesInStream_of_raise (ho.trans (by rw [hraise]; rfl)) (.inr rfl) hsrc hdst hlen

/-- `REF` with its two token bytes there. -/
theorem Lzd.shortReference_of_lt {l : Lzd} (h : l.sp.toNat + 1 < l.srcLen.toNat) (n : BitVec 4) (d : BitVec 12) :
    l.shortReference n d = ((l.loadToken (tokenOf n d)).loadLength (shortLength n)).backReference := by
  rw [Lzd.shortReference, if_neg (Nat.not_le.mpr h)]

/-- `REFX` with its three bytes there. -/
theorem Lzd.extendedReference_of_lt {l : Lzd} (h : l.sp.toNat + 2 < l.srcLen.toNat) (d : BitVec 12) (e : Byte) :
    l.extendedReference d e = ((l.loadToken (tokenOf 0 d)).loadExtra e).backReference := by
  have hsp : (l.sp + 2).toNat = l.sp.toNat + 2 := toNat_add_ofNat h.le
  rw [Lzd.extendedReference, if_neg (by omega), Lzd.loadToken_sp, hsp, if_neg (Nat.not_le.mpr h)]

theorem exec_ref_of_lt {s : State} (h : s.lzd.sp.toNat + 1 < s.lzd.srcLen.toNat) (n : BitVec 4) (d : BitVec 12) :
    exec (.ref n d) s =
      onLzd s ((s.lzd.takeFlag.loadToken (tokenOf n d)).loadLength (shortLength n)).backReference := by
  rw [exec_ref, Lzd.shortReference_of_lt (l := s.lzd.takeFlag) h]

theorem exec_refx_of_lt {s : State} (h : s.lzd.sp.toNat + 2 < s.lzd.srcLen.toNat) (d : BitVec 12) (e : Byte) :
    exec (.refx d e) s = onLzd s ((s.lzd.takeFlag.loadToken (tokenOf 0 d)).loadExtra e).backReference := by
  rw [exec_refx, Lzd.extendedReference_of_lt (l := s.lzd.takeFlag) h]

/-- Settles O31: the bytes are read, the distance check fails. -/
theorem badDistanceRaisesInvalidBackReference : Obligations.BadDistanceRaisesInvalidBackReference := by
  intro s i d hi hbad
  have hdist : ∀ k : Lzd, k.dp = s.lzd.dp → k.dist = distanceOf d → k.dp.toNat < k.dist.toNat := by
    intro k hdp hk
    rwa [hdp, hk, distanceOf_toNat]
  rcases hi with ⟨⟨n, rfl⟩, hlen⟩ | ⟨⟨e, rfl⟩, hlen⟩
  · exact raisesInStream_of_backReference (exec_ref_of_lt hlen n d) (hdist _ rfl (by simp)) rfl rfl rfl
  · exact raisesInStream_of_backReference (exec_refx_of_lt hlen d e) (hdist _ rfl (by simp)) rfl rfl rfl

/-- Settles O33: the length checks come before the distance check. -/
theorem elementsCheckTheirSourceBytes : Obligations.ElementsCheckTheirSourceBytes := by
  intro s i hi
  have hraise : ∀ {o : Host.Outcome Lzd Fault Refusal} (k : Lzd), o = .next (k.raise .truncatedSource) →
      k.src = s.lzd.src → k.dst = s.lzd.dst → k.dstLen = s.lzd.dstLen →
      RaisesInStream (onLzd s o) s .truncatedSource :=
    fun k ho => raisesInStream_of_raise (k := k) (by rw [ho]; rfl) (.inl rfl)
  rcases hi with ⟨⟨b, rfl⟩, hlen⟩ | ⟨⟨n, d, rfl⟩, hlen⟩ | ⟨⟨d, e, rfl⟩, hlen⟩
  · exact hraise _ (Lzd.literal_eq_next.mpr (.inl ⟨hlen, rfl⟩)) rfl rfl rfl
  · exact hraise _ (Lzd.shortReference_eq_next.mpr (.inl ⟨hlen, rfl⟩)) rfl rfl rfl
  · by_cases htoken : s.lzd.srcLen.toNat ≤ s.lzd.sp.toNat + 1
    · exact hraise _ (Lzd.extendedReference_eq_next.mpr (.inl ⟨htoken, rfl⟩)) rfl rfl rfl
    · have hextra : s.lzd.srcLen.toNat = s.lzd.sp.toNat + 2 := by omega
      exact hraise _ (Lzd.extendedReference_eq_next.mpr (.inr (.inl ⟨hextra, rfl⟩))) rfl rfl rfl

/-! ### Bytes that are missing (R197, R199, R233) -/

/-- What is read from a source whose bytes are there: as many as asked for and as `len` leaves. -/
theorem readSource_eq_ok {m : Memory} {len n a : Nat} {bs : List Byte} (hlen : bs.length = min n (len - a))
    (hread : ∀ i, i < bs.length → m.read (a + i) = bs[i]?) : readSource m len n a = .ok bs := by
  induction n generalizing a bs with
  | zero =>
    obtain rfl : bs = [] := List.eq_nil_of_length_eq_zero (by omega)
    rfl
  | succ n ih =>
    rw [readSource]
    split
    · obtain rfl : bs = [] := List.eq_nil_of_length_eq_zero (by omega)
      rfl
    · cases bs with
      | nil => simp at hlen; omega
      | cons b bs =>
        have hb : m.read a = some b := by simpa using hread 0 (by simp)
        have htail : readSource m len n (a + 1) = .ok bs := by
          refine ih (by simp at hlen; omega) fun i hi => ?_
          simpa [Nat.add_assoc, Nat.add_comm 1 i] using hread (i + 1) (by simpa using hi)
        simp [hb, htail]

theorem Lzd.fetch_of_ne_reference {l : Lzd} (h : l.due ≠ .reference) :
    l.fetch = readSource l.src l.srcLen.toNat 1 l.sp.toNat := by
  unfold Lzd.fetch
  split
  · next hdue => exact absurd hdue h
  · rfl

/-- The length code of a token is the high nibble of its first byte (R66, R96). -/
theorem extendedForm_be16 {b0 b1 : Byte} : extendedForm (be16 b0 b1) = true ↔ b0.toNat / 16 = 0 := by
  have hcode : (lengthCode (be16 b0 b1)).toNat = b0.toNat / 16 := by
    have h1 := b1.isLt
    have h0 := b0.isLt
    rw [lengthCode, BitVec.extractLsb'_toNat, be16_toNat, Nat.shiftRight_eq_div_pow]
    omega
  rw [extendedForm, decide_eq_true_eq, ← BitVec.toNat_inj, hcode]
  rfl

/-- A token that says that an extra byte follows is fetched even where that byte is missing. -/
theorem Lzd.fetch_of_missing_extra {l : Lzd} {b0 b1 : Byte} (hdue : l.due = .reference)
    (hlen : l.srcLen.toNat = l.sp.toNat + 2) (h0 : l.src.read l.sp.toNat = some b0)
    (h1 : l.src.read (l.sp.toNat + 1) = some b1) (hext : extendedForm (be16 b0 b1) = true) :
    l.fetch = .ok [b0, b1] := by
  have hread : ∀ n, 2 ≤ n → readSource l.src l.srcLen.toNat n l.sp.toNat = .ok [b0, b1] := by
    refine fun n hn => readSource_eq_ok (by simp; omega) fun i hi => ?_
    match i, hi with
    | 0, _ => exact h0
    | 1, _ => exact h1
  have hroom : ¬ l.srcLen.toNat ≤ l.sp.toNat + 1 := by omega
  simp [Lzd.fetch, hdue, hroom, hread, hext]

/-- A turn that finds the bytes of the element due missing raises `TruncatedSource`, however far it has read. -/
theorem raisesInStream_of_starve {s : State} {bytes : List Byte} {r : Reject} (hb : s.lzd.status.state = .busy)
    (hf : s.lzd.fetch = .ok bytes) (hd : decode s.lzd.due bytes = .error r) :
    RaisesInStream (engineTurn .lzd s) s .truncatedSource := by
  have hturn : engineTurn .lzd s = .next { s with lzd := s.lzd.starve bytes } :=
    lzdTurn_eq_next.mpr (.inr ⟨(Status.busy_iff _).mpr hb, bytes, hf, .inr ⟨r, hd, rfl⟩⟩)
  unfold Lzd.starve at hturn
  split at hturn
  · exact raisesInStream_of_raise hturn (.inl rfl) rfl rfl rfl
  · exact raisesInStream_of_raise hturn (.inl rfl) rfl rfl rfl
  · exact raisesInStream_of_raise hturn (.inl rfl) rfl rfl rfl

/-- Settles O32: where the byte of a `CTRL` or `LIT` or the token is missing nothing is fetched; where the extra byte is
missing the token is, and says that it is due. -/
theorem missingBytesRaiseTruncatedSource : Obligations.MissingBytesRaiseTruncatedSource := by
  intro s hb hmissing
  rcases hmissing with ⟨hdue, hlen⟩ | ⟨hdue, hlen⟩ | ⟨hdue, hlen, b0, b1, h0, h1, hn⟩
  · have hf : s.lzd.fetch = .ok [] := by
      rw [Lzd.fetch_of_ne_reference hdue]
      exact readSource_eq_ok (by simp; omega) (by simp)
    rcases s.lzd.due_cases with ⟨-, hc⟩ | ⟨-, hc | hc⟩
    · exact raisesInStream_of_starve hb hf (by rw [hc]; rfl)
    · exact raisesInStream_of_starve hb hf (by rw [hc]; rfl)
    · exact absurd hc hdue
  · have hf : s.lzd.fetch = .ok [] := by simp [Lzd.fetch, hdue, hlen]
    exact raisesInStream_of_starve hb hf (by rw [hdue]; rfl)
  · have hext : extendedForm (be16 b0 b1) = true := extendedForm_be16.mpr hn
    have hcode : lengthCode (be16 b0 b1) = 0 := by simpa [extendedForm] using hext
    exact raisesInStream_of_starve (r := .missingExtra) hb (Lzd.fetch_of_missing_extra hdue hlen h0 h1 hext)
      (by rw [hdue]; simp only [decode, decodeReference, hcode, if_true])

end Sys2Proof.Machine
end

section
/-! SUPPORT. The bytes an element of engine LZD writes (43_lz_stream.md R196 to R205): the one of a `LIT`, and those a
back-reference copies out of the window. -/

namespace Sys2Proof.Machine

/-! ### One literal byte (R196, R205) -/

/-- A number owed that is not negative counts down without a wrap. -/
theorem toInt_sub_ofNat {x : Word} {n : Nat} (h : (n : Int) ≤ x.toInt) :
    (x - BitVec.ofNat 32 n).toInt = x.toInt - n := by
  rw [BitVec.toInt_eq_toNat_cond] at h ⊢
  rw [BitVec.toInt_eq_toNat_cond, BitVec.toNat_sub]
  simp
  omega

/-- `done` exactly when nothing is owed any more (R205). -/
theorem Lzd.exitEarly_eq (l : Lzd) :
    l.exitEarly = { l with status := if l.rem.toInt ≤ 0 then .completed else l.status } := by
  simp only [Lzd.exitEarly, Lzd.exhausted, decide_eq_true_eq]
  split <;> rfl

/-- `LIT` with its byte and the room for it there. -/
theorem Lzd.literal_of_lt {l : Lzd} (hsp : l.sp.toNat < l.srcLen.toNat) (hroom : l.dp.toNat < l.dstLen.toNat)
    (b : Byte) :
    l.literal b = .next { l with
      dst := l.dst.write l.dp.toNat b, sp := l.sp + 1, dp := l.dp + 1, rem := l.rem - 1
      status := if (l.rem - 1).toInt ≤ 0 then .completed else l.status } :=
  Lzd.literal_eq_next.mpr (.inr ⟨hsp, _, Lzd.put_eq_next.mpr ⟨hroom, rfl⟩, by rw [Lzd.exitEarly_eq]; rfl⟩)

/-- While a byte is owed there is room for all that are (R41). -/
theorem Lzd.Running.room {l : Lzd} (h : l.Running) : l.dp.toNat + l.rem.toNat = l.dstLen.toNat := by
  have hrem := toNat_of_toInt_pos h.owed
  have hsum := h.sum
  have hlen := h.dstLen
  omega

/-- Settles O28. -/
theorem litCopiesOneByte : Obligations.LitCopiesOneByte := by
  intro s b hb hrun hsp
  have howed := hrun.owed
  have hroom := hrun.room
  have hrem := toNat_of_toInt_pos howed
  have hlit := Lzd.literal_of_lt (l := s.lzd.takeFlag) hsp
    (by simp only [Lzd.takeFlag_dp, Lzd.takeFlag_dstLen]; omega) b
  refine ⟨_, by rw [exec_lit, hlit]; rfl, fun a => Memory.read_write _ _ _ _, ?_⟩
  have hlast : (s.lzd.rem - 1).toInt ≤ 0 ↔ s.lzd.rem = 1 := by
    rw [toInt_sub_one howed, ← BitVec.toNat_inj]
    simp
    omega
  simp only [Lzd.takeFlag_rem, hlast]
  rfl

/-! ### A copy (R200, R204, R205) -/

/-- Every byte of a copy is the byte `DIST` behind it: the copy reads where it has written (R200, R201, R263). -/
theorem Lzd.copyBytes_read {n : Nat} {l m : Lzd} (h : l.copyBytes n = .next m) (hdist : 0 < l.dist.toNat)
    (hbehind : l.dist.toNat ≤ l.dp.toNat) {a : Nat} (hlo : l.dp.toNat ≤ a) (hhi : a < l.dp.toNat + n) :
    m.dst.read a = m.dst.read (a - l.dist.toNat) := by
  induction n generalizing l with
  | zero => omega
  | succ n ih =>
    obtain ⟨v, hv, hroom, hrest⟩ := Lzd.copyBytes_succ_eq_next.mp h
    have hdp : (l.dp + 1).toNat = l.dp.toNat + 1 := toNat_add_ofNat hroom
    by_cases hfirst : a = l.dp.toNat
    · obtain ⟨-, -, hframe⟩ := Lzd.copyBytes_eq_next hrest l.dstLen.isLt
      simp only [hdp] at hframe
      rw [hframe a (by omega), hframe _ (by omega), hfirst, Memory.read_write_self,
        Memory.read_write_of_ne _ _ (by omega), hv]
    · have hnext := ih hrest hdist
      simp only [hdp] at hnext
      exact hnext (by omega) (by omega) (by omega)

/-- So the copy repeats the last `DIST` bytes of the window. -/
theorem Lzd.copyBytes_read_mod {n : Nat} {l m : Lzd} (h : l.copyBytes n = .next m) (hdist : 0 < l.dist.toNat)
    (hbehind : l.dist.toNat ≤ l.dp.toNat) {j : Nat} (hj : j < n) :
    m.dst.read (l.dp.toNat + j) = l.dst.read (l.dp.toNat - l.dist.toNat + j % l.dist.toNat) := by
  obtain ⟨-, -, hframe⟩ := Lzd.copyBytes_eq_next h l.dstLen.isLt
  induction j using Nat.strong_induction_on with
  | _ j ih =>
    have hback := Lzd.copyBytes_read h hdist hbehind (a := l.dp.toNat + j) (by omega) (by omega)
    by_cases hperiod : j < l.dist.toNat
    · have hold : l.dp.toNat + j - l.dist.toNat = l.dp.toNat - l.dist.toNat + j := by omega
      rw [hback, hold, Nat.mod_eq_of_lt hperiod, hframe _ (by omega)]
    · have hprev : l.dp.toNat + j - l.dist.toNat = l.dp.toNat + (j - l.dist.toNat) := by omega
      rw [hback, hprev, ih _ (by omega) (by omega), Nat.mod_eq_sub_mod (Nat.not_lt.mp hperiod)]

/-- A copy with room for it, from inside a written window, goes through, whatever else `DST` holds. -/
theorem Lzd.exists_copyBytes {n : Nat} {l : Lzd} (hroom : l.dp.toNat + n ≤ l.dstLen.toNat) (hdist : 0 < l.dist.toNat)
    (hbehind : l.dist.toNat ≤ l.dp.toNat) (hwin : ∀ a, a < l.dp.toNat → (l.dst.read a).isSome) :
    ∃ m, l.copyBytes n = .next m := by
  induction n generalizing l with
  | zero => exact ⟨l, rfl⟩
  | succ n ih =>
    have hdp : (l.dp + 1).toNat = l.dp.toNat + 1 := toNat_add_ofNat (n := 1) (len := l.dstLen) (by omega)
    obtain ⟨v, hv⟩ := Option.isSome_iff_exists.mp (hwin (l.dp.toNat - l.dist.toNat) (by omega))
    obtain ⟨m, hm⟩ := ih (l := { l with
      dst := l.dst.write l.dp.toNat v, dp := l.dp + 1, rem := l.rem - 1, cnt := l.cnt - 1 })
      (by simp only [hdp]; omega) hdist (by simp only [hdp]; omega) (by
        intro a ha
        simp only [hdp] at ha
        simp only [Memory.read_write]
        split
        · rfl
        · exact hwin a (by omega))
    exact ⟨m, Lzd.copyBytes_succ_eq_next.mpr ⟨v, hv, by omega, hm⟩⟩

/-- What the copy of a back-reference does in a running `decompress`: `min(LEN, REM)` bytes from `DIST` behind, and
`done` when nothing is owed any more. -/
theorem Lzd.backReference_copies {l : Lzd} (howed : 0 < l.rem.toInt) (hroom : l.dp.toNat + l.rem.toNat = l.dstLen.toNat)
    (hdist : 0 < l.dist.toNat) (hbehind : l.dist.toNat ≤ l.dp.toNat)
    (hwin : ∀ a, a < l.dp.toNat → (l.dst.read a).isSome) :
    ∃ m, l.backReference = .next m ∧
      (∀ j : Nat, j < min l.len.toNat l.rem.toNat →
        m.dst.read (l.dp.toNat + j) = l.dst.read (l.dp.toNat - l.dist.toNat + j % l.dist.toNat)) ∧
      (∀ a : Nat, a < l.dp.toNat ∨ l.dp.toNat + min l.len.toNat l.rem.toNat ≤ a → m.dst.read a = l.dst.read a) ∧
      m = { l with
        dst := m.dst, cnt := 0
        dp := l.dp + BitVec.ofNat 32 (min l.len.toNat l.rem.toNat)
        rem := l.rem - BitVec.ofNat 32 (min l.len.toNat l.rem.toNat)
        status := if l.rem.toNat ≤ l.len.toNat then ⟨.done, .none⟩ else l.status } := by
  have hrem := toNat_of_toInt_pos howed
  have hcount : l.copyCount = min l.len.toNat l.rem.toNat := by unfold Lzd.copyCount; omega
  obtain ⟨m, hm⟩ := Lzd.exists_copyBytes (l := l.loadCount l.copyCount) (n := l.copyCount)
    (by simp only [Lzd.loadCount_dp, Lzd.loadCount_dstLen]; omega) hdist hbehind hwin
  obtain ⟨-, heq, hframe⟩ := Lzd.copyBytes_eq_next hm l.dstLen.isLt
  refine ⟨m.exitEarly, Lzd.backReference_eq_next.mpr (.inr ⟨hbehind, m, hm, rfl⟩), fun j hj => ?_, fun a ha => ?_, ?_⟩
  · rw [Lzd.exitEarly_dst]
    exact Lzd.copyBytes_read_mod hm hdist hbehind (hcount ▸ hj)
  · rw [Lzd.exitEarly_dst]
    exact hframe a (by rwa [hcount])
  · have hexit : m.rem.toInt ≤ 0 ↔ l.rem.toNat ≤ l.len.toNat := by
      rw [heq]
      simp only [Lzd.loadCount_rem, hcount]
      rw [toInt_sub_ofNat (by omega)]
      omega
    rw [Lzd.exitEarly_eq]
    simp only [hexit]
    rw [heq, hcount]
    simp only [Lzd.loadCount_cnt, BitVec.sub_self]
    rfl

theorem distanceOf_eq_ofNat (d : BitVec 12) : distanceOf d = BitVec.ofNat 13 (d.toNat + 1) := by
  rw [← distanceOf_toNat, BitVec.ofNat_toNat, BitVec.setWidth_eq]

theorem shortLength_eq_ofNat (n : BitVec 4) : shortLength n = BitVec.ofNat 9 (n.toNat + 2) := by
  rw [← shortLength_toNat, BitVec.ofNat_toNat, BitVec.setWidth_eq]

theorem extendedLength_eq_ofNat (e : Byte) : extendedLength e = BitVec.ofNat 9 (e.toNat + 18) := by
  rw [← extendedLength_toNat, BitVec.ofNat_toNat, BitVec.setWidth_eq]

/-- Settles O29. -/
theorem refCopiesFromTheWindow : Obligations.RefCopiesFromTheWindow := by
  intro s n d hb hrun hi hsp hbehind
  obtain ⟨m, hm, hcopied, hframe, heq⟩ := Lzd.backReference_copies
    (l := (s.lzd.takeFlag.loadToken (tokenOf n d)).loadLength (shortLength n)) hrun.owed hrun.room
    (by simp [distanceOf_toNat]) (by simpa [distanceOf_toNat] using hbehind) hrun.window
  simp only [Lzd.loadLength_len, Lzd.loadLength_dist, Lzd.loadToken_dist, distanceField_tokenOf, distanceOf_toNat,
    shortLength_toNat] at hcopied hframe heq
  refine ⟨{ s with lzd := m }, by rw [exec_ref_of_lt hsp, hm]; rfl, hcopied, hframe, ?_⟩
  rw [heq, ← distanceOf_eq_ofNat, ← shortLength_eq_ofNat]
  rfl

/-- Settles O30. -/
theorem refxCopiesFromTheWindow : Obligations.RefxCopiesFromTheWindow := by
  intro s d e hb hrun hsp hbehind
  obtain ⟨m, hm, hcopied, hframe, heq⟩ := Lzd.backReference_copies
    (l := (s.lzd.takeFlag.loadToken (tokenOf 0 d)).loadExtra e) hrun.owed hrun.room
    (by simp [distanceOf_toNat]) (by simpa [distanceOf_toNat] using hbehind) hrun.window
  simp only [Lzd.loadExtra_len, Lzd.loadExtra_dist, Lzd.loadToken_dist, distanceField_tokenOf, distanceOf_toNat,
    extendedLength_toNat] at hcopied hframe heq
  refine ⟨{ s with lzd := m }, by rw [exec_refx_of_lt hsp, hm]; rfl, hcopied, hframe, ?_⟩
  have hcursor : s.lzd.sp + 3 = s.lzd.sp + 2 + 1 := by rw [BitVec.add_assoc]; rfl
  rw [heq, ← distanceOf_eq_ofNat, ← extendedLength_eq_ofNat, hcursor]
  rfl

end Sys2Proof.Machine
end

section
/-! SUPPORT. A control byte and its literals, from START to the end (43_lz_stream.md R190, R192, R196, R205). -/

namespace Sys2Proof.Machine

/-! ### A group of literals (R190, R192, R196) -/

/-- The engine runs, these bytes stand at `SP`, they are all that is owed, and each has a flag 1 of the control byte
`0xFF`. -/
structure Lzd.LiteralsAhead (bytes : List Byte) (l : Lzd) : Prop where
  busy : l.status.state = .busy
  ctl : l.ctl = 0xFF
  flags : bytes.length ≤ l.bi.toNat
  flagsLeft : l.bi.toNat ≤ 8
  owed : l.rem.toInt = bytes.length
  room : l.dp.toNat + bytes.length ≤ l.dstLen.toNat
  source : l.sp.toNat + bytes.length ≤ l.srcLen.toNat
  reads : ∀ j, j < bytes.length → l.src.read (l.sp.toNat + j) = bytes[j]?

theorem Lzd.LiteralsAhead.due {b : Byte} {bytes : List Byte} {l : Lzd} (h : l.LiteralsAhead (b :: bytes)) :
    l.due = .literal := by
  have hones : ∀ i, i < 8 → 0xFF / 2 ^ i % 2 = 1 := by decide
  have hflags := h.flags
  have hleft := h.flagsLeft
  rw [List.length_cons] at hflags
  have hctl : l.ctl.toNat = 0xFF := by rw [h.ctl]; rfl
  rw [Lzd.due_eq, if_neg (by omega), hctl, if_pos (hones _ (by omega))]

/-- A turn puts the next literal, and ends the operation after the last one. -/
theorem Lzd.LiteralsAhead.turn {b : Byte} {bytes : List Byte} {s : State} (h : s.lzd.LiteralsAhead (b :: bytes)) :
    ∃ m, lzdTurn s = .next { s with lzd := m } ∧ m.dst = s.lzd.dst.write s.lzd.dp.toNat b ∧
      m.sp.toNat = s.lzd.sp.toNat + 1 ∧ m.dp.toNat = s.lzd.dp.toNat + 1 ∧
      (bytes = [] → m.status = ⟨.done, .none⟩) ∧ (bytes ≠ [] → m.LiteralsAhead bytes) := by
  have hflags := h.flags
  have hleft := h.flagsLeft
  have howed := h.owed
  have hroom := h.room
  have hsource := h.source
  simp only [List.length_cons, Nat.cast_add, Nat.cast_one] at hflags howed hroom hsource
  have hturn : lzdTurn s = exec (.lit b) s := by
    refine lzdTurn_of_encode h.busy rfl h.due (fun j hj => ?_) (by simp only [encode, List.length_singleton]; omega)
    obtain rfl : j = 0 := by simpa [encode] using hj
    exact h.reads 0 (by simp)
  have hlit := Lzd.literal_of_lt (l := s.lzd.takeFlag) (by simp only [Lzd.takeFlag_sp, Lzd.takeFlag_srcLen]; omega)
    (by simp only [Lzd.takeFlag_dp, Lzd.takeFlag_dstLen]; omega) b
  have hsp : (s.lzd.sp + 1).toNat = s.lzd.sp.toNat + 1 := toNat_add_ofNat (n := 1) (len := s.lzd.srcLen) (by omega)
  have hdp : (s.lzd.dp + 1).toNat = s.lzd.dp.toNat + 1 := toNat_add_ofNat (n := 1) (len := s.lzd.dstLen) (by omega)
  have hbi : (s.lzd.bi - 1).toNat = s.lzd.bi.toNat - 1 := by rw [BitVec.toNat_sub]; simp; omega
  have hrem : (s.lzd.rem - 1).toInt = bytes.length := by rw [toInt_sub_one (by omega)]; omega
  refine ⟨_, by rw [hturn, exec_lit, hlit]; rfl, rfl, hsp, hdp, fun hlast => ?_, fun hmore => ?_⟩
  · simp only [Lzd.takeFlag_rem, hrem, hlast]
    rfl
  · have hpos := List.length_pos_of_ne_nil hmore
    have hgoes : ¬ (s.lzd.rem - 1).toInt ≤ 0 := by omega
    constructor
    case busy => simpa only [Lzd.takeFlag_rem, Lzd.takeFlag_status, hgoes, if_false] using h.busy
    case ctl => exact h.ctl
    case flags => simp only [Lzd.takeFlag_bi, hbi]; omega
    case flagsLeft => simp only [Lzd.takeFlag_bi, hbi]; omega
    case owed => exact hrem
    case room => simp only [Lzd.takeFlag_dp, hdp, Lzd.takeFlag_dstLen]; omega
    case source => simp only [Lzd.takeFlag_sp, hsp, Lzd.takeFlag_srcLen]; omega
    case reads =>
      intro j hj
      simp only [Lzd.takeFlag_sp, hsp, Lzd.takeFlag_src]
      simpa [Nat.add_assoc, Nat.add_comm 1 j] using h.reads (j + 1) (by simpa using hj)

/-- A run over the literals ahead copies them and ends. -/
theorem lzdTurns_literals {bytes : List Byte} {s : State} (h : s.lzd.LiteralsAhead bytes) (hne : bytes ≠ []) :
    ∃ u, turns .lzd bytes.length s = .next u ∧ u.lzd.status = ⟨.done, .none⟩ ∧
      u.lzd.sp.toNat = s.lzd.sp.toNat + bytes.length ∧
      (∀ a, a < s.lzd.dp.toNat → u.lzd.dst.read a = s.lzd.dst.read a) ∧
      ∀ j, j < bytes.length → u.lzd.dst.read (s.lzd.dp.toNat + j) = bytes[j]? := by
  induction bytes generalizing s with
  | nil => exact absurd rfl hne
  | cons b bytes ih =>
    obtain ⟨m, hturn, hdst, hsp, hdp, hlast, hmore⟩ := h.turn
    by_cases hend : bytes = []
    · subst hend
      refine ⟨{ s with lzd := m }, turns_succ_eq_next.mpr ⟨_, hturn, rfl⟩, hlast rfl, hsp, fun a ha => ?_,
        fun j hj => ?_⟩
      · simp only [hdst, Memory.read_write_of_ne _ _ (Nat.ne_of_lt ha)]
      · obtain rfl : j = 0 := by simpa using hj
        simp [hdst]
    · obtain ⟨u, hu, hdone, husp, hold, hnew⟩ := ih (s := { s with lzd := m }) (hmore hend) hend
      simp only [hsp, hdp] at husp hold hnew
      refine ⟨u, turns_succ_eq_next.mpr ⟨_, hturn, hu⟩, hdone, ?_, fun a ha => ?_, fun j hj => ?_⟩
      · rw [husp, List.length_cons]
        omega
      · rw [hold a (by omega), hdst, Memory.read_write_of_ne _ _ (Nat.ne_of_lt ha)]
      · cases j with
        | zero => simp [hold _ (Nat.lt_succ_self _), hdst]
        | succ j =>
          rw [Nat.add_comm j 1, ← Nat.add_assoc, hnew j (by simpa using hj), Nat.add_comm 1 j, List.getElem?_cons_succ]

/-- Settles O57: the control byte loads eight flags 1, and each literal takes one. -/
theorem literalGroupIsCopiedVerbatim : Obligations.LiteralGroupIsCopiedVerbatim := by
  intro s bytes hb hone height hout hdst hsrc hread
  have howed : s.lzd.outSize.toInt = bytes.length := by rw [BitVec.toInt_eq_toNat_cond]; omega
  have hstart : s.lzd.operation = s.lzd.start := by
    rcases Lzd.operation_cases hb with ⟨hwrong, -⟩ | ⟨-, hop⟩
    · rw [decompressSizesOk_eq_false_iff] at hwrong
      omega
    · rw [hop, Lzd.exitEarly_eq, Lzd.start_rem, if_neg (by omega)]
      rfl
  have hctrl : lzdTurn { s with lzd := s.lzd.start } =
      .next { s with lzd := s.lzd.start.readByte.loadFlags 0xFF } := by
    have hturn : lzdTurn { s with lzd := s.lzd.start } = exec (.ctrl 0xFF) { s with lzd := s.lzd.start } := by
      refine lzdTurn_of_encode rfl rfl rfl (fun j hj => ?_) (by simp [encode]; omega)
      obtain rfl : j = 0 := by simpa [encode] using hj
      exact hread 0 (by omega)
    rw [hturn]
    exact execCtrl_of_lt (by simp; omega) 0xFF
  have hahead : (s.lzd.start.readByte.loadFlags 0xFF).LiteralsAhead bytes := by
    constructor
    case busy => rfl
    case ctl => rfl
    case flags => exact height
    case flagsLeft => exact le_rfl
    case owed => exact howed
    case room => simp; omega
    case source => simp; omega
    case reads =>
      intro j hj
      simpa [Nat.add_comm 1 j] using hread (j + 1) (by omega)
  obtain ⟨u, hu, hdone, hsp, -, hbytes⟩ :=
    lzdTurns_literals (s := { s with lzd := s.lzd.start.readByte.loadFlags 0xFF }) hahead
      (List.ne_nil_of_length_pos hone)
  refine ⟨_, u, by rw [exec_decompress, hstart], turns_succ_eq_next.mpr ⟨_, hctrl, hu⟩, hdone, ?_, ?_⟩
  · rw [hsp]
    simp
    omega
  · simpa using hbytes

end Sys2Proof.Machine
end

section
/-! SUPPORT. What a run of engine LZD depends on (43_lz_stream.md R209): two engines that agree on the source, the
descriptor, the cursors and the window go on alike, and from START on the window is all of the result. -/

namespace Sys2Proof.Machine

/-! ### Engines that a run cannot tell apart (R209) -/

/-- `l'` has the job of `l` and stands at the same place of it: the same source below `SRC_LEN`, STATUS, cursors and
counters, the same flags if any are left, and the same window. With `full` every register is the same and only `DST` may
differ; without it the registers that each element writes before it reads them may differ, and so may the `DST` that an
error leaves free. -/
structure Lzd.Alike (full : Prop) (l l' : Lzd) : Prop where
  srcLen : l'.srcLen = l.srcLen
  dstLen : l'.dstLen = l.dstLen
  status : l'.status = l.status
  sp : l'.sp = l.sp
  dp : l'.dp = l.dp
  rem : l'.rem = l.rem
  bi : l'.bi = l.bi
  ctl : l.bi ≠ 0 → l'.ctl = l.ctl
  source : ∀ a, a < l.srcLen.toNat → l'.src.read a = l.src.read a
  window : full ∨ l.status.state ≠ .error → ∀ a, a < l.dp.toNat → l'.dst.read a = l.dst.read a
  registers : full → ∃ m, l' = { l with dst := m }

/-- The second outcome follows the first: a next state of the first is one of the second, and they are alike. -/
def Lzd.Follows (full : Prop) (o o' : Host.Outcome Lzd Fault Refusal) : Prop :=
  ∀ m, o = .next m → ∃ m', o' = .next m' ∧ m.Alike full m'

section
variable {full : Prop} {l l' : Lzd}

theorem Lzd.Follows.of_next (h : l.Alike full l') : Lzd.Follows full (.next l) (.next l') := by
  rintro m ⟨⟩
  exact ⟨l', rfl, h⟩

theorem Lzd.Follows.andThen {o o' : Host.Outcome Lzd Fault Refusal} {f f' : Lzd → Host.Outcome Lzd Fault Refusal}
    (ho : Lzd.Follows full o o')
    (hf : ∀ m m', o = .next m → o' = .next m' → m.Alike full m' → Lzd.Follows full (f m) (f' m')) :
    Lzd.Follows full (andThen o f) (andThen o' f') := by
  intro k hk
  obtain ⟨m, hm, hmk⟩ := andThen_eq_next.mp hk
  obtain ⟨m', hm', halike⟩ := ho m hm
  obtain ⟨k', hk', hkk⟩ := hf m m' hm hm' halike k hmk
  exact ⟨k', andThen_eq_next.mpr ⟨m', hm', hk'⟩, hkk⟩

/-! ### The moves of the small steps -/

theorem Lzd.Alike.takeFlag (h : l.Alike full l') (hbi : l.bi ≠ 0) : l.takeFlag.Alike full l'.takeFlag :=
  { h with
    bi := by rw [Lzd.takeFlag_bi, Lzd.takeFlag_bi, h.bi]
    ctl := fun _ => h.ctl hbi
    registers := fun he => by obtain ⟨m, rfl⟩ := h.registers he; exact ⟨m, rfl⟩ }

theorem Lzd.Alike.readByte (h : l.Alike full l') : l.readByte.Alike full l'.readByte :=
  { h with
    sp := by rw [Lzd.readByte_sp, Lzd.readByte_sp, h.sp]
    registers := fun he => by obtain ⟨m, rfl⟩ := h.registers he; exact ⟨m, rfl⟩ }

theorem Lzd.Alike.loadFlags (h : l.Alike full l') (flags : Byte) :
    (l.loadFlags flags).Alike full (l'.loadFlags flags) :=
  { h with
    bi := rfl
    ctl := fun _ => rfl
    registers := fun he => by obtain ⟨m, rfl⟩ := h.registers he; exact ⟨m, rfl⟩ }

theorem Lzd.Alike.loadToken (h : l.Alike full l') (t : Half) : (l.loadToken t).Alike full (l'.loadToken t) :=
  { h with
    sp := by rw [Lzd.loadToken_sp, Lzd.loadToken_sp, h.sp]
    registers := fun he => by obtain ⟨m, rfl⟩ := h.registers he; exact ⟨m, rfl⟩ }

theorem Lzd.Alike.loadLength (h : l.Alike full l') (v : BitVec 9) : (l.loadLength v).Alike full (l'.loadLength v) :=
  { h with registers := fun he => by obtain ⟨m, rfl⟩ := h.registers he; exact ⟨m, rfl⟩ }

theorem Lzd.Alike.loadExtra (h : l.Alike full l') (e : Byte) : (l.loadExtra e).Alike full (l'.loadExtra e) :=
  { h with
    sp := by rw [Lzd.loadExtra_sp, Lzd.loadExtra_sp, h.sp]
    registers := fun he => by obtain ⟨m, rfl⟩ := h.registers he; exact ⟨m, rfl⟩ }

theorem Lzd.Alike.loadCount (h : l.Alike full l') (n : Nat) : (l.loadCount n).Alike full (l'.loadCount n) :=
  { h with registers := fun he => by obtain ⟨m, rfl⟩ := h.registers he; exact ⟨m, rfl⟩ }

theorem Lzd.Alike.countDown (h : l.Alike full l') : l.countDown.Alike full l'.countDown :=
  { h with registers := fun he => by obtain ⟨m, rfl⟩ := h.registers he; exact ⟨m, rfl⟩ }

/-- An error: the free bytes it leaves are the same where all registers are, and are not compared elsewhere. -/
theorem Lzd.Alike.raise (h : l.Alike full l') (code : ErrCode) : (l.raise code).Alike full (l'.raise code) :=
  { h with
    status := rfl
    window := by
      rintro (he | hne) a ha
      · obtain ⟨m, rfl⟩ := h.registers he
        have hsame := h.window (.inl he) a ha
        cases code with
        | none | invalidBufferSize => exact hsame
        | truncatedSource => simp only [Lzd.raise_dst, Lzd.read_dstAfterError _ a (.inl rfl), hsame]
        | invalidBackReference => simp only [Lzd.raise_dst, Lzd.read_dstAfterError _ a (.inr rfl), hsame]
      · exact absurd rfl hne
    registers := fun he => by obtain ⟨m, rfl⟩ := h.registers he; exact ⟨_, rfl⟩ }

theorem Lzd.Alike.exitEarly (h : l.Alike full l') (hlive : l.status.state ≠ .error) :
    l.exitEarly.Alike full l'.exitEarly := by
  rw [Lzd.exitEarly_eq, Lzd.exitEarly_eq]
  exact { h with
    status := by simp only [h.rem, h.status]
    window := fun _ => h.window (.inr hlive)
    registers := fun he => by obtain ⟨m, rfl⟩ := h.registers he; exact ⟨m, rfl⟩ }

theorem Lzd.follows_put (h : l.Alike full l') (v : Byte) : Lzd.Follows full (l.put v) (l'.put v) := by
  intro m hm
  obtain ⟨hroom, rfl⟩ := Lzd.put_eq_next.mp hm
  have hdp : (l.dp + 1).toNat = l.dp.toNat + 1 := toNat_add_ofNat hroom
  refine ⟨_, Lzd.put_eq_next.mpr ⟨by rwa [h.dp, h.dstLen], rfl⟩, { h with
    dp := by simp only [h.dp]
    rem := by simp only [h.rem]
    window := fun hcompared a ha => ?_
    registers := fun he => by obtain ⟨m, rfl⟩ := h.registers he; exact ⟨_, rfl⟩ }⟩
  simp only [hdp] at ha
  simp only [h.dp, Memory.read_write]
  split
  · rfl
  · exact h.window hcompared a (by omega)

theorem Lzd.put_status {m : Lzd} {v : Byte} (h : l.put v = .next m) : m.status = l.status := by
  obtain ⟨-, rfl⟩ := Lzd.put_eq_next.mp h
  rfl

theorem Lzd.copyBytes_status {m : Lzd} {n : Nat} (h : l.copyBytes n = .next m) : m.status = l.status := by
  obtain ⟨-, heq, -⟩ := Lzd.copyBytes_eq_next h l.dstLen.isLt
  rw [heq]

/-- A copy from inside the window reads only bytes that are the same. -/
theorem Lzd.follows_copyBytes (n : Nat) (h : l.Alike full l') (hlive : l.status.state ≠ .error)
    (hsame : l'.dist = l.dist) (hdist : 0 < l.dist.toNat) (hbehind : l.dist.toNat ≤ l.dp.toNat) :
    Lzd.Follows full (l.copyBytes n) (l'.copyBytes n) := by
  induction n generalizing l l' with
  | zero => exact .of_next h
  | succ n ih =>
    have hread : l'.dst.read (l'.dp.toNat - l'.dist.toNat) = l.dst.read (l.dp.toNat - l.dist.toNat) := by
      rw [h.dp, hsame]
      exact h.window (.inr hlive) _ (by omega)
    rw [Lzd.copyBytes, Lzd.copyBytes, hread]
    split
    · intro m hm
      cases hm
    · refine (Lzd.follows_put h _).andThen fun m m' hm hm' halike => ?_
      obtain ⟨hroom, rfl⟩ := Lzd.put_eq_next.mp hm
      obtain ⟨-, rfl⟩ := Lzd.put_eq_next.mp hm'
      have hdp : (l.dp + 1).toNat = l.dp.toNat + 1 := toNat_add_ofNat hroom
      exact ih halike.countDown hlive hsame hdist (by simp only [Lzd.countDown_dist, Lzd.countDown_dp, hdp]; omega)

theorem Lzd.follows_backReference (h : l.Alike full l') (hlive : l.status.state ≠ .error) (hsame : l'.dist = l.dist)
    (hlen : l'.len = l.len) (hdist : 0 < l.dist.toNat) : Lzd.Follows full l.backReference l'.backReference := by
  have hcount : l'.copyCount = l.copyCount := by rw [Lzd.copyCount, Lzd.copyCount, hlen, h.rem]
  unfold Lzd.backReference
  rw [h.dp, hsame, hcount]
  split
  · exact .of_next (h.raise _)
  · next hbehind =>
    refine (Lzd.follows_copyBytes _ (h.loadCount _) hlive hsame hdist (Nat.not_lt.mp hbehind)).andThen
      fun m m' hm _ halike => .of_next (halike.exitEarly ?_)
    rwa [Lzd.copyBytes_status hm]

/-! ### The elements -/

theorem Lzd.follows_ctrl (h : l.Alike full l') (flags : Byte) :
    Lzd.Follows full
      (.next (if l.srcLen.toNat ≤ l.sp.toNat then l.raise .truncatedSource else l.readByte.loadFlags flags))
      (.next (if l'.srcLen.toNat ≤ l'.sp.toNat then l'.raise .truncatedSource else l'.readByte.loadFlags flags)) := by
  rw [h.srcLen, h.sp]
  split
  · exact .of_next (h.raise _)
  · exact .of_next (h.readByte.loadFlags flags)

theorem Lzd.follows_literal (h : l.Alike full l') (hlive : l.status.state ≠ .error) (b : Byte) :
    Lzd.Follows full (l.literal b) (l'.literal b) := by
  unfold Lzd.literal
  rw [h.srcLen, h.sp]
  split
  · exact .of_next (h.raise _)
  · refine (Lzd.follows_put h.readByte b).andThen fun m m' hm _ halike => .of_next (halike.exitEarly ?_)
    rwa [Lzd.put_status hm]

theorem Lzd.follows_shortReference (h : l.Alike full l') (hlive : l.status.state ≠ .error) (n : BitVec 4)
    (d : BitVec 12) : Lzd.Follows full (l.shortReference n d) (l'.shortReference n d) := by
  unfold Lzd.shortReference
  rw [h.srcLen, h.sp]
  split
  · exact .of_next (h.raise _)
  · exact Lzd.follows_backReference ((h.loadToken _).loadLength _) hlive rfl rfl (by simp [distanceOf_toNat])

theorem Lzd.follows_extendedReference (h : l.Alike full l') (hlive : l.status.state ≠ .error) (d : BitVec 12)
    (e : Byte) : Lzd.Follows full (l.extendedReference d e) (l'.extendedReference d e) := by
  have htoken := h.loadToken (tokenOf 0 d)
  unfold Lzd.extendedReference
  rw [h.srcLen, h.sp, htoken.sp]
  split_ifs
  · exact .of_next (h.raise _)
  · exact .of_next (htoken.raise _)
  · exact Lzd.follows_backReference (htoken.loadExtra e) hlive rfl rfl (by simp [distanceOf_toNat])

/-! ### What is fetched -/

/-- A fetch reads below `len` only. -/
theorem readSource_congr {m m' : Memory} {len : Nat} (h : ∀ a, a < len → m'.read a = m.read a) (n a : Nat) :
    readSource m' len n a = readSource m len n a := by
  induction n generalizing a with
  | zero => rfl
  | succ n ih =>
    rw [readSource, readSource, ih]
    split
    · rfl
    · rw [h a (by omega)]

theorem Lzd.Alike.due (h : l.Alike full l') : l'.due = l.due := by
  unfold Lzd.due
  rw [h.bi]
  split
  · rfl
  · next hbi => rw [Lzd.flag, Lzd.flag, h.bi, h.ctl hbi]

theorem Lzd.Alike.fetch (h : l.Alike full l') : l'.fetch = l.fetch := by
  unfold Lzd.fetch
  rw [h.due, h.srcLen, h.sp]
  simp only [readSource_congr h.source]

theorem Lzd.Alike.starve (h : l.Alike full l') (bytes : List Byte) :
    (l.starve bytes).Alike full (l'.starve bytes) := by
  unfold Lzd.starve
  rw [h.due]
  rcases l.due_cases with ⟨-, hdue⟩ | ⟨hbi, hdue | hdue⟩ <;> rw [hdue]
  · exact h.raise _
  · exact (h.takeFlag hbi).raise _
  · split
    · next hc => cases hc
    · exact ((h.takeFlag hbi).loadToken _).raise _
    · exact (h.takeFlag hbi).raise _

end

/-! ### Turns -/

/-- The element due does alike to engines that are alike. -/
theorem exec_due_follows {full : Prop} {s s' t : State} {i : Instr} (h : s.lzd.Alike full s'.lzd)
    (hb : s.lzd.status.state = .busy) (hi : i.context = s.lzd.due) (ht : exec i s = .next t) :
    ∃ l, exec i s' = .next { s' with lzd := l } ∧ t.lzd.Alike full l := by
  have hlive : s.lzd.status.state ≠ .error := by rw [hb]; decide
  have hlift : ∀ o o' : Host.Outcome Lzd Fault Refusal, exec i s = onLzd s o → exec i s' = onLzd s' o' →
      Lzd.Follows full o o' → ∃ l, exec i s' = .next { s' with lzd := l } ∧ t.lzd.Alike full l := by
    intro o o' ho ho' hfollows
    obtain ⟨m, hm, rfl⟩ := onLzd_eq_next.mp (ho ▸ ht)
    obtain ⟨m', hm', halike⟩ := hfollows m hm
    exact ⟨m', ho'.trans (onLzd_eq_next.mpr ⟨m', hm', rfl⟩), halike⟩
  rcases s.lzd.due_cases with ⟨-, hdue⟩ | ⟨hbi, hdue | hdue⟩ <;> rw [hdue] at hi
  · match i, hi with
    | .ctrl flags, _ => exact hlift _ _ rfl rfl (Lzd.follows_ctrl h flags)
  · match i, hi with
    | .lit b, _ => exact hlift _ _ rfl rfl (Lzd.follows_literal (h.takeFlag hbi) hlive b)
  · match i, hi with
    | .ref n d, _ => exact hlift _ _ rfl rfl (Lzd.follows_shortReference (h.takeFlag hbi) hlive n d)
    | .refx d e, _ => exact hlift _ _ rfl rfl (Lzd.follows_extendedReference (h.takeFlag hbi) hlive d e)

theorem lzdTurn_follows {full : Prop} {s s' t : State} (h : s.lzd.Alike full s'.lzd) (ht : lzdTurn s = .next t) :
    ∃ l, lzdTurn s' = .next { s' with lzd := l } ∧ t.lzd.Alike full l := by
  rcases lzdTurn_eq_next.mp ht with ⟨hidle, rfl⟩ | ⟨hb, bytes, hf, helement⟩
  · exact ⟨s'.lzd, lzdTurn_eq_next.mpr (.inl ⟨by rwa [h.status], rfl⟩), h⟩
  · have hb' : s'.lzd.status.busy = true := by rwa [h.status]
    have hf' : s'.lzd.fetch = .ok bytes := h.fetch.trans hf
    rcases helement with ⟨i, rest, hd, hx⟩ | ⟨r, hd, rfl⟩
    · obtain ⟨l, hl, halike⟩ := exec_due_follows h ((Status.busy_iff _).mp hb) (context_of_decode hd) hx
      exact ⟨l, lzdTurn_eq_next.mpr (.inr ⟨hb', bytes, hf', .inl ⟨i, rest, by rwa [h.due], hl⟩⟩), halike⟩
    · exact ⟨_, lzdTurn_eq_next.mpr (.inr ⟨hb', bytes, hf', .inr ⟨r, by rwa [h.due], rfl⟩⟩), h.starve bytes⟩

/-- Engines that are alike stay alike through any run. -/
theorem lzdTurns_follow {full : Prop} {n : Nat} {s s' t : State} (h : s.lzd.Alike full s'.lzd)
    (ht : turns .lzd n s = .next t) :
    ∃ l, turns .lzd n s' = .next { s' with lzd := l } ∧ t.lzd.Alike full l := by
  induction n generalizing s s' with
  | zero => cases ht; exact ⟨s'.lzd, rfl, h⟩
  | succ n ih =>
    obtain ⟨u, hu, hn⟩ := turns_succ_eq_next.mp ht
    obtain ⟨l, hl, halike⟩ := lzdTurn_follows h hu
    obtain ⟨l', hl', halike'⟩ := ih (s' := { s' with lzd := l }) halike hn
    exact ⟨l', turns_succ_eq_next.mpr ⟨_, hl, hl'⟩, halike'⟩

/-- Settles O53: the two engines hold the same registers and agree on the window. -/
theorem oldDestinationHasNoInfluence : Obligations.OldDestinationHasNoInfluence := by
  intro n s t m hwin ht
  have halike : s.lzd.Alike True { s.lzd with dst := m } :=
    ⟨rfl, rfl, rfl, rfl, rfl, rfl, rfl, fun _ => rfl, fun _ _ => rfl, fun _ => hwin, fun _ => ⟨m, rfl⟩⟩
  obtain ⟨l, hl, hend⟩ := lzdTurns_follow (s' := { s with lzd := { s.lzd with dst := m } }) halike ht
  obtain ⟨m', rfl⟩ := hend.registers trivial
  refine ⟨m', ?_, hend.window (.inl trivial)⟩
  rw [hl, lzdTurns_keep_rest ht]

/-! ### The result of a run from START (R209) -/

/-- What is written and what is owed make up `DST_LEN` (R41), and an operation that is done owes nothing. -/
structure Lzd.Balanced (l : Lzd) : Prop where
  sum : (l.dp.toNat : Int) + l.rem.toInt = l.dstLen.toNat
  owed : 0 ≤ l.rem.toInt
  busy : l.status.state = .busy → 0 < l.rem.toInt
  done : l.status.state = .done → l.rem.toInt = 0

/-- The exit test says whether the operation goes on. -/
theorem Lzd.balanced_exitEarly {m : Lzd} (hb : m.status.state = .busy)
    (hsum : (m.dp.toNat : Int) + m.rem.toInt = m.dstLen.toNat) (howed : 0 ≤ m.rem.toInt) : m.exitEarly.Balanced := by
  rw [Lzd.exitEarly_eq]
  by_cases hexit : m.rem.toInt ≤ 0
  · simp only [if_pos hexit]
    exact ⟨hsum, howed, fun h => (by cases h), fun _ => le_antisymm hexit howed⟩
  · simp only [if_neg hexit]
    refine ⟨hsum, howed, fun _ => Int.not_le.mp hexit, fun h => ?_⟩
    rw [hb] at h
    cases h

/-- Taking no more than is owed keeps the balance. -/
theorem Lzd.Balanced.exitEarly {k m : Lzd} {n : Nat} (hk : k.Balanced) (hb : k.status.state = .busy)
    (hn : (n : Int) ≤ k.rem.toInt) (hdstLen : m.dstLen = k.dstLen) (hstatus : m.status = k.status)
    (hdp : m.dp = k.dp + BitVec.ofNat 32 n) (hrem : m.rem = k.rem - BitVec.ofNat 32 n) : m.exitEarly.Balanced := by
  have hsum := hk.sum
  have hrem' : m.rem.toInt = k.rem.toInt - n := by rw [hrem, toInt_sub_ofNat hn]
  have hdp' : m.dp.toNat = k.dp.toNat + n := by rw [hdp, toNat_add_ofNat (len := k.dstLen) (by omega)]
  exact Lzd.balanced_exitEarly (by rw [hstatus, hb]) (by rw [hdp', hrem', hdstLen]; omega) (by omega)

theorem Lzd.Advances.balanced {k l : Lzd} (h : k.Advances l) (hk : k.Balanced) (hb : k.status.state = .busy) :
    l.Balanced := by
  have howed := hk.busy hb
  cases h with
  | raised => exact ⟨hk.sum, hk.owed, fun h => (by cases h), fun h => (by cases h)⟩
  | loaded => exact hk
  | put h =>
    obtain ⟨-, rfl⟩ := Lzd.put_eq_next.mp h
    exact hk.exitEarly (n := 1) hb (by omega) rfl rfl rfl rfl
  | copied h =>
    obtain ⟨-, heq, -⟩ := Lzd.copyBytes_eq_next h k.dstLen.isLt
    rw [heq]
    exact hk.exitEarly hb (Lzd.copyCount_le hk.owed) rfl rfl rfl rfl

theorem balanced_of_lzdTurn {s t : State} (hs : s.lzd.Balanced) (h : lzdTurn s = .next t) : t.lzd.Balanced := by
  by_cases hb : s.lzd.status.state = .busy
  · obtain ⟨k, l, hk, hkl, rfl⟩ := lzdTurn_busy hb h
    obtain ⟨_, _, _, _, _, _, _, rfl⟩ := hk.frame
    exact hkl.balanced ⟨hs.sum, hs.owed, hs.busy, hs.done⟩ hb
  · rw [lzdTurn_idle hb] at h
    cases h
    exact hs

theorem balanced_of_lzdTurns {n : Nat} {s t : State} (hs : s.lzd.Balanced) (h : turns .lzd n s = .next t) :
    t.lzd.Balanced := by
  induction n generalizing s with
  | zero => cases h; exact hs
  | succ n ih =>
    obtain ⟨u, hu, hn⟩ := turns_succ_eq_next.mp h
    exact ih (balanced_of_lzdTurn hs hu) hn

theorem sameJob_of_lzdTurns {n : Nat} {s t : State} (h : turns .lzd n s = .next t) : s.lzd.SameJob t.lzd := by
  induction n generalizing s with
  | zero => cases h; exact ⟨rfl, rfl, rfl, rfl, rfl, rfl⟩
  | succ n ih =>
    obtain ⟨u, hu, hn⟩ := turns_succ_eq_next.mp h
    exact (sameJob_of_lzdTurn hu).trans (ih hn)

/-- Any number of turns of an engine at rest do nothing (R261). -/
theorem lzdTurns_idle {s : State} (hb : s.lzd.status.state ≠ .busy) (n : Nat) : turns .lzd n s = .next s := by
  induction n with
  | zero => rfl
  | succ n ih => exact turns_succ_eq_next.mpr ⟨s, lzdTurn_idle hb, ih⟩

/-- A START with the same inputs leaves engines that are alike: `DP` and `BI` are 0, so neither the old destination nor
the free flags count. -/
theorem Lzd.alike_operation {l l' : Lzd} (hb : l.status.state ≠ .busy) (hb' : l'.status.state ≠ .busy)
    (hout : l'.outSize = l.outSize) (hsrcLen : l'.srcLen = l.srcLen) (hdstLen : l'.dstLen = l.dstLen)
    (hsource : ∀ a, a < l.srcLen.toNat → l'.src.read a = l.src.read a) :
    l.operation.Alike False l'.operation := by
  have hstart : l.start.Alike False l'.start :=
    ⟨hsrcLen, hdstLen, rfl, rfl, rfl, hout, rfl, fun h => absurd rfl h, hsource,
      fun _ a ha => absurd ha (Nat.not_lt_zero a), False.elim⟩
  rcases Lzd.operation_cases hb with ⟨hok, h⟩ | ⟨hok, h⟩ <;>
    rcases Lzd.operation_cases hb' with ⟨hok', h'⟩ | ⟨hok', h'⟩ <;> rw [hout, hdstLen, hok] at hok'
  · rw [h, h']
    exact hstart.raise _
  · cases hok'
  · cases hok'
  · rw [h, h']
    exact hstart.exitEarly (by simp [Status.started])

/-- A run from START that is done has written all of `DST` below `DST_LEN`. -/
theorem dstLen_le_of_done {n : Nat} {s u : State} (hb : s.lzd.status.state ≠ .busy)
    (h : turns .lzd n { s with lzd := s.lzd.operation } = .next u) (hdone : u.lzd.status.state = .done) :
    s.lzd.dstLen.toNat ≤ u.lzd.dp.toNat := by
  rcases Lzd.operation_cases hb with ⟨-, hop⟩ | ⟨hok, hop⟩ <;> rw [hop] at h
  · rw [lzdTurns_idle (by simp [Status.raised])] at h
    cases h
    cases hdone
  · simp only [decompressSizesOk, Bool.and_eq_true, decide_eq_true_eq] at hok
    obtain ⟨howed, hlen⟩ := hok
    have hstart : s.lzd.start.exitEarly.Balanced :=
      Lzd.balanced_exitEarly rfl (by rw [Lzd.start_dp, Lzd.start_rem, Lzd.start_dstLen]; simp; omega) howed
    have hend := balanced_of_lzdTurns (s := { s with lzd := s.lzd.start.exitEarly }) hstart h
    have hsum := hend.sum
    rw [hend.done hdone, (sameJob_of_lzdTurns h).dstLen] at hsum
    simp only [Lzd.exitEarly_dstLen, Lzd.start_dstLen] at hsum
    omega

/-- Settles O54: the engines are alike from START on, and a run that is done has the whole result in its window. -/
theorem resultIsAFunctionOfTheInputs : Obligations.ResultIsAFunctionOfTheInputs := by
  intro n s s' t t' u hb hb' hout hsrcLen hdstLen hsource ht ht' hu
  rw [exec_decompress] at ht ht'
  cases ht
  cases ht'
  have hstart := Lzd.alike_operation hb hb' hout hsrcLen hdstLen hsource
  obtain ⟨l, hl, hend⟩ := lzdTurns_follow (s' := { s' with lzd := s'.lzd.operation }) hstart hu
  refine ⟨_, hl, hend.status, hend.sp, fun hdone a ha => ?_⟩
  exact hend.window (.inr (by rw [hdone]; decide)) a (ha.trans_le (dstLen_le_of_done hb hu hdone))

end Sys2Proof.Machine
end

section
/-! SUPPORT. A run of engine LZD that does not end in an error reads its source below its final `SP` only
(43_lz_stream.md R206; 70_reset_and_hazards.md R265): with another source that agrees there, it is the same run. -/

namespace Sys2Proof.Machine

/-! ### Another source -/

/-- The engine with this source of this length. -/
def Lzd.withSource (src : Memory) (srcLen : Word) (l : Lzd) : Lzd := { l with src := src, srcLen := srcLen }

section
variable {l m : Lzd} (src : Memory) (srcLen : Word)

theorem Lzd.put_withSource {v : Byte} (h : l.put v = .next m) :
    (l.withSource src srcLen).put v = .next (m.withSource src srcLen) := by
  obtain ⟨hroom, rfl⟩ := Lzd.put_eq_next.mp h
  exact Lzd.put_eq_next.mpr ⟨hroom, rfl⟩

theorem Lzd.copyBytes_withSource {n : Nat} (h : l.copyBytes n = .next m) :
    (l.withSource src srcLen).copyBytes n = .next (m.withSource src srcLen) := by
  induction n generalizing l with
  | zero => cases h; rfl
  | succ n ih =>
    obtain ⟨v, hv, hroom, hrest⟩ := Lzd.copyBytes_succ_eq_next.mp h
    exact Lzd.copyBytes_succ_eq_next.mpr ⟨v, hv, hroom, ih hrest⟩

theorem Lzd.exitEarly_withSource (l : Lzd) :
    (l.withSource src srcLen).exitEarly = l.exitEarly.withSource src srcLen := by
  rw [Lzd.exitEarly_eq, Lzd.exitEarly_eq]
  rfl

theorem Lzd.backReference_withSource (h : l.backReference = .next m) :
    (l.withSource src srcLen).backReference = .next (m.withSource src srcLen) := by
  rcases Lzd.backReference_eq_next.mp h with ⟨hbad, rfl⟩ | ⟨hbehind, k, hk, rfl⟩
  · exact Lzd.backReference_eq_next.mpr (.inl ⟨hbad, rfl⟩)
  · exact Lzd.backReference_eq_next.mpr
      (.inr ⟨hbehind, _, Lzd.copyBytes_withSource src srcLen hk, (k.exitEarly_withSource src srcLen).symm⟩)

theorem Lzd.literal_withSource {b : Byte} (h : l.literal b = .next m) (hlen : l.sp.toNat < l.srcLen.toNat)
    (hlen' : l.sp.toNat < srcLen.toNat) :
    (l.withSource src srcLen).literal b = .next (m.withSource src srcLen) := by
  rcases Lzd.literal_eq_next.mp h with ⟨hshort, -⟩ | ⟨-, k, hk, rfl⟩
  · omega
  · exact Lzd.literal_eq_next.mpr
      (.inr ⟨hlen', _, Lzd.put_withSource src srcLen hk, (k.exitEarly_withSource src srcLen).symm⟩)

end

/-! ### The element due, its bytes there -/

theorem onLzd_literal_withSource {s t : State} {b : Byte} (ht : onLzd s (s.lzd.takeFlag.literal b) = .next t)
    (hlen : s.lzd.sp.toNat < s.lzd.srcLen.toNat) :
    t.lzd.sp = s.lzd.sp + 1 ∧ ∀ src srcLen, s.lzd.sp.toNat < srcLen.toNat →
      onLzd { s with lzd := s.lzd.withSource src srcLen } ((s.lzd.withSource src srcLen).takeFlag.literal b) =
        .next { t with lzd := t.lzd.withSource src srcLen } := by
  obtain ⟨m, hm, rfl⟩ := onLzd_eq_next.mp ht
  refine ⟨?_, fun src srcLen hlen' => onLzd_eq_next.mpr ⟨_, Lzd.literal_withSource src srcLen hm hlen hlen', rfl⟩⟩
  rcases Lzd.literal_eq_next.mp hm with ⟨hshort, -⟩ | ⟨-, k, hk, rfl⟩
  · exact absurd hlen (Nat.not_lt.mpr hshort)
  · obtain ⟨-, rfl⟩ := Lzd.put_eq_next.mp hk
    simp

theorem onLzd_backReference_withSource {s t : State} {k : Lzd} (ht : onLzd s k.backReference = .next t) :
    t.lzd.sp = k.sp ∧ ∀ src srcLen,
      onLzd { s with lzd := s.lzd.withSource src srcLen } (k.withSource src srcLen).backReference =
        .next { t with lzd := t.lzd.withSource src srcLen } := by
  obtain ⟨m, hm, rfl⟩ := onLzd_eq_next.mp ht
  obtain ⟨-, hsp, -⟩ := (Lzd.advances_of_backReference hm).frame
  exact ⟨hsp, fun src srcLen => onLzd_eq_next.mpr ⟨_, Lzd.backReference_withSource src srcLen hm, rfl⟩⟩

/-- An element whose bytes are there moves `SP` by their number, and does the same with another source that has them. -/
theorem exec_due_withSource {s t : State} {i : Instr} (hi : i.context = s.lzd.due)
    (hlen : s.lzd.sp.toNat + (encode i).length ≤ s.lzd.srcLen.toNat) (ht : exec i s = .next t) :
    t.lzd.sp.toNat = s.lzd.sp.toNat + (encode i).length ∧
    ∀ src srcLen, s.lzd.sp.toNat + (encode i).length ≤ srcLen.toNat →
      exec i { s with lzd := s.lzd.withSource src srcLen } = .next { t with lzd := t.lzd.withSource src srcLen } := by
  have hmove := toNat_add_ofNat hlen
  rcases s.lzd.due_cases with ⟨-, hdue⟩ | ⟨-, hdue | hdue⟩ <;> rw [hdue] at hi
  · match i, hi with
    | .ctrl flags, _ =>
      rw [exec_ctrl, execCtrl_of_lt hlen] at ht
      cases ht
      exact ⟨hmove, fun src srcLen hlen' =>
        execCtrl_of_lt (s := { s with lzd := s.lzd.withSource src srcLen }) hlen' flags⟩
  · match i, hi with
    | .lit b, _ =>
      obtain ⟨hsp, hsame⟩ := onLzd_literal_withSource ht hlen
      exact ⟨by rw [hsp]; exact hmove, hsame⟩
  · match i, hi with
    | .ref n d, _ =>
      rw [exec_ref_of_lt hlen] at ht
      obtain ⟨hsp, hsame⟩ := onLzd_backReference_withSource ht
      refine ⟨by rw [hsp]; exact hmove, fun src srcLen hlen' => ?_⟩
      rw [exec_ref_of_lt (s := { s with lzd := s.lzd.withSource src srcLen }) hlen']
      exact hsame src srcLen
    | .refx d e, _ =>
      rw [exec_refx_of_lt hlen] at ht
      obtain ⟨hsp, hsame⟩ := onLzd_backReference_withSource ht
      have hcursor : s.lzd.sp + 2 + 1 = s.lzd.sp + 3 := by rw [BitVec.add_assoc]; rfl
      refine ⟨by rw [hsp, Lzd.loadExtra_sp, Lzd.loadToken_sp, Lzd.takeFlag_sp, hcursor]; exact hmove,
        fun src srcLen hlen' => ?_⟩
      rw [exec_refx_of_lt (s := { s with lzd := s.lzd.withSource src srcLen }) hlen']
      exact hsame src srcLen

/-! ### A turn that raises nothing -/

/-- The bytes fetched are those at `SP`, none of them at or beyond `SRC_LEN`. -/
theorem Lzd.fetch_ok {l : Lzd} {bytes : List Byte} (h : l.fetch = .ok bytes) :
    bytes.length ≤ l.srcLen.toNat - l.sp.toNat ∧
    ∀ j, j < bytes.length → l.src.read (l.sp.toNat + j) = bytes[j]? := by
  have hread : ∀ {n}, readSource l.src l.srcLen.toNat n l.sp.toNat = .ok bytes →
      bytes.length ≤ l.srcLen.toNat - l.sp.toNat ∧
      ∀ j, j < bytes.length → l.src.read (l.sp.toNat + j) = bytes[j]? := by
    intro n hn
    obtain ⟨hlen, hbytes⟩ := readSource_ok hn
    exact ⟨by omega, hbytes⟩
  unfold Lzd.fetch at h
  split at h
  · split at h
    · cases h
      simp
    · split at h
      · cases h
      · next b0 b1 htoken =>
        split at h
        · exact hread h
        · cases h
          exact hread htoken
      · next htoken => cases h; exact hread htoken
  · exact hread h

theorem Lzd.decode_due_nil (l : Lzd) : ∃ r, decode l.due [] = .error r := by
  rcases l.due_cases with ⟨-, hdue⟩ | ⟨-, hdue | hdue⟩ <;> rw [hdue] <;> exact ⟨_, rfl⟩

/-- A turn of a BUSY engine that ends in no error runs the element whose bytes stand at `SP`, all of them there. -/
theorem lzdTurn_element {s t : State} (hb : s.lzd.status.state = .busy) (h : lzdTurn s = .next t)
    (hlive : t.lzd.status.state ≠ .error) :
    ∃ i, i.WellFormed ∧ i.context = s.lzd.due ∧
      (∀ j, j < (encode i).length → s.lzd.src.read (s.lzd.sp.toNat + j) = (encode i)[j]?) ∧
      s.lzd.sp.toNat + (encode i).length ≤ s.lzd.srcLen.toNat ∧ exec i s = .next t := by
  rcases lzdTurn_eq_next.mp h with ⟨hidle, -⟩ | ⟨-, bytes, hf, ⟨i, rest, hd, hx⟩ | ⟨r, hd, rfl⟩⟩
  · simp [Status.busy, hb] at hidle
  · have hstream : s.lzd.due ≠ .commandBtd := by
      intro hc
      have := s.lzd.engine_due
      rw [hc] at this
      cases this
    obtain ⟨hwf, hctx, hbytes⟩ := decodingDropsNoByte _ _ _ _ hstream hd
    obtain ⟨hlen, hread⟩ := Lzd.fetch_ok hf
    have hsome : bytes ≠ [] := by
      rintro rfl
      obtain ⟨r, hr⟩ := s.lzd.decode_due_nil
      rw [hr] at hd
      cases hd
    have hpos := List.length_pos_of_ne_nil hsome
    have hcount : bytes.length = (encode i).length + rest.length := by rw [← hbytes, List.length_append]
    refine ⟨i, hwf, hctx, fun j hj => ?_, by omega, hx⟩
    rw [hread j (by omega), ← hbytes, List.getElem?_append_left hj]
  · exact absurd (Lzd.starve_ends bytes s.lzd) hlive

/-- A turn that ends in no error does not move `SP` back, and is the same with another source that agrees below the new
`SP` and is no shorter. -/
theorem lzdTurn_withSource {s t : State} (h : lzdTurn s = .next t) (hlive : t.lzd.status.state ≠ .error) :
    s.lzd.sp.toNat ≤ t.lzd.sp.toNat ∧
    ∀ src srcLen, t.lzd.sp.toNat ≤ srcLen.toNat → (∀ a, a < t.lzd.sp.toNat → src.read a = s.lzd.src.read a) →
      lzdTurn { s with lzd := s.lzd.withSource src srcLen } = .next { t with lzd := t.lzd.withSource src srcLen } := by
  by_cases hb : s.lzd.status.state = .busy
  · obtain ⟨i, hwf, hctx, hread, hlen, hx⟩ := lzdTurn_element hb h hlive
    obtain ⟨hsp, hsame⟩ := exec_due_withSource hctx hlen hx
    refine ⟨by omega, fun src srcLen hlen' hagree => ?_⟩
    rw [hsp] at hlen' hagree
    have hturn : lzdTurn { s with lzd := s.lzd.withSource src srcLen } =
        exec i { s with lzd := s.lzd.withSource src srcLen } :=
      lzdTurn_of_encode hb hwf hctx.symm (fun j hj => (hagree _ (Nat.add_lt_add_left hj _)).trans (hread j hj)) hlen'
    rw [hturn, hsame src srcLen hlen']
  · rw [lzdTurn_idle hb] at h
    cases h
    exact ⟨le_rfl, fun src srcLen _ _ => lzdTurn_idle hb⟩

/-! ### A run that raises nothing -/

/-- A run that ends in no error begins in none. -/
theorem lzdTurns_live {n : Nat} {s t : State} (h : turns .lzd n s = .next t) (hlive : t.lzd.status.state ≠ .error) :
    s.lzd.status.state ≠ .error := by
  intro herror
  rw [lzdTurns_idle (by rw [herror]; decide)] at h
  cases h
  exact hlive herror

theorem lzdTurns_cursor {n : Nat} {s t : State} (h : turns .lzd n s = .next t)
    (hlive : t.lzd.status.state ≠ .error) : s.lzd.sp.toNat ≤ t.lzd.sp.toNat := by
  induction n generalizing s with
  | zero => cases h; exact le_rfl
  | succ n ih =>
    obtain ⟨u, hu, hn⟩ := turns_succ_eq_next.mp h
    obtain ⟨hup, -⟩ := lzdTurn_withSource hu (lzdTurns_live hn hlive)
    exact hup.trans (ih hn)

theorem lzdTurns_withSource {n : Nat} {s t : State} {src : Memory} {srcLen : Word} (h : turns .lzd n s = .next t)
    (hlive : t.lzd.status.state ≠ .error) (hlen : t.lzd.sp.toNat ≤ srcLen.toNat)
    (hagree : ∀ a, a < t.lzd.sp.toNat → src.read a = s.lzd.src.read a) :
    turns .lzd n { s with lzd := s.lzd.withSource src srcLen } =
      .next { t with lzd := t.lzd.withSource src srcLen } := by
  induction n generalizing s with
  | zero => cases h; rfl
  | succ n ih =>
    obtain ⟨u, hu, hn⟩ := turns_succ_eq_next.mp h
    have hcursor := lzdTurns_cursor hn hlive
    obtain ⟨-, hsame⟩ := lzdTurn_withSource hu (lzdTurns_live hn hlive)
    have hfirst := hsame src srcLen (hcursor.trans hlen) fun a ha => hagree a (ha.trans_le hcursor)
    refine turns_succ_eq_next.mpr ⟨_, hfirst, ih hn fun a ha => ?_⟩
    rw [(sameJob_of_lzdTurn hu).src, hagree a ha]

/-- Settles O56: a run that is done raised nothing. -/
theorem trailingSourceBytesAreIgnored : Obligations.TrailingSourceBytesAreIgnored := by
  intro n s t src srcLen h hdone hlen hagree
  exact lzdTurns_withSource h (by rw [hdone]; decide) hlen hagree

end Sys2Proof.Machine
end

section
/-! SUPPORT. The statements of 60_exceptions.md: an engine at rest stays at rest until its START, a turn of an engine
whose source is filled never faults, and a run whose source is cut short ends with `TruncatedSource`. -/

namespace Sys2Proof.Machine

/-! ### An engine at rest (R236, R241, R261) -/

/-- A turn of an engine at rest changes nothing. -/
theorem engineTurn_idle {e : Engine} {s : State} (hidle : (s.engineStatus e).state ≠ .busy) :
    engineTurn e s = .next s :=
  match e, hidle with
  | .btd, hidle => btdTurn_idle hidle
  | .lzd, hidle => lzdTurn_idle hidle

/-- Settles O35. -/
theorem restingEngineExecutesNothing : Obligations.RestingEngineExecutesNothing := by
  have hidle : ∀ {s : State} {e : Engine}, s.engineBusy e = false → (s.engineStatus e).state ≠ .busy := by
    intro s e hbusy hb
    rw [(s.engineBusy_iff e).mpr hb] at hbusy
    cases hbusy
  refine ⟨fun s e rest ha hb => ?_, fun s ha hb hl => ?_⟩
  · rw [step_of_engine ha]
    exact engineTurn_idle (by cases e <;> exact hidle hb)
  · rw [step_of_nil_lzd ha (hidle hb)]
    exact lzdTurn_idle (hidle hl)

/-! ### Which moves change a STATUS (R26, R241) -/

/-- The register index of START (R22, R28). -/
def startIndex : Engine → Nat
  | .btd => 5
  | .lzd => 3

@[simp] theorem State.engineStatus_handOver (s : State) (m : Memory) (n : Nat) (e e' : Engine) (b : Buffer) :
    (s.handOver m n e' b).engineStatus e = s.engineStatus e := by
  cases e <;> cases e' <;> cases b <;> rfl

theorem State.engineStatus_of_eq {s t : State} (e : Engine) (hbtd : t.btd = s.btd) (hlzd : t.lzd = s.lzd) :
    t.engineStatus e = s.engineStatus e := by
  cases e <;> simp [State.engineStatus, hbtd, hlzd]

/-- A turn of either engine leaves the STATUS of an engine at rest. -/
theorem engineTurn_keeps_status {e e' : Engine} {s t : State} (h : engineTurn e' s = .next t)
    (hidle : (s.engineStatus e).state ≠ .busy) : t.engineStatus e = s.engineStatus e :=
  match e, e', h with
  | .btd, .lzd, h => by rw [lzdTurn_keeps_rest h]; rfl
  | .lzd, .btd, h => by rw [btdTurn_keeps_rest h]; rfl
  | .btd, .btd, h | .lzd, .lzd, h => by cases (engineTurn_idle hidle).symm.trans h; rfl

/-- A register write that is no START of the engine leaves its STATUS. -/
theorem writeRegister_keeps_status {e e' : Engine} {index : Nat} {v : Word} {s t : State}
    (h : writeRegister e' index v s = .next t) (hstart : e' = e → index = startIndex e → v.getLsbD 0 = false) :
    t.engineStatus e = s.engineStatus e := by
  cases e' with
  | btd =>
    rw [writeRegister] at h
    split at h
    · next hindex =>
      rcases strobeBtd_eq_next.mp h with ⟨-, rfl⟩ | ⟨hv, -, -, i, rest, hd, hx⟩
      · rfl
      · cases e with
        | btd => exact absurd (hstart rfl hindex) (by simp [hv])
        | lzd => rw [exec_keeps_all_but_btd (context_of_decode hd ▸ rfl) hx]; rfl
    · cases h
      cases e with
      | btd => exact (Btd.writeDescriptor_keeps index v s.btd).1
      | lzd => rfl
  | lzd =>
    rw [writeRegister] at h
    split at h
    · next hindex =>
      rcases strobeLzd_eq_next.mp h with ⟨-, rfl⟩ | ⟨hv, -, -, hx⟩
      · rfl
      · cases e with
        | btd => rw [exec_keeps_all_but_lzd rfl hx]; rfl
        | lzd => exact absurd (hstart rfl hindex) (by simp [hv])
    · cases h
      cases e with
      | btd => rfl
      | lzd => exact (Lzd.writeDescriptor_keeps index v s.lzd).1

/-- No host move but a reset or a START of the engine changes its STATUS. -/
theorem hostTurn_keeps_status {m : HostMove} {s t : State} {e : Engine} (h : hostTurn m s = .next t)
    (hreset : m ≠ .reset) (hstart : ∀ v, m = .writeReg e (startIndex e) v → v.getLsbD 0 = false) :
    t.engineStatus e = s.engineStatus e := by
  cases m with
  | writeReg e' index v => exact writeRegister_keeps_status h fun he hi => hstart v (by rw [he, hi])
  | readReg e' index => cases h; exact State.engineStatus_of_eq e (by simp) (by simp)
  | writeByte e' b a v =>
    obtain ⟨-, -, rfl⟩ := hostWrite_eq_next.mp h
    rw [State.setBuffer_eq_handOver, State.engineStatus_handOver]
  | readByte e' b a =>
    obtain ⟨-, -, v, -, rfl⟩ := hostRead_eq_next.mp h
    exact State.engineStatus_of_eq e rfl rfl
  | bind e' b bytes =>
    obtain ⟨-, -, rfl⟩ := hostBind_eq_next.mp h
    rw [State.engineStatus_handOver]
  | allocate e' b size =>
    obtain ⟨-, -, rfl⟩ := hostBind_eq_next.mp h
    rw [State.engineStatus_handOver]
  | reset => exact absurd rfl hreset

/-- No step but a reset or a START of the engine changes the STATUS of an engine at rest. -/
theorem step_keeps_status {s t : State} {e : Engine} (h : step s = .next t)
    (hreset : s.agenda.head? ≠ some (.host .reset)) (hidle : (s.engineStatus e).state ≠ .busy)
    (hstart : ∀ v, s.agenda.head? = some (.host (.writeReg e (startIndex e) v)) → v.getLsbD 0 = false) :
    t.engineStatus e = s.engineStatus e := by
  have hagenda : ∀ rest, State.engineStatus { s with agenda := rest } e = s.engineStatus e :=
    fun _ => State.engineStatus_of_eq e rfl rfl
  rcases step_cases s with ⟨-, -, hs⟩ | ⟨-, -, hs⟩ | ⟨e', rest, -, hs⟩ | ⟨m, rest, ha, hs⟩ <;> rw [hs] at h
  · exact engineTurn_keeps_status (e' := .btd) h hidle
  · exact engineTurn_keeps_status (e' := .lzd) h hidle
  · rw [engineTurn_keeps_status h (by rwa [hagenda]), hagenda]
  · rw [ha, List.head?_cons] at hreset hstart
    rw [hostTurn_keeps_status h (fun hm => hreset (by rw [hm])) fun v hm => hstart v (by rw [hm]), hagenda]

/-- Settles O48: `step_keeps_status` for each engine. -/
theorem finishedEngineWaitsForStartOrReset : Obligations.FinishedEngineWaitsForStartOrReset :=
  fun _ _ h hreset => ⟨step_keeps_status (e := .btd) h hreset, step_keeps_status (e := .lzd) h hreset⟩

/-! ### No access outside the buffers (R41, R152, R170, R173, R238) -/

/-- A turn of a running operation whose source is filled answers: the element at the cursor is decoded, and its pixels
are stored. -/
theorem exists_btdTurn {s : State} (hr : s.btd.Running) (hb : s.btd.status.state = .busy)
    (hf : SourceFilled s.btd.src s.btd.srcLen.toNat) : ∃ t, btdTurn s = .next t := by
  have hread : ∀ a, a < s.btd.srcLen.toNat → s.btd.src.read a = some ((s.btd.src.read a).getD 0) := by
    intro a ha
    obtain ⟨v, hv⟩ := Option.isSome_iff_exists.mp (hf a ha)
    rw [hv, Option.getD_some]
  rcases hr with ⟨hop, hr⟩ | ⟨hop, hr⟩ | ⟨hop, hr⟩
  · obtain ⟨-, -, b, -, -, hturn⟩ := btdTurn_colorBlocks hop hb hr hread
    exact ⟨_, hturn⟩
  · obtain ⟨-, -, b, -, -, hturn⟩ := btdTurn_intensity8 hop hb hr hread
    exact ⟨_, hturn⟩
  · obtain ⟨-, -, b, -, -, hturn⟩ := btdTurn_intensity4 hop hb hr hread
    exact ⟨_, hturn⟩

/-- Settles O51: an engine at rest does nothing, a running one is `exists_btdTurn` or `lzdTurn_spends`. -/
theorem engineTurnsNeverFault : Obligations.EngineTurnsNeverFault := by
  refine ⟨fun s hinv hf => ?_, fun s hinv hf => ?_⟩
  · by_cases hb : s.btd.status.state = .busy
    · exact exists_btdTurn (hinv.running hb) hb hf
    · exact ⟨s, btdTurn_idle hb⟩
  · by_cases hb : s.lzd.status.state = .busy
    · obtain ⟨l, hturn, -⟩ := lzdTurn_spends hinv hb hf
      exact ⟨_, hturn⟩
    · exact ⟨s, lzdTurn_idle hb⟩

/-! ### A source cut short (R233) -/

/-- A turn whose element is in the stream, but not with all its bytes below `SRC_LEN`, raises `TruncatedSource`. -/
theorem lzdTurn_of_cut_element {s : State} {i : Instr} (hb : s.lzd.status.state = .busy) (hctx : i.context = s.lzd.due)
    (hread : ∀ j, j < (encode i).length → s.lzd.src.read (s.lzd.sp.toNat + j) = (encode i)[j]?)
    (hcut : s.lzd.srcLen.toNat < s.lzd.sp.toNat + (encode i).length) :
    ∃ t, engineTurn .lzd s = .next t ∧ t.lzd.status = ⟨.error, .truncatedSource⟩ := by
  refine (missingBytesRaiseTruncatedSource s hb ?_).imp fun t ⟨ht, hstatus, _⟩ => ⟨ht, hstatus⟩
  rcases s.lzd.due_cases with ⟨-, hdue⟩ | ⟨-, hdue | hdue⟩ <;> rw [hdue] at hctx ⊢
  · match i, hctx with
    | .ctrl f, _ => exact .inl ⟨by decide, Nat.le_of_lt_succ hcut⟩
  · match i, hctx with
    | .lit b, _ => exact .inl ⟨by decide, Nat.le_of_lt_succ hcut⟩
  · match i, hctx with
    | .ref n d, _ => exact .inr (.inl ⟨rfl, Nat.le_of_lt_succ hcut⟩)
    | .refx d e, _ =>
      rcases Nat.lt_or_eq_of_le (Nat.le_of_lt_succ hcut) with htoken | hextra
      · exact .inr (.inl ⟨rfl, Nat.le_of_lt_succ htoken⟩)
      · have hcode : (highByte (tokenOf 0 d)).toNat / 16 = 0 :=
          extendedForm_be16.mp (by rw [be16_high_low]; simp [extendedForm])
        exact .inr (.inr ⟨rfl, hextra, _, _, hread 0 (by simp [encode]), hread 1 (by simp [encode]), hcode⟩)

/-- A run that is done, its source cut below the final `SP`: the elements before the cut go as before, and the first one
that reaches over it raises. -/
theorem lzdTurns_of_cut {n : Nat} {s t : State} {srcLen : Word} (hb : s.lzd.status.state = .busy)
    (h : turns .lzd n s = .next t) (hdone : t.lzd.status.state = .done) (hcut : srcLen.toNat < t.lzd.sp.toNat) :
    ∃ k u, k ≤ n ∧ turns .lzd k { s with lzd := s.lzd.withSource s.lzd.src srcLen } = .next u ∧
      u.lzd.status = ⟨.error, .truncatedSource⟩ := by
  induction n generalizing s with
  | zero =>
    cases h
    rw [hb] at hdone
    cases hdone
  | succ n ih =>
    obtain ⟨m, hm, hn⟩ := turns_succ_eq_next.mp h
    have hlive := lzdTurns_live hn (by rw [hdone]; decide)
    by_cases hfits : m.lzd.sp.toNat ≤ srcLen.toNat
    · have hgoes : m.lzd.status.state = .busy := by
        by_contra hidle
        cases (lzdTurns_idle hidle n).symm.trans hn
        omega
      have hsame := (lzdTurn_withSource hm hlive).2 s.lzd.src srcLen hfits fun _ _ => rfl
      obtain ⟨k, u, hk, hu, hraised⟩ := ih hgoes hn
      rw [(sameJob_of_lzdTurn hm).src] at hu
      exact ⟨k + 1, u, Nat.succ_le_succ hk, turns_succ_eq_next.mpr ⟨_, hsame, hu⟩, hraised⟩
    · obtain ⟨i, -, hctx, hread, hlen, hx⟩ := lzdTurn_element hb hm hlive
      have hsp := (exec_due_withSource hctx hlen hx).1
      obtain ⟨u, hu, hraised⟩ := lzdTurn_of_cut_element
        (s := { s with lzd := s.lzd.withSource s.lzd.src srcLen }) hb hctx hread (hsp ▸ Nat.lt_of_not_le hfits)
      exact ⟨1, u, Nat.succ_le_succ n.zero_le, turns_succ_eq_next.mpr ⟨u, hu, rfl⟩, hraised⟩

/-- Settles O55. -/
theorem truncatedStreamRaisesTruncatedSource : Obligations.TruncatedStreamRaisesTruncatedSource := by
  intro n s t srcLen hb h hdone hcut
  exact lzdTurns_of_cut hb h (by rw [hdone]) hcut

end Sys2Proof.Machine
end
